-- ==== Sys2Proof/Word.lean ====
section
/-! DEFINITION. The data types the block's values are made of: bit sequences and words (00_scope.md R10, R11), decimal
literals, binary64 values and the real numbers of EXACT (R13). Types only: every computation on them stands in a file under
Machine/. -/

namespace Sys2Proof

/-- A bit sequence `<s_0, ..., s_(n-1)>`, most significant bit first (00_scope.md R10). -/
abbrev BitSeq := List Bool

/-- A 16-bit word: a configuration word, an echo or a data field (00_scope.md R11). -/
abbrev Word16 := BitVec 16

/-- An IEEE 754 binary64 value (00_scope.md R13). `fin neg mant exp` is `(-1)^neg * mant * 2^(exp - 1074)`. All NaNs are
one value here; which bit pattern a NaN has is left free (log entry 11). -/
inductive F64 where
  | nan
  | inf (neg : Bool)
  | fin (neg : Bool) (mant exp : Nat)
  deriving DecidableEq, Repr

/-- A decimal literal `mant * 10^(-scale)` (00_scope.md R13: "Every decimal constant is the binary64 value nearest to its
decimal literal"). -/
structure Dec where
  mant : Int
  scale : Nat
  deriving DecidableEq, Repr

/-- A real number under NUM = EXACT (00_scope.md R13: "Every value is a real number"), as plain data: a rational, or an
expression over such numbers and names of reals. `Exact.toReal` is the number it stands for; two expressions may stand for
one number. -/
inductive Exact where
  | rat (q : ℚ)
  /-- A real of which nothing is fixed: any real number (log entry 29). -/
  | free (name : Nat)
  | add (x y : Exact)
  | mul (x y : Exact)
  | div (x y : Exact)
  | exp (x : Exact)
  deriving DecidableEq, Repr

/-- A real number as an operand under EXACT: a rational, or any real, under a name (log entry 29). -/
inductive RealOperand where
  | rat (q : ℚ)
  | free (name : Nat)
  deriving DecidableEq, Repr

/-- A value of the numeric datapath: a binary64 under BINARY64_RNE, a real number under EXACT (00_scope.md R13). -/
inductive Value where
  | b64 (x : F64)
  | exact (e : Exact)
  deriving DecidableEq, Repr

end Sys2Proof
end

