-- ==== Sys2Proof/Machine/RealLine.lean ====
section
/-! DEFINITION. The reals that the free names of EXACT stand for, and their order (00_scope.md R13): what is fixed of them in
every case. `Config.realLine` is the one the machine runs with. -/

namespace Sys2Proof

/-! ### Reals with names -/

/-- The real number `x` is, where the free name `n` stands for `value n`. -/
noncomputable def Exact.valueAt (value : Nat → ℝ) : Exact → ℝ
  | .rat q => (q : ℝ)
  | .free n => value n
  | .add x y => x.valueAt value + y.valueAt value
  | .mul x y => x.valueAt value * y.valueAt value
  | .div x y => x.valueAt value / y.valueAt value
  | .exp x => Real.exp (x.valueAt value)

/-- No exponential: a rational function of the operands, as every value of 44_typek_table.md is. -/
def Exact.plain : Exact → Bool
  | .rat _ => true
  | .free _ => true
  | .add x y => x.plain && y.plain
  | .mul x y => x.plain && y.plain
  | .div x y => x.plain && y.plain
  | .exp _ => false

/-- At most one exponential, of a plain argument and outside a divisor, as in the combined voltage of 45_cold_junction.md
R225. -/
def Exact.simple : Exact → Bool
  | .rat _ => true
  | .free _ => true
  | .add x y => (x.plain && y.simple) || (x.simple && y.plain)
  | .mul x y => (x.plain && y.simple) || (x.simple && y.plain)
  | .div x y => x.simple && y.plain
  | .exp x => x.plain

/-- The pairs whose order the block may ask for: a simple value and a plain one. -/
def Exact.comparable (x y : Exact) : Bool := (x.plain && y.simple) || (x.simple && y.plain)

/-- `less` is the order of the reals, on every pair the block may ask for (00_scope.md R13: comparisons are exact). -/
def OrdersReals (value : Nat → ℝ) (less : Exact → Exact → Bool) : Prop :=
  ∀ x y, Exact.comparable x y = true → (less x y = true ↔ x.valueAt value < y.valueAt value)

/-! ### There is such an order, and it can be computed

Where every free name stands for 0, a simple value is `a + b * exp q` with rational `a`, `b` and `q`. With `b` and `q` not 0
that is never 0, since `exp q` is irrational, so rational bounds of `exp q` that get closer tell its sign. -/

open Polynomial in
/-- A power of e with a positive whole exponent is irrational. -/
theorem irrational_exp_nat (k : Nat) (hk : k ≠ 0) : Irrational (Real.exp k) := by
  rintro ⟨r, hr⟩
  have h0 : (X - C (k : ℤ) : ℤ[X]).eval 0 ≠ 0 := by simp [hk]
  obtain ⟨c, hc⟩ := LindemannWeierstrass.exp_polynomial_approx (X - C (k : ℤ)) h0
  have hlim := (FloorSemiring.tendsto_mul_pow_div_factorial_sub_atTop (r.den : ℝ) |c| 1).eventually_lt_const
    (show (0 : ℝ) < 1 by norm_num)
  obtain ⟨N, hN⟩ := Filter.eventually_atTop.1 hlim
  obtain ⟨p, hp, pp⟩ := Nat.exists_infinite_primes (N + k + r.num.natAbs + r.den + 1)
  obtain ⟨n, hn, g, -, hg⟩ := hc p (by simp; omega) pp
  have hroot : (k : ℂ) ∈ (X - C (k : ℤ) : ℤ[X]).aroots ℂ := by
    rw [mem_aroots]; exact ⟨X_sub_C_ne_zero _, by simp⟩
  have h1 := hg hroot
  have hsmall := hN p (by omega)
  have e1 : n • Complex.exp (k : ℂ) - p • aeval (k : ℂ) g = ((n * (r : ℝ) - p * (g.eval (k : ℤ) : ℤ) : ℝ) : ℂ) := by
    have a : aeval (k : ℂ) g = ((g.eval (k : ℤ) : ℤ) : ℂ) := by
      have := aeval_algebraMap_apply ℂ (k : ℤ) g
      simpa using this
    have b : Complex.exp (k : ℂ) = ((r : ℝ) : ℂ) := by rw [hr]; push_cast; rfl
    rw [a, b]; simp
  rw [e1, Complex.norm_real, Real.norm_eq_abs] at h1
  have hden : (0 : ℝ) < r.den := by exact_mod_cast r.pos
  have hr' : (r : ℝ) * r.den = r.num := by exact_mod_cast Rat.mul_den_eq_num r
  have h2 : |((n * r.num - p * g.eval (k : ℤ) * r.den : ℤ) : ℝ)| < 1 := by
    have : ((n * r.num - p * g.eval (k : ℤ) * r.den : ℤ) : ℝ) = r.den * (n * (r : ℝ) - p * (g.eval (k : ℤ) : ℤ)) := by
      push_cast; rw [← hr']; ring
    rw [this, abs_mul, abs_of_pos hden]
    calc (r.den : ℝ) * _ ≤ r.den * (|c| ^ p / (p - 1).factorial) := by
          refine mul_le_mul_of_nonneg_left (h1.trans ?_) hden.le
          exact div_le_div_of_nonneg_right ((le_abs_self _).trans_eq (abs_pow c p)) (by positivity)
      _ < 1 := by rw [← mul_div_assoc]; exact hsmall
  have h3 : n * r.num - p * g.eval (k : ℤ) * r.den = 0 := by
    rw [← Int.cast_abs] at h2
    have : |n * r.num - p * g.eval (k : ℤ) * r.den| < 1 := by exact_mod_cast h2
    exact Int.abs_lt_one_iff.1 this
  have h4 : (p : ℤ) ∣ n * r.num := ⟨g.eval (k : ℤ) * r.den, by linarith⟩
  rcases (Nat.prime_iff_prime_int.1 pp).dvd_or_dvd h4 with h | h
  · exact hn h
  · have hz : r.num ≠ 0 := by
      intro hz
      have : r = 0 := Rat.num_eq_zero.1 hz
      rw [this] at hr
      exact (Real.exp_pos (k : ℝ)).ne (by simpa using hr)
    have := Int.le_of_dvd (Int.natAbs_pos.2 hz |> fun h => by exact_mod_cast h) (Int.dvd_natAbs.2 h)
    omega

/-- The exponential of a rational other than 0 is irrational. -/
theorem irrational_exp_rat (q : ℚ) (hq : q ≠ 0) : Irrational (Real.exp q) := by
  have hpos : ∀ q : ℚ, 0 < q → Irrational (Real.exp q) := fun q hq => by
    have hn : (q.num.toNat : ℚ) = q * q.den := by
      rw [Rat.mul_den_eq_num]
      exact_mod_cast Int.toNat_of_nonneg (Rat.num_pos.2 hq).le
    have h := irrational_exp_nat q.num.toNat (by have := Rat.num_pos.2 hq; omega)
    have e : Real.exp (q.num.toNat : ℝ) = Real.exp q ^ q.den := by
      rw [← Real.exp_nat_mul, mul_comm]; congr 1; exact_mod_cast hn
    rw [e] at h
    exact h.of_pow q.den
  rcases lt_or_gt_of_ne hq with h | h
  · have := hpos (-q) (by linarith)
    rw [Rat.cast_neg, Real.exp_neg] at this
    exact irrational_inv_iff.1 this
  · exact hpos q h

theorem Exact.simple_of_plain (x : Exact) (h : x.plain = true) : x.simple = true := by
  induction x with
  | rat | free => rfl
  | add x y ihx ihy | mul x y ihx ihy | div x y ihx ihy =>
    rw [Exact.plain, Bool.and_eq_true] at h
    simp [Exact.simple, h.1, h.2, ihx h.1, ihy h.2]
  | exp => cases h

/-- The value of a plain real whose names stand for 0. -/
def Exact.plainValue : Exact → ℚ
  | .rat q => q
  | .free _ => 0
  | .add x y => x.plainValue + y.plainValue
  | .mul x y => x.plainValue * y.plainValue
  | .div x y => x.plainValue / y.plainValue
  | .exp _ => 0

/-- `(a, b, q)`, where a simple real whose names stand for 0 is `a + b * exp q`. -/
def Exact.expForm : Exact → ℚ × ℚ × ℚ
  | .rat q => (q, 0, 0)
  | .free _ => (0, 0, 0)
  | .add x y =>
    if x.plain then (x.plainValue + y.expForm.1, y.expForm.2) else (x.expForm.1 + y.plainValue, x.expForm.2)
  | .mul x y =>
    if x.plain then (x.plainValue * y.expForm.1, x.plainValue * y.expForm.2.1, y.expForm.2.2)
    else (x.expForm.1 * y.plainValue, x.expForm.2.1 * y.plainValue, x.expForm.2.2)
  | .div x y => (x.expForm.1 / y.plainValue, x.expForm.2.1 / y.plainValue, x.expForm.2.2)
  | .exp x => (0, 1, x.plainValue)

theorem Exact.plainValue_spec (x : Exact) (h : x.plain = true) : x.valueAt (fun _ => 0) = (x.plainValue : ℝ) := by
  induction x with
  | rat | free => simp [Exact.valueAt, Exact.plainValue]
  | add x y ihx ihy | mul x y ihx ihy | div x y ihx ihy =>
    rw [Exact.plain, Bool.and_eq_true] at h
    simp [Exact.valueAt, Exact.plainValue, ihx h.1, ihy h.2]
  | exp => cases h

theorem Exact.expForm_spec (x : Exact) (h : x.simple = true) :
    x.valueAt (fun _ => 0) = (x.expForm.1 : ℝ) + x.expForm.2.1 * Real.exp x.expForm.2.2 := by
  induction x with
  | rat | free => simp [Exact.valueAt, Exact.expForm]
  | add x y ihx ihy =>
    rw [Exact.simple, Bool.or_eq_true, Bool.and_eq_true, Bool.and_eq_true] at h
    unfold Exact.valueAt Exact.expForm
    split
    · rename_i hp
      have hy : y.simple = true := h.elim (·.2) fun h => y.simple_of_plain h.2
      rw [x.plainValue_spec hp, ihy hy]; push_cast; ring
    · rename_i hp
      have h := h.resolve_left fun h => hp h.1
      rw [y.plainValue_spec h.2, ihx h.1]; push_cast; ring
  | mul x y ihx ihy =>
    rw [Exact.simple, Bool.or_eq_true, Bool.and_eq_true, Bool.and_eq_true] at h
    unfold Exact.valueAt Exact.expForm
    split
    · rename_i hp
      have hy : y.simple = true := h.elim (·.2) fun h => y.simple_of_plain h.2
      rw [x.plainValue_spec hp, ihy hy]; push_cast; ring
    · rename_i hp
      have h := h.resolve_left fun h => hp h.1
      rw [y.plainValue_spec h.2, ihx h.1]; push_cast; ring
  | div x y ihx ihy =>
    rw [Exact.simple, Bool.and_eq_true] at h
    unfold Exact.valueAt Exact.expForm
    rw [y.plainValue_spec h.2, ihx h.1]; push_cast; ring
  | exp x =>
    unfold Exact.valueAt Exact.expForm
    rw [x.plainValue_spec h]; simp

/-- How many factors the `n`-th bounds of `exp q` have. -/
def expFactors (n : Nat) (q : ℚ) : Nat := n + (⌈|q|⌉.toNat + 1)

/-- The `n`-th lower bound of `exp q`. -/
def expLow (n : Nat) (q : ℚ) : ℚ := (1 + q / expFactors n q) ^ expFactors n q

theorem abs_lt_expFactors (n : Nat) (q : ℚ) : |q| < expFactors n q := by
  have h1 : |q| ≤ (⌈|q|⌉.toNat : ℚ) := (Int.le_ceil _).trans (by exact_mod_cast Int.self_le_toNat _)
  unfold expFactors; push_cast
  have : (0 : ℚ) ≤ n := Nat.cast_nonneg n
  linarith

theorem expLow_pos (n : Nat) (q : ℚ) : 0 < expLow n q := by
  have h := abs_lt_expFactors n q
  have hm : (0 : ℚ) < expFactors n q := (abs_nonneg q).trans_lt h
  refine pow_pos ?_ _
  have : -1 < q / expFactors n q := by rw [lt_div_iff₀ hm]; linarith [neg_abs_le q]
  linarith

theorem expLow_le (n : Nat) (q : ℚ) : (expLow n q : ℝ) ≤ Real.exp q := by
  have h := abs_lt_expFactors n q
  have hm : (0 : ℚ) < expFactors n q := (abs_nonneg q).trans_lt h
  have h0 : -1 < q / expFactors n q := by rw [lt_div_iff₀ hm]; linarith [neg_abs_le q]
  have h0' : ((-1 : ℚ) : ℝ) < ((q / expFactors n q : ℚ) : ℝ) := Rat.cast_lt.2 h0
  have hm' : ((expFactors n q : Nat) : ℝ) ≠ 0 := by exact_mod_cast hm.ne'
  unfold expLow; push_cast at h0' ⊢
  rw [show Real.exp q = Real.exp ((q : ℝ) / expFactors n q) ^ expFactors n q by
    rw [← Real.exp_nat_mul]; congr 1; field_simp]
  refine pow_le_pow_left₀ (by linarith) ?_ _
  rw [add_comm]; exact Real.add_one_le_exp _

theorem tendsto_expLow (q : ℚ) : Filter.Tendsto (fun n => (expLow n q : ℝ)) Filter.atTop (nhds (Real.exp q)) := by
  have h := (Real.tendsto_one_add_div_pow_exp (q : ℝ)).comp (Filter.tendsto_add_atTop_nat (⌈|q|⌉.toNat + 1))
  refine h.congr fun n => ?_
  simp [expLow, expFactors]

/-- The `n`-th bounds of `a + b * exp q` are on one side of 0. -/
def apartAt (a b q : ℚ) (n : Nat) : Bool :=
  decide ((a + b * expLow n q < 0 ∧ a + b / expLow n (-q) < 0) ∨ (0 < a + b * expLow n q ∧ 0 < a + b / expLow n (-q)))

theorem exists_apartAt (a b q : ℚ) (h : ¬(b = 0 ∨ q = 0)) : ∃ n, apartAt a b q n = true := by
  simp only [apartAt, decide_eq_true_iff]
  rw [not_or] at h
  have hne : (a : ℝ) + b * Real.exp q ≠ 0 := fun h0 => by
    refine irrational_exp_rat q h.2 ⟨-a / b, ?_⟩
    have hb : (b : ℝ) ≠ 0 := by exact_mod_cast h.1
    push_cast; rw [div_eq_iff hb]; linarith
  have l1 : Filter.Tendsto (fun n => (a : ℝ) + b * expLow n q) Filter.atTop (nhds (a + b * Real.exp q)) :=
    ((tendsto_expLow q).const_mul _).const_add _
  have l2 : Filter.Tendsto (fun n => (a : ℝ) + b / expLow n (-q)) Filter.atTop (nhds (a + b * Real.exp q)) := by
    have := ((tendsto_expLow (-q)).inv₀ (Real.exp_pos _).ne').const_mul (b : ℝ)
    rw [Rat.cast_neg, Real.exp_neg, inv_inv] at this
    simpa [div_eq_mul_inv] using this.const_add (a : ℝ)
  rcases lt_or_gt_of_ne hne with hs | hs
  · obtain ⟨n, h1, h2⟩ := ((l1.eventually_lt_const hs).and (l2.eventually_lt_const hs)).exists
    exact ⟨n, .inl ⟨by exact_mod_cast h1, by exact_mod_cast h2⟩⟩
  · obtain ⟨n, h1, h2⟩ := ((l1.eventually_const_lt hs).and (l2.eventually_const_lt hs)).exists
    exact ⟨n, .inr ⟨by exact_mod_cast h1, by exact_mod_cast h2⟩⟩

/-- Whether `a + b * exp q` is negative. -/
def negativeExp (a b q : ℚ) : Bool :=
  if h : b = 0 ∨ q = 0 then decide (a + b < 0)
  else decide (a + b * expLow (Nat.find (exists_apartAt a b q h)) q < 0)

theorem negativeExp_iff (a b q : ℚ) : negativeExp a b q = true ↔ (a : ℝ) + b * Real.exp q < 0 := by
  unfold negativeExp
  split
  · rename_i h
    have e : (b : ℝ) * Real.exp q = b := by rcases h with h | h <;> simp [h]
    rw [decide_eq_true_iff, e]; norm_cast
  · rename_i h
    have hn := Nat.find_spec (exists_apartAt a b q h)
    generalize Nat.find (exists_apartAt a b q h) = n at hn ⊢
    rw [apartAt, decide_eq_true_iff] at hn
    rw [decide_eq_true_iff]
    have h1 := expLow_le n q
    have h2 := expLow_le n (-q)
    have h2p : (0 : ℝ) < expLow n (-q) := by exact_mod_cast expLow_pos n (-q)
    have h3 : Real.exp q ≤ 1 / (expLow n (-q) : ℝ) := by
      rw [Rat.cast_neg, Real.exp_neg] at h2
      rw [le_div_iff₀ h2p]
      have := mul_le_mul_of_nonneg_left h2 (Real.exp_pos (q : ℝ)).le
      rwa [mul_inv_cancel₀ (Real.exp_pos _).ne'] at this
    have ediv : ((a + b / expLow n (-q) : ℚ) : ℝ) = a + b * (1 / (expLow n (-q) : ℝ)) := by push_cast; ring
    have elow : ((a + b * expLow n q : ℚ) : ℝ) = a + b * (expLow n q : ℝ) := by push_cast; ring
    rcases hn with ⟨c1, c2⟩ | ⟨c1, c2⟩
    · have c1' : ((a + b * expLow n q : ℚ) : ℝ) < 0 := by exact_mod_cast c1
      have c2' : ((a + b / expLow n (-q) : ℚ) : ℝ) < 0 := by exact_mod_cast c2
      rw [elow] at c1'; rw [ediv] at c2'
      refine iff_of_true c1 ?_
      rcases le_total 0 (b : ℝ) with hb | hb <;> nlinarith
    · have c1' : (0 : ℝ) < ((a + b * expLow n q : ℚ) : ℝ) := by exact_mod_cast c1
      have c2' : (0 : ℝ) < ((a + b / expLow n (-q) : ℚ) : ℝ) := by exact_mod_cast c2
      rw [elow] at c1'; rw [ediv] at c2'
      refine iff_of_false (by linarith) (not_lt.2 ?_)
      rcases le_total 0 (b : ℝ) with hb | hb <;> nlinarith

/-- The order where every free name stands for 0. -/
def lessAtZero (x y : Exact) : Bool :=
  let d := (Exact.add x (.mul (.rat (-1)) y)).expForm
  negativeExp d.1 d.2.1 d.2.2

theorem lessAtZero_orders : OrdersReals (fun _ => 0) lessAtZero := by
  intro x y h
  have hs : (Exact.add x (.mul (.rat (-1)) y)).simple = true := by
    unfold Exact.comparable at h
    simp only [Bool.or_eq_true, Bool.and_eq_true] at h
    rcases h with h | h
    · simp [Exact.simple, Exact.plain, h.1, h.2]
    · simp [Exact.simple, Exact.plain, h.1, h.2]
  have e := Exact.expForm_spec _ hs
  unfold lessAtZero
  rw [negativeExp_iff, ← e, Exact.valueAt, Exact.valueAt, Exact.valueAt]
  push_cast
  constructor <;> intro h <;> linarith

/-- Reals for the free names, and the order of the reals on every pair the block may ask for. The values given here show only
that there is one; `Config.realLine`, which the machine runs with, has no body. -/
structure RealLine where
  /-- The real number a free name stands for: any. -/
  value : Nat → ℝ := fun _ => 0
  /-- The order of the reals. -/
  less : Exact → Exact → Bool := lessAtZero
  orders : OrdersReals value less := by exact lessAtZero_orders
  deriving Inhabited

end Sys2Proof
end

