-- ==== Sys2Proof/Config.lean ====
section
/-! DEFINITION. The implementation parameters of 00_scope.md R9 that are sizes, the choices the machine carries as data,
and the values the spec leaves free. The ROM tables stand in Machine/Rom.lean. -/

namespace Sys2Proof

/-- Longest bit sequence of an operand or result (00_scope.md R9, decision D7). -/
def Config.bitseqMax : Nat := 32

/-- Most commands of one CH_READ_BATCH (00_scope.md R9, decision D20). -/
def Config.nBatchMax : Nat := 16

/-- POLL_CS, the level of CS_N while polling for data-ready (00_scope.md R9, decision D27). -/
inductive PollCs where
  | deasserted
  | asserted
  deriving DecidableEq, Repr

/-- BATCH_ABORT, when a CH_READ_BATCH stops on a mismatch (43_adc_channel.md R180, decision D15). -/
inductive BatchAbort where
  | afterAll
  | atFault
  deriving DecidableEq, Repr

/-- Width of the unsigned operand of INT_TO_BITS (00_scope.md R9 VALUE_W, decision D7). -/
def Config.valueWidth : Nat := 64

/-- NUM, the numeric datapath (00_scope.md R13, decision D4). -/
inductive NumKind where
  | binary64
  | exact
  deriving DecidableEq, Repr

/-- HAS_CS, whether the line CS_N is present: OPEN (00_scope.md R9, decision D28). Free: log entry 4. -/
opaque Config.hasCs : Bool

/-- The level of the `n`-th sample of DIN, where the environment has fixed none (00_scope.md R8, 43_adc_channel.md R161:
every `PinSample` is a free draw). Free: log entry 3. -/
opaque Config.dinDraw : Nat → Bool

/-- Sign of the bit pattern of a NaN in the `n`-th event's response record. Free: log entry 11. -/
opaque Config.nanSign : Nat → Bool

/-- Payload, below the quiet bit, of the pattern of a NaN in the `n`-th event's response record. Free: log entry 11. -/
opaque Config.nanPayload : Nat → BitVec 51

/-- Which real number each free name of EXACT stands for, free: log entry 29; and the order of the reals, which
`RealLine.orders` fixes on every pair the block may ask for: log entry 30. -/
opaque Config.realLine : RealLine

/-- The 64 bits of a REAL result field that carries a real number of EXACT: the spec gives it no pattern. Free: log entry 31. -/
opaque Config.exactField : Exact → BitVec 64

end Sys2Proof
end

