-- ==== Sys2Proof/Syntax.lean ====
section
/-! DEFINITION. The host operations: one constructor per row of spec/opcode_table.json (30_encoding.md R91), with its
operands as the operand fields of R92 give them. -/

namespace Sys2Proof

/-- An AdcConfig, its eight fields in the document's order (10_state.md R42). -/
structure AdcConfig where
  singleShot : Bool
  multiplex : BitVec 3
  gain : BitVec 3
  singleShotMode : Bool
  dataRate : BitVec 3
  tempSensor : Bool
  pullup : Bool
  operation : Bool
  deriving DecidableEq, Repr

/-- The wait strategy (10_state.md R36; operand type MODE of 30_encoding.md R92). -/
inductive WaitMode where
  | timed
  | polled
  deriving DecidableEq, Repr

/-- A host operation with its operands (30_encoding.md R91). Operands are held as the fields hold them, before the checks
of R92: `Instr.wellFormed` is those checks. -/
inductive Instr where
  /-- OP 0x01 (40_bitcodec.md R120). -/
  | intToBits (value : BitVec 64) (width : BitVec 6)
  /-- OP 0x02 (40_bitcodec.md R121). -/
  | bitsToInt (bits : BitSeq)
  /-- OP 0x03 (41_configword.md R131). -/
  | cfgEncode (config : AdcConfig)
  /-- OP 0x04 (41_configword.md R132). -/
  | cfgDecode (bits : BitSeq)
  /-- OP 0x05 (41_configword.md R135). -/
  | lsbSize (gain : BitVec 3)
  /-- OP 0x06 (41_configword.md R137). -/
  | convInterval (dataRate : BitVec 3)
  /-- OP 0x07 (42_twos_complement.md R150); `lsb` is the pattern of a binary64. -/
  | tcDecode (bits : BitSeq) (lsb : BitVec 64)
  /-- OP 0x08 (42_twos_complement.md R153). -/
  | interpret (config : AdcConfig) (dataBits : BitSeq)
  /-- OP 0x09 (43_adc_channel.md R170); `pull` is the PULLC code. -/
  | chInit (waitMode : WaitMode) (pull : BitVec 2)
  /-- OP 0x0A (43_adc_channel.md R166). -/
  | chExchange (commandBits : BitSeq)
  /-- OP 0x0B (43_adc_channel.md R168). -/
  | chVerify (command : AdcConfig) (echo : BitSeq)
  /-- OP 0x0C (43_adc_channel.md R177). -/
  | chAwait (dataRate : BitVec 3)
  /-- OP 0x0D (43_adc_channel.md R180). -/
  | chReadBatch (commands : List AdcConfig)
  /-- OP 0x0E (44_typek_table.md R205). -/
  | tkT2mv (celsius : BitVec 64)
  /-- OP 0x0F (44_typek_table.md R206). -/
  | tkMv2t (mv : BitVec 64)
  /-- OP 0x10 (45_cold_junction.md R222). -/
  | cjMv (coldJunctionC : BitVec 64)
  /-- OP 0x11 (45_cold_junction.md R225); the second operand is in volts. -/
  | cjLinearize (coldJunctionC thermocoupleVolts : BitVec 64)
  /-- OP 0x12 (45_cold_junction.md R226); the second operand is in millivolts. -/
  | tkGetTemp (coldJunctionC thermocoupleMillivolts : BitVec 64)
  deriving DecidableEq, Repr

end Sys2Proof
end

