-- ==== Sys2Proof/Machine/Bits.lean ====
section
/-! DEFINITION. The functions on bit sequences and words of 00_scope.md R10 to R12. -/

namespace Sys2Proof

/-- `seq_n` of the number `v`: its `n` low bits, most significant first (00_scope.md R11). -/
def toBits : Nat → Nat → BitSeq
  | 0, _ => []
  | n + 1, v => v.testBit n :: toBits n v

/-- `uint(s)`, the sum of `s_j * 2^(n-1-j)` (00_scope.md R12). -/
def uint : BitSeq → Nat
  | [] => 0
  | b :: s => b.toNat * 2 ^ s.length + uint s

/-- `sint(s) = uint(s) - s_0 * 2^n` (00_scope.md R12). -/
def sint (s : BitSeq) : Int :=
  (uint s : Int) - (if s.headD false then 2 ^ s.length else 0)

/-- `popcount(s)` (00_scope.md R12). -/
def popcount (s : BitSeq) : Nat := s.count true

/-- `~s` inverts every element (00_scope.md R10). -/
def invert (s : BitSeq) : BitSeq := s.map (fun b => !b)

/-- `word(s)` of a 16-element sequence (00_scope.md R11). -/
def word16 (s : BitSeq) : Word16 := BitVec.ofNat 16 (uint s)

/-- `seq_16(W)` (00_scope.md R11). -/
def seq16 (w : Word16) : BitSeq := toBits 16 w.toNat

/-- `W[i]`, as a flag. -/
def bitOf (w : Word16) (i : Nat) : Bool := w.toNat.testBit i

/-- `W[lo+2:lo]`, a three-bit field. -/
def field3 (w : Word16) (lo : Nat) : BitVec 3 := BitVec.ofNat 3 (w.toNat >>> lo)

/-- A flag as a one-element sequence. -/
def flagBits (b : Bool) : BitSeq := [b]

/-- A three-bit code as a sequence. -/
def codeBits (c : BitVec 3) : BitSeq := toBits 3 c.toNat

end Sys2Proof
end

