-- ==== Sys2Proof/Machine/Operands.lean ====
section
/-! DEFINITION. The operand types of 30_encoding.md R92: what each check admits, and the value an operand field stands
for. A check that fails is MalformedInput (60_exceptions.md R242). -/

namespace Sys2Proof.Machine

/-- WID: 1..BITSEQ_MAX (30_encoding.md R92). -/
def widOk (w : BitVec 6) : Bool := decide (1 ≤ w.toNat ∧ w.toNat ≤ Config.bitseqMax)

/-- SEQ: LEN is 1..BITSEQ_MAX (30_encoding.md R92). -/
def seqOk (s : BitSeq) : Bool := decide (1 ≤ s.length ∧ s.length ≤ Config.bitseqMax)

/-- SEQ where R91 says "length 16" (30_encoding.md R92). -/
def seq16Ok (s : BitSeq) : Bool := decide (s.length = 16)

/-- PULLC: 11 is malformed (30_encoding.md R92). -/
def pullOk (p : BitVec 2) : Bool := decide (p ≠ 3#2)

/-- LIST: COUNT is at most N_BATCH_MAX (30_encoding.md R92). -/
def listOk (cs : List AdcConfig) : Bool := decide (cs.length ≤ Config.nBatchMax)

/-- REAL: neither a NaN nor an infinity (00_scope.md R15, 30_encoding.md R92). -/
def realOk (x : BitVec 64) : Bool := decide (x.toNat / 2 ^ 52 % 2048 ≠ 2047)

end Sys2Proof.Machine
end

