-- ==== Sys2Proof/WellFormed.lean ====
section
/-! DEFINITION. The operand checks of each operation (30_encoding.md R92, 60_exceptions.md R242). An operation that fails
its check responds MalformedInput. -/

namespace Sys2Proof

open Machine in
/-- Every operand check the operation's row asks for holds (60_exceptions.md R242). -/
def Instr.wellFormed : Instr → Bool
  | .intToBits _ w => widOk w
  | .bitsToInt s => seqOk s
  | .cfgEncode _ => true
  | .cfgDecode s => seq16Ok s
  | .lsbSize _ => true
  | .convInterval _ => true
  | .tcDecode s lsb => seqOk s && realOk lsb
  | .interpret _ d => seq16Ok d
  | .chInit _ p => pullOk p
  | .chExchange c => seq16Ok c
  | .chVerify _ e => seq16Ok e
  | .chAwait _ => true
  | .chReadBatch cs => listOk cs
  | .tkT2mv t => realOk t
  | .tkMv2t v => realOk v
  | .cjMv t => realOk t
  | .cjLinearize t v => realOk t && realOk v
  | .tkGetTemp t v => realOk t && realOk v

end Sys2Proof
end

