-- ==== Sys2Proof/Decode.lean ====
section
/-! DEFINITION. The request record of 30_encoding.md R90 to R92: the decoder, and after it the encoder. A record is a bit
string, its fields in order, each most significant bit first. -/

namespace Sys2Proof

/-- Why a bit string is no request. -/
inductive DecodeError where
  /-- OP is 0x00 or 0x13..0x1F (30_encoding.md R94): the block responds IllegalOperation. -/
  | illegalOperation
  /-- The string ends before the record R90 describes does: no request (log entry 15). -/
  | truncated
  deriving DecidableEq, Repr

/-- The next `n` bits as an unsigned number, and the rest. -/
def readNat (n : Nat) (bits : BitSeq) : Option (Nat × BitSeq) :=
  if bits.length < n then none else some (uint (bits.take n), bits.drop n)

/-- The sequence of a SEQ field: `s_j = P[31-j]` for `j < LEN`; the other payload bits are ignored (30_encoding.md R92).
For the malformed LEN > 32 the elements past the payload are 0 (log entry 18). -/
def seqOfField (len payload : Nat) : BitSeq := (toBits 32 payload ++ List.replicate 31 false).take len

/-- SEQ (30_encoding.md R92). -/
def readSeq (bits : BitSeq) : Option (BitSeq × BitSeq) :=
  (readNat 6 bits).bind fun (len, b1) => (readNat 32 b1).map fun (p, b2) => (seqOfField len p, b2)

/-- The AdcConfig of a 14-bit CFG field (30_encoding.md R92). -/
def cfgOfField (v : Nat) : AdcConfig where
  singleShot := v.testBit 13
  multiplex := BitVec.ofNat 3 (v >>> 10)
  gain := BitVec.ofNat 3 (v >>> 7)
  singleShotMode := v.testBit 6
  dataRate := BitVec.ofNat 3 (v >>> 3)
  tempSensor := v.testBit 2
  pullup := v.testBit 1
  operation := v.testBit 0

/-- CFG (30_encoding.md R92). -/
def readCfg (bits : BitSeq) : Option (AdcConfig × BitSeq) :=
  (readNat 14 bits).map fun (v, b) => (cfgOfField v, b)

/-- `n` CFG fields, first command first (30_encoding.md R92, LIST). -/
def readCfgs : Nat → BitSeq → Option (List AdcConfig × BitSeq)
  | 0, bits => some ([], bits)
  | n + 1, bits => (readCfg bits).bind fun (c, b1) => (readCfgs n b1).map fun (cs, b2) => (c :: cs, b2)

/-- LIST (30_encoding.md R92): COUNT, then COUNT CFG fields. -/
def readList (bits : BitSeq) : Option (List AdcConfig × BitSeq) :=
  (readNat 5 bits).bind fun (n, b) => readCfgs n b

/-- CODE3 (30_encoding.md R92). -/
def readCode (bits : BitSeq) : Option (BitVec 3 × BitSeq) :=
  (readNat 3 bits).map fun (v, b) => (BitVec.ofNat 3 v, b)

/-- REAL, and U: 64 bits (30_encoding.md R92). -/
def readWord64 (bits : BitSeq) : Option (BitVec 64 × BitSeq) :=
  (readNat 64 bits).map fun (v, b) => (BitVec.ofNat 64 v, b)

/-- MODE: 0 TIMED, 1 POLLED (30_encoding.md R92). -/
def readMode (bits : BitSeq) : Option (WaitMode × BitSeq) :=
  (readNat 1 bits).map fun (v, b) => (if v = 0 then .timed else .polled, b)

/-- The operand fields of the operation with code `op`, in the order of 30_encoding.md R91; `none` for a code R94
reserves. -/
def operandReader : Nat → Option (BitSeq → Option (Instr × BitSeq))
  | 1 => some fun bits => (readWord64 bits).bind fun (v, b) => (readNat 6 b).map fun (w, r) =>
      (.intToBits v (BitVec.ofNat 6 w), r)
  | 2 => some fun bits => (readSeq bits).map fun (s, r) => (.bitsToInt s, r)
  | 3 => some fun bits => (readCfg bits).map fun (c, r) => (.cfgEncode c, r)
  | 4 => some fun bits => (readSeq bits).map fun (s, r) => (.cfgDecode s, r)
  | 5 => some fun bits => (readCode bits).map fun (g, r) => (.lsbSize g, r)
  | 6 => some fun bits => (readCode bits).map fun (d, r) => (.convInterval d, r)
  | 7 => some fun bits => (readSeq bits).bind fun (s, b) => (readWord64 b).map fun (x, r) => (.tcDecode s x, r)
  | 8 => some fun bits => (readCfg bits).bind fun (c, b) => (readSeq b).map fun (s, r) => (.interpret c s, r)
  | 9 => some fun bits => (readMode bits).bind fun (m, b) => (readNat 2 b).map fun (p, r) =>
      (.chInit m (BitVec.ofNat 2 p), r)
  | 10 => some fun bits => (readSeq bits).map fun (s, r) => (.chExchange s, r)
  | 11 => some fun bits => (readCfg bits).bind fun (c, b) => (readSeq b).map fun (s, r) => (.chVerify c s, r)
  | 12 => some fun bits => (readCode bits).map fun (d, r) => (.chAwait d, r)
  | 13 => some fun bits => (readList bits).map fun (cs, r) => (.chReadBatch cs, r)
  | 14 => some fun bits => (readWord64 bits).map fun (x, r) => (.tkT2mv x, r)
  | 15 => some fun bits => (readWord64 bits).map fun (x, r) => (.tkMv2t x, r)
  | 16 => some fun bits => (readWord64 bits).map fun (x, r) => (.cjMv x, r)
  | 17 => some fun bits => (readWord64 bits).bind fun (x, b) => (readWord64 b).map fun (y, r) => (.cjLinearize x y, r)
  | 18 => some fun bits => (readWord64 bits).bind fun (x, b) => (readWord64 b).map fun (y, r) => (.tkGetTemp x y, r)
  | _ => none

/-- Decode a request: OP first, then the operand fields of its row; the operation and the bits after its record
(30_encoding.md R90, R94). The operand checks of R92 are `Instr.wellFormed`. -/
def decode (bits : BitSeq) : Except DecodeError (Instr × BitSeq) :=
  match readNat 5 bits with
  | none => .error .truncated
  | some (op, operands) =>
    match operandReader op with
    | none => .error .illegalOperation
    | some reader =>
      match reader operands with
      | none => .error .truncated
      | some r => .ok r

/-! ### The encoder -/

/-- The operation code of 30_encoding.md R91. -/
def Instr.opcode : Instr → Nat
  | .intToBits _ _ => 0x01
  | .bitsToInt _ => 0x02
  | .cfgEncode _ => 0x03
  | .cfgDecode _ => 0x04
  | .lsbSize _ => 0x05
  | .convInterval _ => 0x06
  | .tcDecode _ _ => 0x07
  | .interpret _ _ => 0x08
  | .chInit _ _ => 0x09
  | .chExchange _ => 0x0A
  | .chVerify _ _ => 0x0B
  | .chAwait _ => 0x0C
  | .chReadBatch _ => 0x0D
  | .tkT2mv _ => 0x0E
  | .tkMv2t _ => 0x0F
  | .cjMv _ => 0x10
  | .cjLinearize _ _ => 0x11
  | .tkGetTemp _ _ => 0x12

/-- SEQ: LEN, then the sequence left-aligned in the payload (30_encoding.md R92); the payload bits past it, which R92
ignores, are those of `fill`. -/
def seqField (fill s : BitSeq) : BitSeq := toBits 6 s.length ++ (s ++ fill).take 32

/-- CFG, 14 bits (30_encoding.md R92). -/
def cfgField (c : AdcConfig) : BitSeq :=
  flagBits c.singleShot ++ codeBits c.multiplex ++ codeBits c.gain ++ flagBits c.singleShotMode ++ codeBits c.dataRate ++
    flagBits c.tempSensor ++ flagBits c.pullup ++ flagBits c.operation

/-- A field of `n` bits (30_encoding.md R92). -/
def wordField {n : Nat} (x : BitVec n) : BitSeq := toBits n x.toNat

/-- LIST: COUNT, then the CFG fields (30_encoding.md R92). -/
def listField (cs : List AdcConfig) : BitSeq := toBits 5 cs.length ++ cs.flatMap cfgField

/-- MODE, 1 bit (30_encoding.md R92). -/
def modeField : WaitMode → BitSeq
  | .timed => [false]
  | .polled => [true]

/-- The operand fields, in the order of 30_encoding.md R91; `fill` is what a SEQ field holds past its sequence. -/
def Instr.operandFields (fill : BitSeq) : Instr → BitSeq
  | .intToBits v w => wordField v ++ wordField w
  | .bitsToInt s => seqField fill s
  | .cfgEncode c => cfgField c
  | .cfgDecode s => seqField fill s
  | .lsbSize g => wordField g
  | .convInterval d => wordField d
  | .tcDecode s x => seqField fill s ++ wordField x
  | .interpret c d => cfgField c ++ seqField fill d
  | .chInit m p => modeField m ++ wordField p
  | .chExchange c => seqField fill c
  | .chVerify c e => cfgField c ++ seqField fill e
  | .chAwait d => wordField d
  | .chReadBatch cs => listField cs
  | .tkT2mv x => wordField x
  | .tkMv2t x => wordField x
  | .cjMv x => wordField x
  | .cjLinearize x y => wordField x ++ wordField y
  | .tkGetTemp x y => wordField x ++ wordField y

/-- A request record of an operation (30_encoding.md R90), `fill` in the payload bits R92 ignores. -/
def encodeWith (fill : BitSeq) (i : Instr) : BitSeq := toBits 5 i.opcode ++ i.operandFields fill

/-- The request record of an operation (30_encoding.md R90); the payload bits R92 ignores are 0 (log entry 17). -/
def encode (i : Instr) : BitSeq := encodeWith (List.replicate 32 false) i

/-! ### Requests numbered as the opcode table numbers them -/

/-- The operand fields' widths for code `op` (30_encoding.md R91, R92); `count` is a LIST's COUNT. -/
def fieldWidths (op count : Nat) : List Nat :=
  match op with
  | 1 => [64, 6]
  | 2 => [6, 32]
  | 3 => [14]
  | 4 => [6, 32]
  | 5 => [3]
  | 6 => [3]
  | 7 => [6, 32, 64]
  | 8 => [14, 6, 32]
  | 9 => [1, 2]
  | 10 => [6, 32]
  | 11 => [14, 6, 32]
  | 12 => [3]
  | 13 => 5 :: List.replicate count 14
  | 14 => [64]
  | 15 => [64]
  | 16 => [64]
  | 17 => [64, 64]
  | 18 => [64, 64]
  | _ => []

/-- Fields of the given widths, the first in the low bits of `w` and each later one counting on from it. -/
def fieldsFromLow : List Nat → Nat → BitSeq
  | [], _ => []
  | n :: ns, w => toBits n w ++ fieldsFromLow ns (w >>> n)

/-- The request record whose bits are `w`, numbered as spec/opcode_table.json numbers them: OP in bits 4..0, each later
field counting on, every bit from `nbits` up 0 (log entry 16). -/
def tableRequest (nbits w : Nat) : BitSeq :=
  let v := w % 2 ^ nbits
  toBits 5 v ++ fieldsFromLow (fieldWidths (v % 32) ((v >>> 5) % 32)) (v >>> 5)

/-- The operation the decoder reads from an opcode-table word. -/
def decodeTableWord (nbits w : Nat) : Option Instr :=
  match decode (tableRequest nbits w) with
  | .ok (i, _) => some i
  | .error _ => none

end Sys2Proof
end

