-- ==== Sys2Proof/Machine/ConfigWordForm.lean ====
section
/-! DEFINITION. The 16-bit configuration word (30_encoding.md R95, R96, R98): its assembly, its extraction and the mask of
the bits a verify compares. -/

namespace Sys2Proof.Machine

/-- CFG_ENCODE's sequence `<W[15], ..., W[0]>` (41_configword.md R131; layout 30_encoding.md R95): bit 2 is 0, bit 0 is 1. -/
def configBits (c : AdcConfig) : BitSeq :=
  flagBits c.singleShot ++ codeBits c.multiplex ++ codeBits c.gain ++ flagBits c.singleShotMode ++ codeBits c.dataRate ++
    flagBits c.tempSensor ++ flagBits c.pullup ++ [false] ++ flagBits c.operation ++ [true]

/-- CFG_ENCODE as a word (41_configword.md R131). -/
def encodeConfig (c : AdcConfig) : Word16 := word16 (configBits c)

/-- CFG_DECODE (41_configword.md R132): bits 2 and 0 are not read (30_encoding.md R96). -/
def decodeConfig (w : Word16) : AdcConfig where
  singleShot := bitOf w 15
  multiplex := field3 w 12
  gain := field3 w 9
  singleShotMode := bitOf w 8
  dataRate := field3 w 5
  tempSensor := bitOf w 4
  pullup := bitOf w 3
  operation := bitOf w 1

/-- VERIFY_MASK (30_encoding.md R98). -/
def verifyMask : Word16 := 0x7FFA#16

/-- VERIFY(cmd, e) (43_adc_channel.md R167). -/
def verify (cmd : AdcConfig) (e : Word16) : Bool := (encodeConfig cmd ^^^ e) &&& verifyMask == 0#16

/-- The population count of a raw 16-bit echo (43_adc_channel.md R167). -/
def popcount16 (e : Word16) : Nat := popcount (seq16 e)

end Sys2Proof.Machine
end

