-- ==== Sys2Proof/Machine/Binary64.lean ====
section
/-! DEFINITION. Binary64 arithmetic, round to nearest, ties to even (00_scope.md R13, BINARY64_RNE). A finite value is a
whole number of units of 2^-1074; every operation computes its exact result in Nat or Int and rounds it once. -/

namespace Sys2Proof

/-- 2^1074, the number of units in 1. -/
def F64.one : Nat := 2 ^ 1074

/-- `num / den` rounded to the nearest whole number, ties to even. -/
def roundHalfEven (num den : Nat) : Nat :=
  let q := num / den
  let r := num % den
  if 2 * r < den then q else if den < 2 * r then q + 1 else q + q % 2

/-- The binary64 value nearest to `num / den` units, with sign `neg`: ties to even, gradual underflow, and an infinity
above the largest finite value. -/
@[irreducible] def F64.round (neg : Bool) (num den : Nat) : F64 :=
  let e := Nat.log2 (num / den) - 52
  let m := roundHalfEven num (den * 2 ^ e)
  if m = 2 ^ 53 then (if e + 1 ≤ 2045 then .fin neg (2 ^ 52) (e + 1) else .inf neg)
  else if e ≤ 2045 then .fin neg m e else .inf neg

/-- The magnitude in units of 2^-1074. -/
def F64.units (mant exp : Nat) : Nat := mant * 2 ^ exp

/-- A sign and a magnitude as an integer. -/
def signed (neg : Bool) (k : Nat) : Int := if neg then -(k : Int) else k

/-- The binary64 value nearest to `num / den`. -/
def F64.ofRat (num : Int) (den : Nat) : F64 := .round (decide (num < 0)) (F64.one * num.natAbs) den

/-- The value of a 64-bit pattern (30_encoding.md R92, REAL). -/
def F64.ofBits (b : BitVec 64) : F64 :=
  let neg := b.toNat.testBit 63
  let ex := b.toNat / 2 ^ 52 % 2048
  let frac := b.toNat % 2 ^ 52
  if ex = 2047 then (if frac = 0 then .inf neg else .nan)
  else if ex = 0 then .fin neg frac 0
  else .fin neg (2 ^ 52 + frac) (ex - 1)

/-- The 64-bit pattern of a value; a NaN has the given sign and payload below its quiet bit (log entry 11). -/
def F64.toBits (nanSign : Bool) (nanPayload : BitVec 51) : F64 → BitVec 64
  | .nan => BitVec.ofNat 64 (nanSign.toNat * 2 ^ 63 + 4095 * 2 ^ 51 + nanPayload.toNat)
  | .inf neg => BitVec.ofNat 64 (neg.toNat * 2 ^ 63 + 2047 * 2 ^ 52)
  | .fin neg m e => BitVec.ofNat 64 (neg.toNat * 2 ^ 63 + (if m < 2 ^ 52 then m else (e + 1) * 2 ^ 52 + (m - 2 ^ 52)))

/-- The value is one binary64 has: at most 53 bits, normalised, not above the largest exponent. -/
def F64.wf : F64 → Bool
  | .nan => true
  | .inf _ => true
  | .fin _ m e => decide (m < 2 ^ 53 ∧ e ≤ 2045 ∧ (e = 0 ∨ 2 ^ 52 ≤ m))

/-- The value is finite. -/
def F64.isFinite : F64 → Bool
  | .fin _ _ _ => true
  | _ => false

/-- The real number a finite value is; 0 for the others. -/
def F64.toRat : F64 → ℚ
  | .fin neg m e => (signed neg (F64.units m e) : ℚ) / 2 ^ 1074
  | _ => 0

/-- Negation flips the sign. -/
def F64.neg : F64 → F64
  | .nan => .nan
  | .inf s => .inf (!s)
  | .fin s m e => .fin (!s) m e

/-- Addition; an exact zero sum is +0 unless both operands are negative zeros. -/
def F64.add : F64 → F64 → F64
  | .nan, _ => .nan
  | _, .nan => .nan
  | .inf s, .inf t => if s = t then .inf s else .nan
  | .inf s, .fin _ _ _ => .inf s
  | .fin _ _ _, .inf t => .inf t
  | .fin s m e, .fin t n f =>
    let k := signed s (F64.units m e) + signed t (F64.units n f)
    if k = 0 then .fin (s && t) 0 0 else .round (decide (k < 0)) k.natAbs 1

/-- Subtraction. -/
def F64.sub (x y : F64) : F64 := x.add y.neg

/-- Multiplication. -/
def F64.mul : F64 → F64 → F64
  | .nan, _ => .nan
  | _, .nan => .nan
  | .inf s, .inf t => .inf (s != t)
  | .inf s, .fin t n _ => if n = 0 then .nan else .inf (s != t)
  | .fin s m _, .inf t => if m = 0 then .nan else .inf (s != t)
  | .fin s m e, .fin t n f => .round (s != t) (F64.units m e * F64.units n f) F64.one

/-- Division. -/
def F64.div : F64 → F64 → F64
  | .nan, _ => .nan
  | _, .nan => .nan
  | .inf _, .inf _ => .nan
  | .inf s, .fin t _ _ => .inf (s != t)
  | .fin s _ _, .inf t => .fin (s != t) 0 0
  | .fin s m e, .fin t n f =>
    if n = 0 then (if m = 0 then .nan else .inf (s != t))
    else .round (s != t) (F64.one * F64.units m e) (F64.units n f)

/-- A number that orders the values other than NaN. -/
def F64.key : F64 → Int
  | .nan => 0
  | .inf s => signed s (2 ^ 2099)
  | .fin s m e => signed s (F64.units m e)

/-- The value is a NaN. -/
def F64.isNan : F64 → Bool
  | .nan => true
  | _ => false

/-- `x < y`, exact; false where either is a NaN. -/
def F64.lt (x y : F64) : Bool := !x.isNan && !y.isNan && decide (x.key < y.key)

/-- `x <= y`, exact; false where either is a NaN. -/
def F64.le (x y : F64) : Bool := !x.isNan && !y.isNan && decide (x.key ≤ y.key)

/-! ### The exponential (EXP, 00_scope.md R14): the correctly rounded binary64 exponential

A bracket of e^|x| in fixed point with 320 fractional bits; one end of it (of its reciprocal, for a negative argument) is
rounded. The bracket is so narrow that no rounding boundary of binary64 lies in it for any binary64 argument (log entry
10), so either end rounds to the correctly rounded result. -/

/-- The number of fractional bits. -/
def expBits : Nat := 320

/-- The partial sum of `sum f^i / i!` in fixed point: `n` more terms, the last one `term`, the next index `i`. -/
def expSeries (f : Nat) : Nat → Nat → Nat → Nat → Nat
  | 0, _, _, acc => acc
  | n + 1, i, term, acc =>
    let next := term * f / 2 ^ expBits / i
    expSeries f n (i + 1) next (acc + next)

/-- A bracket of `e^f` for a fixed-point `f` in [0, 1]: the sum of 80 terms, and the same with room for its truncations. -/
def expUnit (f : Nat) : Nat × Nat :=
  let s := expSeries f 80 1 (2 ^ expBits) (2 ^ expBits)
  (s, s + 512)

/-- The product of two brackets in fixed point, rounded outwards. -/
def mulBracket (a b : Nat × Nat) : Nat × Nat := (a.1 * b.1 / 2 ^ expBits, a.2 * b.2 / 2 ^ expBits + 1)

/-- `base^q` times `acc`, by squaring; `fuel` bounds the bits of `q`. -/
def powBracket : Nat → Nat → Nat × Nat → Nat × Nat → Nat × Nat
  | 0, _, _, acc => acc
  | fuel + 1, q, base, acc =>
    powBracket fuel (q / 2) (mulBracket base base) (if q % 2 = 1 then mulBracket acc base else acc)

/-- A bracket of `e^(k units)`, for `k` below 1024 * 2^1074. -/
def expBracket (k : Nat) : Nat × Nat :=
  let frac := expUnit (2 ^ expBits * (k % F64.one) / F64.one)
  powBracket 10 (k / F64.one) (expUnit (2 ^ expBits)) frac

/-- EXP (00_scope.md R14). -/
def F64.exp : F64 → F64
  | .nan => .nan
  | .inf neg => if neg then .fin false 0 0 else .inf false
  | .fin neg m e =>
    let k := F64.units m e
    if k = 0 then .round false F64.one 1
    else if 800 * F64.one < k then (if neg then .fin false 0 0 else .inf false)
    else
      let b := expBracket k
      if neg then .round false (F64.one * 2 ^ expBits) b.2 else .round false (F64.one * b.1) (2 ^ expBits)

end Sys2Proof
end

