-- ==== Sys2Proof/Machine/Num.lean ====
section
/-! DEFINITION. The numeric datapath NUM (00_scope.md R13): the operations the spec's real-valued pseudocode uses, and the
reference instance BINARY64_RNE. The instance EXACT stands in Machine/ExactReal.lean as the machine's data, and in
Machine/Exact.lean on the real numbers. -/

namespace Sys2Proof

/-- A numeric datapath: literals, `+ - * /`, comparisons and EXP (00_scope.md R13, R14). -/
structure Num (α : Type) where
  /-- The value of the rational `num / den`, rounded once where the datapath rounds. -/
  rat : Int → Nat → α
  neg : α → α
  add : α → α → α
  sub : α → α → α
  mul : α → α → α
  div : α → α → α
  lt : α → α → Bool
  le : α → α → Bool
  exp : α → α

variable {α : Type}

/-- The value of an integer constant. -/
def Num.int (N : Num α) (k : Int) : α := N.rat k 1

/-- The value of a decimal literal. -/
def Num.dec (N : Num α) (d : Dec) : α := N.rat d.mant (10 ^ d.scale)

/-- BINARY64_RNE, the reference datapath (00_scope.md R13). -/
def Num.binary64 : Num F64 where
  rat := F64.ofRat
  neg := F64.neg
  add := F64.add
  sub := F64.sub
  mul := F64.mul
  div := F64.div
  lt := F64.lt
  le := F64.le
  exp := F64.exp

end Sys2Proof
end

