-- ==== Sys2Proof/Machine/ExactReal.lean ====
section
/-! DEFINITION. The datapath EXACT as the machine runs it (00_scope.md R13): the real numbers of `Exact`, rationals computed
out, and their order, which rational enclosures tell where they can. What number an `Exact` is, and the datapath on the reals it is held to, stand
in Machine/Exact.lean. -/

namespace Sys2Proof

/-! ### Arithmetic: exact, rationals computed out -/

/-- The sum. -/
def Exact.plus : Exact → Exact → Exact
  | .rat p, .rat q => .rat (p + q)
  | x, y => .add x y

/-- The product. -/
def Exact.times : Exact → Exact → Exact
  | .rat p, .rat q => .rat (p * q)
  | x, y => .mul x y

/-- The quotient. -/
def Exact.quot : Exact → Exact → Exact
  | .rat p, .rat q => .rat (p / q)
  | x, y => .div x y

/-- The number with the opposite sign. -/
def Exact.negate (x : Exact) : Exact := Exact.times (.rat (-1)) x

/-- The difference. -/
def Exact.minus (x y : Exact) : Exact := x.plus y.negate

/-- The exponential; that of 0 is 1. -/
def Exact.expOf (x : Exact) : Exact := if x = .rat 0 then .rat 1 else .exp x

/-- What an operand stands for (30_encoding.md R92). -/
def RealOperand.value : RealOperand → Exact
  | .rat q => .rat q
  | .free n => .free n

/-! ### Order

The bounds of an exponential: `1 + y <= exp y <= 1 / (1 - y)` for small `y = x / 2^k`, squared `k` times, rounded outwards. -/

/-- The nearest multiple of 2^-p not above `q`. -/
def roundDown (p : Nat) (q : ℚ) : ℚ := (⌊q * ((2 ^ p : Nat) : ℚ)⌋ : ℚ) / ((2 ^ p : Nat) : ℚ)

/-- The nearest multiple of 2^-p not below `q`. -/
def roundUp (p : Nat) (q : ℚ) : ℚ := (⌈q * ((2 ^ p : Nat) : ℚ)⌉ : ℚ) / ((2 ^ p : Nat) : ℚ)

/-- `q` squared `k` times, rounded after each. -/
def squareTimes (round : ℚ → ℚ) : Nat → ℚ → ℚ
  | 0, q => q
  | k + 1, q => squareTimes round k (round (q * q))

/-- How many halvings bring `x` below 2^-(n+1). -/
def halvings (n : Nat) (x : ℚ) : Nat := n + Nat.log2 ⌈|x|⌉.toNat + 2

/-- A lower bound of `exp x`, the closer the larger `n`. -/
def expBelow (n : Nat) (x : ℚ) : ℚ :=
  let k := halvings n x
  squareTimes (roundDown (2 * k + n)) k (1 + x / ((2 ^ k : Nat) : ℚ))

/-- An upper bound of `exp x`, the closer the larger `n`. -/
def expAbove (n : Nat) (x : ℚ) : ℚ :=
  let k := halvings n x
  squareTimes (roundUp (2 * k + n)) k (1 / (1 - x / ((2 ^ k : Nat) : ℚ)))

/-- Bounds of a product, from bounds of its factors. -/
def mulEnclosure (a b : ℚ × ℚ) : ℚ × ℚ :=
  (min (min (a.1 * b.1) (a.1 * b.2)) (min (a.2 * b.1) (a.2 * b.2)),
   max (max (a.1 * b.1) (a.1 * b.2)) (max (a.2 * b.1) (a.2 * b.2)))

/-- Bounds of a quotient; none where the divisor's bounds do not exclude 0. -/
def divEnclosure (a b : ℚ × ℚ) : Option (ℚ × ℚ) :=
  if 0 < b.1 ∨ b.2 < 0 then some (mulEnclosure a (1 / b.2, 1 / b.1)) else none

/-- Rational bounds of a real of EXACT, the closer the larger `n`; none for a free name. -/
def Exact.enclose (n : Nat) : Exact → Option (ℚ × ℚ)
  | .rat q => some (q, q)
  | .free _ => none
  | .add x y => (x.enclose n).bind fun a => (y.enclose n).map fun b => (a.1 + b.1, a.2 + b.2)
  | .mul x y => (x.enclose n).bind fun a => (y.enclose n).map fun b => mulEnclosure a b
  | .div x y => (x.enclose n).bind fun a => (y.enclose n).bind fun b => divEnclosure a b
  | .exp x => (x.enclose n).map fun a => (expBelow n a.1, expAbove n a.2)

/-- Whether `x < y`, as far as their bounds at `n` tell. -/
def Exact.orderAt (n : Nat) (x y : Exact) : Option Bool :=
  (x.enclose n).bind fun a => (y.enclose n).bind fun b =>
    if a.2 < b.1 then some true else if b.2 ≤ a.1 then some false else none

/-- Whether `x < y`, from bounds that get closer; none where the closest do not tell. -/
def Exact.order? (x y : Exact) : Option Bool := [64, 256, 1024].findSome? fun n => Exact.orderAt n x y

/-- `x < y`, exact (00_scope.md R13): between rationals their order; else what the bounds tell, and where they do not tell, what
`Config.realLine` answers, which is the order of the reals on every pair the block may ask for (log entry 30). -/
def Exact.less (x y : Exact) : Bool :=
  match x, y with
  | .rat p, .rat q => decide (p < q)
  | x, y => if x = y then false else (Exact.order? x y).getD (Config.realLine.less x y)

/-- EXACT, as the machine runs it (00_scope.md R13, R14). -/
def Num.exactData : Num Exact where
  rat := fun n d => .rat ((n : ℚ) / (d : ℚ))
  neg := Exact.negate
  add := Exact.plus
  sub := Exact.minus
  mul := Exact.times
  div := Exact.quot
  lt := Exact.less
  le := fun x y => !Exact.less y x
  exp := Exact.expOf

/-- A value of NUM that takes no operand (00_scope.md R13). -/
def NumKind.eval (k : NumKind) (f : {α : Type} → Num α → α) : Value :=
  match k with
  | .binary64 => .b64 (f Num.binary64)
  | .exact => .exact (f Num.exactData)

/-- The value of `num / den` in NUM (00_scope.md R13): rounded once under BINARY64_RNE, itself under EXACT. -/
def NumKind.ratio (k : NumKind) (num : Int) (den : Nat) : Value :=
  match k with
  | .binary64 => .b64 (F64.ofRat num den)
  | .exact => .exact (.rat ((num : ℚ) / (den : ℚ)))

end Sys2Proof
end

