-- ==== Sys2Proof/Machine/State.lean ====
section
/-! DEFINITION. Every piece of state the spec gives the block (10_state.md), the data its ports carry, and the state right
after reset. -/

namespace Sys2Proof.Machine

/-- CHAN_STATE (10_state.md R35). -/
inductive ChanState where
  | uninit
  | idle
  | exch
  deriving DecidableEq, Repr

/-- PULL, the pull setting of DIN (10_state.md R32). -/
inductive Pull where
  | none
  | up
  | down
  deriving DecidableEq, Repr

/-- The output pins (10_state.md R31). -/
inductive Pin where
  | sclk
  | dout
  | csN
  deriving DecidableEq, Repr

/-- RawExchange (10_state.md R43), each sequence as the word it corresponds to (00_scope.md R11). -/
structure RawExchange where
  echo : Word16
  data : Word16
  deriving DecidableEq, Repr

/-- The kind of a Measurement (10_state.md R44). -/
inductive MeasKind where
  | voltage
  | temperature
  deriving DecidableEq, Repr

/-- Measurement (10_state.md R44): volts, or degrees Celsius. -/
structure Measurement where
  kind : MeasKind
  value : Value
  deriving DecidableEq, Repr

/-- The five fault kinds the block reports to the host (60_exceptions.md R240). Each is a RESPONSE: the machine goes on. -/
inductive HostFault where
  /-- Carries the population count of the raw echo (R241). -/
  | connectionFault (popcount : Nat)
  | outOfRange
  | malformedInput
  | illegalOperation
  | notInitialized
  deriving DecidableEq, Repr

/-- The result fields of a success response (30_encoding.md R91, R92). -/
inductive Payload where
  | nothing
  | seq (s : BitSeq)
  | u (v : BitVec 64)
  | cfg (c : AdcConfig)
  | real (x : Value)
  | meas (m : Measurement)
  | raw (r : RawExchange)
  | measList (ms : List Measurement)
  deriving DecidableEq, Repr

/-- A response (30_encoding.md R93, 60_exceptions.md R246). -/
inductive Response where
  | ok (result : Payload)
  | fault (f : HostFault)
  deriving DecidableEq, Repr

/-- One event of the block (20_memory.md R80, 00_scope.md R16). -/
inductive Event where
  | pinWrite (p : Pin) (level : Bool)
  | pinSample (level : Bool)
  | sleep (seconds : Value)
  | sleepDone
  | respond (r : Response)
  deriving DecidableEq, Repr

/-- Which operation's POLLED wait is running, and what the operation has still to do (43_adc_channel.md R170, R177, R180). -/
inductive Polling where
  | init
  | await
  /-- The wait of command `k` of a batch; `rest` are the commands after it. -/
  | batch (k : Nat) (rest : List AdcConfig)
  deriving DecidableEq, Repr

/-- The sequencer position (10_state.md R30): between operations, or inside a POLLED wait whose last sample read 1
(43_adc_channel.md R176; log entry 1). -/
inductive Sequencer where
  | ready
  | polling (p : Polling)
  deriving DecidableEq, Repr

/-- Reasons the machine itself stops. The spec gives none: every fault of 60_exceptions.md R240 is a response, after which
the block is ready for the next request (R246 (e)); a POLLED wait that never ends is an endless run (R279). So no
constructor, and nothing raises one: safe. -/
inductive Fault
  deriving DecidableEq, Repr

/-- Reasons the model has no step. -/
inductive Refusal where
  /-- Raised by an arm of `exec` whose instruction has no meaning yet. Safe: nothing is claimed of it. -/
  | notModelled (mnemonic : String)
  /-- Raised by `step` for an outstanding request that ends before its record does: 30_encoding.md R90 admits no such
  request, so the spec gives it no effect (log entry 15). Safe: nothing is claimed of it. -/
  | truncatedRequest
  deriving DecidableEq, Repr

/-- The state of the block (10_state.md), its ports, and the model's own record of its environment. -/
structure State where
  /-- CHAN_STATE (R35). -/
  chan : ChanState
  /-- WAIT_MODE (R36). -/
  waitMode : WaitMode
  /-- PULL (R32). -/
  pull : Pull
  /-- SCLK_Q (R37). -/
  sclk : Bool
  /-- DOUT_Q (R37). -/
  dout : Bool
  /-- CS_N_Q (R37); `none` where the block has no CS_N, that is HAS_CS = false (log entry 4). -/
  csN : Option Bool
  /-- TX (R38). -/
  tx : Word16
  /-- RX (R39); RX_k is bit 31-k. -/
  rx : BitVec 32
  /-- SLOT (R39). -/
  slot : Nat
  /-- BCMD (R40). -/
  bcmd : Vector AdcConfig 16
  /-- BRAW (R40). -/
  braw : Vector RawExchange 17
  /-- BRES (R40). -/
  bres : Vector Measurement 16
  /-- BN (R40). -/
  bn : Nat
  /-- The request outstanding on the host port (R34), as the bits of its record (30_encoding.md R90). -/
  hostReq : Option BitSeq
  /-- The response on the host port to the last request (R34); `none` until it is answered. -/
  hostResp : Option Response
  /-- The sequencer position (R30, R39). -/
  seq : Sequencer
  /-- POLL_CS, a parameter no step writes (00_scope.md R9; log entry 5). -/
  pollCs : PollCs
  /-- BATCH_ABORT, a parameter no step writes (43_adc_channel.md R180; log entry 5). -/
  batchAbort : BatchAbort
  /-- NUM, a parameter no step writes (00_scope.md R13; log entry 19). -/
  num : NumKind
  /-- The model's own: levels the environment has fixed for the next samples of DIN, next first (log entry 3). -/
  din : List Bool
  /-- The model's own: how many samples of DIN have been taken (log entry 3). -/
  drawn : Nat
  /-- The model's own: the real numbers that patterns of REAL operands stand for under NUM = EXACT, the first entry of a
  pattern counting; a pattern with none stands for the exact value of its binary64 (log entry 29). -/
  reals : List (BitVec 64 × RealOperand)
  /-- The model's own: the events so far, oldest first (20_memory.md R80, 60_exceptions.md R258; log entry 9). -/
  trace : List Event
  deriving DecidableEq, Repr

/-- The AdcConfig with every field 0, a batch buffer's content at reset (log entry 8). -/
def zeroConfig : AdcConfig := ⟨false, 0, 0, false, 0, false, false, false⟩

/-- Hardware reset (10_state.md R47, 70_reset_and_hazards.md R270). -/
def State.reset : State where
  chan := .uninit
  waitMode := .timed          -- DESIGN CHOICE, log entry 6: the spec gives no value before CH_INIT
  pull := .none
  sclk := false
  dout := false
  csN := if Config.hasCs then some true else none
  tx := 0                     -- DESIGN CHOICE, log entry 7: no value in the spec
  rx := 0                     -- DESIGN CHOICE, log entry 7
  slot := 0                   -- DESIGN CHOICE, log entry 7
  bcmd := Vector.replicate 16 zeroConfig                       -- DESIGN CHOICE, log entry 8
  braw := Vector.replicate 17 ⟨0, 0⟩                           -- DESIGN CHOICE, log entry 8
  bres := Vector.replicate 16 ⟨.voltage, .b64 (.fin false 0 0)⟩ -- DESIGN CHOICE, log entry 8
  bn := 0                     -- DESIGN CHOICE, log entry 8
  hostReq := none
  hostResp := none
  seq := .ready
  pollCs := .deasserted
  batchAbort := .afterAll
  num := .binary64            -- the reference instance, log entry 19
  din := []                   -- DESIGN CHOICE, log entry 3
  drawn := 0                  -- DESIGN CHOICE, log entry 3
  reals := []                 -- DESIGN CHOICE, log entry 29
  trace := []                 -- DESIGN CHOICE, log entry 9

end Sys2Proof.Machine
end

