-- ==== Sys2Proof/Machine/Flags.lean ====
section
/-! DEFINITION. The codes of a response (30_encoding.md R92, R93): STATUS and INFO, the kind of a Measurement (the block's
only flag on a result, 10_state.md R44), and the response record as bits (R90). -/

namespace Sys2Proof.Machine

/-- STATUS of a fault (30_encoding.md R93, 60_exceptions.md R240). -/
def HostFault.status : HostFault → BitVec 3
  | .connectionFault _ => 1
  | .outOfRange => 2
  | .malformedInput => 3
  | .illegalOperation => 4
  | .notInitialized => 5

/-- INFO of a fault: the population count of a ConnectionFault, else 0 (30_encoding.md R93). -/
def HostFault.info : HostFault → BitVec 5
  | .connectionFault n => BitVec.ofNat 5 n
  | .outOfRange => 0
  | .malformedInput => 0
  | .illegalOperation => 0
  | .notInitialized => 0

/-- STATUS (30_encoding.md R93). -/
def Response.status : Response → BitVec 3
  | .ok _ => 0
  | .fault f => f.status

/-- INFO (30_encoding.md R93). -/
def Response.info : Response → BitVec 5
  | .ok _ => 0
  | .fault f => f.info

/-- The kind bit: 0 Voltage, 1 Temperature (10_state.md R44). -/
def MeasKind.bit : MeasKind → Bool
  | .voltage => false
  | .temperature => true

/-- The code of CHAN_STATE (10_state.md R35); 3 is never one. -/
def ChanState.code : ChanState → BitVec 2
  | .uninit => 0
  | .idle => 1
  | .exch => 2

/-- The code of WAIT_MODE (10_state.md R36). -/
def waitModeCode : WaitMode → BitVec 1
  | .timed => 0
  | .polled => 1

/-- The pull setting of a PULLC code (30_encoding.md R92); 11 never gets here (`pullOk`). -/
def pullOf (p : BitVec 2) : Pull := if p = 1#2 then .up else if p = 2#2 then .down else .none

/-- The PULLC code of a pull setting (30_encoding.md R92). -/
def Pull.code : Pull → BitVec 2
  | .none => 0
  | .up => 1
  | .down => 2

/-- REAL, 64 bits (30_encoding.md R92): a binary64's pattern, `n` the index of the free sign and payload of a NaN (log entry
11); for a real number of EXACT, which has no pattern, free bits (log entry 31). -/
def realField (n : Nat) : Value → BitSeq
  | .b64 x => toBits 64 (x.toBits (Config.nanSign n) (Config.nanPayload n)).toNat
  | .exact e => toBits 64 (Config.exactField e).toNat

/-- MEAS, 65 bits (30_encoding.md R92). -/
def measField (n : Nat) (m : Measurement) : BitSeq := m.kind.bit :: realField n m.value

/-- SEQ as a result: LEN, then the sequence left-aligned in 32 payload bits (30_encoding.md R92; log entry 17). -/
def resultSeqField (s : BitSeq) : BitSeq := toBits 6 s.length ++ (s ++ List.replicate 32 false).take 32

/-- CFG as a result, 14 bits (30_encoding.md R92). -/
def resultCfgField (c : AdcConfig) : BitSeq :=
  flagBits c.singleShot ++ codeBits c.multiplex ++ codeBits c.gain ++ flagBits c.singleShotMode ++ codeBits c.dataRate ++
    flagBits c.tempSensor ++ flagBits c.pullup ++ flagBits c.operation

/-- The result fields (30_encoding.md R91, R92). -/
def Payload.bits (n : Nat) : Payload → BitSeq
  | .nothing => []
  | .seq s => resultSeqField s
  | .u v => toBits 64 v.toNat
  | .cfg c => resultCfgField c
  | .real x => realField n x
  | .meas m => measField n m
  | .raw r => seq16 r.echo ++ seq16 r.data
  | .measList ms => toBits 5 ms.length ++ ms.flatMap (measField n)

/-- The response record: STATUS, INFO, and after a success the result fields (30_encoding.md R90, R93). -/
def Response.bits (n : Nat) (r : Response) : BitSeq :=
  toBits 3 r.status.toNat ++ toBits 5 r.info.toNat ++
    match r with
    | .ok p => p.bits n
    | .fault _ => []

end Sys2Proof.Machine
end

