-- ==== Sys2Proof/Machine/Rom.lean ====
section
/-! DEFINITION. The block's read-only stores (10_state.md R41), each at the value the spec gives or takes by default
(93_implementation_defined.md §2; log entry 13). A decimal is its literal; `Num.dec` is its value in a datapath. -/

namespace Sys2Proof.Machine

variable {α : Type}

/-- FSR[g], the full-scale range in volts (41_configword.md R136). -/
def fsr : List Dec := [⟨12288, 3⟩, ⟨8192, 3⟩, ⟨4096, 3⟩, ⟨2048, 3⟩, ⟨1024, 3⟩, ⟨512, 3⟩, ⟨512, 3⟩, ⟨512, 3⟩]

/-- LSB_TABLE[g] = FSR[g] / 65536 (41_configword.md R136). -/
def lsbTable (N : Num α) (g : BitVec 3) : α := N.div (N.dec (fsr.getD g.toNat ⟨512, 3⟩)) (N.int 65536)

/-- SPS[dr], the data rate in samples per second (41_configword.md R138). -/
def sps : List Int := [8, 16, 32, 64, 128, 250, 475, 860]

/-- CONV_INTERVAL[dr] = 1 / SPS[dr] seconds (41_configword.md R138). -/
def convIntervalTable (N : Num α) (dr : BitVec 3) : α := N.div (N.int 1) (N.int (sps.getD dr.toNat 860))

/-- TEMP_LSB = 0.03125 °C (42_twos_complement.md R154). -/
def tempLsb (N : Num α) : α := N.dec ⟨3125, 5⟩

/-- RESET_HOLD = 0.030 s (00_scope.md R9, 43_adc_channel.md R170). -/
def resetHold (N : Num α) : α := N.dec ⟨30, 3⟩

/-- RESET_MIN = 28 ms, the device's shortest clock-low reset; RESET_HOLD is above it (00_scope.md R9, 43_adc_channel.md R170). -/
def resetMin : Dec := ⟨28, 3⟩

/-- SETTLE_MIN, about 7 ms: the device's power-down settling time between batches. Nothing checks it (00_scope.md R9). -/
def settleMin : Dec := ⟨7, 3⟩

/-- DEFAULT_CONFIG (41_configword.md R140). -/
def defaultConfig : AdcConfig where
  singleShot := false
  multiplex := 0
  gain := 2
  singleShotMode := true
  dataRate := 4
  tempSensor := false
  pullup := true
  operation := true

/-- PROBE, the InternalTempProbe configuration (41_configword.md R141). -/
def probe : AdcConfig := { defaultConfig with singleShot := true, tempSensor := true, dataRate := 5 }

/-- PROBE_WORD (41_configword.md R141). -/
def probeWord : Word16 := encodeConfig probe

/-- TK_T[i] = -270 + 10 i, in °C (44_typek_table.md R200). -/
def tkTInt (i : Nat) : Int := -270 + 10 * (i : Int)

/-- TK_T[i]. -/
def tkT (N : Num α) (i : Nat) : α := N.int (tkTInt i)

/-- TK_V[0..32] in microvolts (44_typek_table.md R201). -/
def tkVPart0 : List Int := [
  -6458, -6441, -6404, -6344, -6262, -6158, -6035, -5891, -5730, -5550, -5354, -5141, -4913, -4669, -4411,
   -4138, -3852, -3554, -3243, -2920, -2587, -2243, -1889, -1527, -1156, -778, -392, 0, 397, 798, 1203, 1612,
   2023]

/-- TK_V[33..65] in microvolts (44_typek_table.md R201). -/
def tkVPart1 : List Int := [
  2436, 2851, 3267, 3682, 4096, 4509, 4920, 5328, 5735, 6138, 6540, 6941, 7340, 7739, 8138, 8539, 8940, 9343,
   9747, 10153, 10561, 10971, 11382, 11795, 12209, 12624, 13040, 13457, 13874, 14293, 14713, 15133, 15554]

/-- TK_V[66..98] in microvolts (44_typek_table.md R201). -/
def tkVPart2 : List Int := [
  15975, 16397, 16820, 17243, 17667, 18091, 18516, 18941, 19366, 19792, 20218, 20644, 21071, 21497, 21924,
   22350, 22776, 23203, 23629, 24055, 24480, 24905, 25330, 25755, 26179, 26602, 27025, 27447, 27869, 28289,
   28710, 29129, 29548]

/-- TK_V[99..131] in microvolts (44_typek_table.md R201). -/
def tkVPart3 : List Int := [
  29965, 30382, 30798, 31213, 31628, 32041, 32453, 32865, 33275, 33685, 34093, 34501, 34908, 35313, 35718,
   36121, 36524, 36925, 37326, 37725, 38124, 38522, 38918, 39314, 39708, 40101, 40494, 40885, 41276, 41665,
   42053, 42440, 42826]

/-- TK_V[132..164] in microvolts (44_typek_table.md R201). -/
def tkVPart4 : List Int := [
  43211, 43595, 43978, 44359, 44740, 45119, 45497, 45873, 46249, 46623, 46995, 47367, 47737, 48105, 48473,
   48838, 49202, 49565, 49926, 50286, 50644, 51000, 51355, 51708, 52060, 52410, 52759, 53106, 53451, 53795,
   54138, 54479, 54819]

/-- TK_V[0..164] in microvolts (44_typek_table.md R201). -/
def tkVMicro : List Int := tkVPart0 ++ tkVPart1 ++ tkVPart2 ++ tkVPart3 ++ tkVPart4

/-- TK_V[i], in millivolts: a literal with three decimals (44_typek_table.md R201). -/
def tkV (N : Num α) (i : Nat) : α := N.dec ⟨tkVMicro.getD i 0, 3⟩

/-- CJ_C[0..9], the forward polynomial (45_cold_junction.md R221). -/
def cjC : List Dec :=
  [⟨-176004136860, 13⟩, ⟨389212049750, 13⟩, ⟨185587700320, 16⟩, ⟨-994575928740, 19⟩, ⟨318409457190, 21⟩,
   ⟨-560728448890, 24⟩, ⟨560750590590, 27⟩, ⟨-320207200030, 30⟩, ⟨971511471520, 34⟩, ⟨-121047212750, 37⟩]

/-- CJ_A[0..2], the Gaussian (45_cold_junction.md R221). -/
def cjA0 : Dec := ⟨118597600000, 12⟩

/-- CJ_A[1]. -/
def cjA1 : Dec := ⟨-118343200000, 15⟩

/-- CJ_A[2]. -/
def cjA2 : Dec := ⟨126968600000, 9⟩

/-- INV_D[0], for E < 0 (45_cold_junction.md R223). -/
def invD0 : List Dec :=
  [⟨0, 0⟩, ⟨25173462, 6⟩, ⟨-11662878, 7⟩, ⟨-10833638, 7⟩, ⟨-89773540, 8⟩, ⟨-37342377, 8⟩, ⟨-86632643, 9⟩,
   ⟨-10450598, 9⟩, ⟨-51920577, 11⟩, ⟨0, 0⟩]

/-- INV_D[1], for 0 ≤ E < 20.644 (45_cold_junction.md R223). -/
def invD1 : List Dec :=
  [⟨0, 0⟩, ⟨2508355, 5⟩, ⟨7860106, 8⟩, ⟨-2503131, 7⟩, ⟨8315270, 8⟩, ⟨-1228034, 8⟩, ⟨9804036, 10⟩, ⟨-4413030, 11⟩,
   ⟨1057734, 12⟩, ⟨-1052755, 14⟩]

/-- INV_D[2], for 20.644 ≤ E < 54.886 (45_cold_junction.md R223). -/
def invD2 : List Dec :=
  [⟨-1318058, 4⟩, ⟨4830222, 5⟩, ⟨-1646031, 6⟩, ⟨5464731, 8⟩, ⟨-9650715, 10⟩, ⟨8802193, 12⟩, ⟨-3110810, 14⟩,
   ⟨0, 0⟩, ⟨0, 0⟩, ⟨0, 0⟩]

/-- INV_D[r] (45_cold_junction.md R223). -/
def invD : Nat → List Dec
  | 0 => invD0
  | 1 => invD1
  | _ => invD2

/-- INV_LIMIT[1] = 20.644 mV (45_cold_junction.md R223); INV_LIMIT[0] is 0. -/
def invLimit1 : Dec := ⟨20644, 3⟩

/-- INV_LIMIT[2] = 54.886 mV (45_cold_junction.md R223). -/
def invLimit2 : Dec := ⟨54886, 3⟩

end Sys2Proof.Machine
end

