-- ==== Sys2Proof/Machine/Ops.lean ====
section
/-! DEFINITION. The named operations over the block's registers and ports: pin events, Sleep, responses and faults, the
host port, EXCHANGE_SEQ (43_adc_channel.md R165) and WAIT (R176). -/

namespace Sys2Proof.Machine

/-- What a meaning answers. -/
abbrev Out := Host.Outcome State Fault Refusal

/-! ### Register writes -/

/-- CHAN_STATE <- c. -/
def State.setChan (c : ChanState) (s : State) : State := { s with chan := c }

/-- WAIT_MODE <- m and PULL <- p (43_adc_channel.md R170). -/
def State.setModePull (m : WaitMode) (p : Pull) (s : State) : State := { s with waitMode := m, pull := p }

/-- The sequencer stops in a POLLED wait (10_state.md R30; log entry 1). -/
def State.suspend (p : Polling) (s : State) : State := { s with seq := .polling p }

/-- BN <- n (43_adc_channel.md R180). -/
def State.setBn (n : Nat) (s : State) : State := { s with bn := n }

/-- BCMD[k] <- c (43_adc_channel.md R180). -/
def State.setBcmd (k : Nat) (c : AdcConfig) (s : State) : State := { s with bcmd := s.bcmd.setIfInBounds k c }

/-- BRAW[k] <- r (43_adc_channel.md R180). -/
def State.setBraw (k : Nat) (r : RawExchange) (s : State) : State := { s with braw := s.braw.setIfInBounds k r }

/-- BRES[k] <- m (43_adc_channel.md R180). -/
def State.setBres (k : Nat) (m : Measurement) (s : State) : State := { s with bres := s.bres.setIfInBounds k m }

/-- BCMD[k]. -/
def State.bcmdAt (s : State) (k : Nat) : AdcConfig := s.bcmd.toList.getD k zeroConfig

/-- BRAW[k]. -/
def State.brawAt (s : State) (k : Nat) : RawExchange := s.braw.toList.getD k ⟨0, 0⟩

/-- BRES[0..n-1]. -/
def State.bresUpTo (s : State) (n : Nat) : List Measurement := s.bres.toList.take n

/-! ### Port events -/

/-- One more event (20_memory.md R80). -/
def State.log (e : Event) (s : State) : State := { s with trace := s.trace ++ [e] }

/-- PinWrite(SCLK, b): one bus event, kept in the latch SCLK_Q (00_scope.md R16, 10_state.md R37). -/
def State.writeSclk (b : Bool) (s : State) : State := ({ s with sclk := b }).log (.pinWrite .sclk b)

/-- PinWrite(DOUT, b) (00_scope.md R16, 10_state.md R37). -/
def State.writeDout (b : Bool) (s : State) : State := ({ s with dout := b }).log (.pinWrite .dout b)

/-- HAS_CS (00_scope.md R9; log entry 4). -/
def State.hasCs (s : State) : Bool := s.csN.isSome

/-- `if HAS_CS: PinWrite(CS_N, b)` (00_scope.md R16, 10_state.md R37). -/
def State.writeCsN (b : Bool) (s : State) : State :=
  if s.hasCs then ({ s with csN := some b }).log (.pinWrite .csN b) else s

/-- The level of the sample after the next `k` ones: what the environment has fixed, else the free draw (00_scope.md R8;
log entry 3). -/
def State.upcoming (s : State) (k : Nat) : Bool := (s.din[k]?).getD (Config.dinDraw (s.drawn + k))

/-- PinSample(DIN) as an event (00_scope.md R16); its level is `s.upcoming 0`. -/
def State.takeSample (s : State) : State :=
  ({ s with din := s.din.tail, drawn := s.drawn + 1 }).log (.pinSample (s.upcoming 0))

/-- Sleep(d): its request and its completion (10_state.md R33; log entry 14). -/
def State.sleepFor (d : Value) (s : State) : State := (s.log (.sleep d)).log .sleepDone

/-! ### The numeric datapath (00_scope.md R13) -/

/-- The real number the pattern of a REAL operand stands for under EXACT (30_encoding.md R92; log entry 29). -/
def State.realOf (s : State) (x : BitVec 64) : Exact :=
  match s.reals.lookup x with
  | some r => r.value
  | none => .rat (F64.ofBits x).toRat

/-- A value computed in the datapath NUM from REAL operands (00_scope.md R13): `f` is given the datapath and what a REAL
operand's pattern stands for in it; none is OutOfRange (60_exceptions.md R245). -/
def State.compute? (s : State) (f : {α : Type} → Num α → (BitVec 64 → α) → Option α) : Option Value :=
  match s.num with
  | .binary64 => (f Num.binary64 F64.ofBits).map .b64
  | .exact => (f Num.exactData s.realOf).map .exact

/-- A value computed in the datapath NUM from REAL operands, where every operand has one. -/
def State.compute (s : State) (f : {α : Type} → Num α → (BitVec 64 → α) → α) : Value :=
  match s.num with
  | .binary64 => .b64 (f Num.binary64 F64.ofBits)
  | .exact => .exact (f Num.exactData s.realOf)

/-! ### Responses and the host port -/

/-- The one response to the outstanding request; the block is then ready for the next one (10_state.md R34,
60_exceptions.md R246 (e)). -/
def State.respond (r : Response) (s : State) : State :=
  ({ s with hostReq := none, hostResp := some r, seq := .ready }).log (.respond r)

/-- `respond(v)`: end the operation with a success response (00_scope.md R16). -/
def State.succeed (p : Payload) (s : State) : State := s.respond (.ok p)

/-- `raise f`: end the operation with a fault response. Nothing is saved, no mode changes, no vector is taken, and what the
operation has written stays (60_exceptions.md R246, R247). This is the block's whole exception entry; R251 says there is no
return from it. -/
def State.raise (f : HostFault) (s : State) : State := s.respond (.fault f)

/-- The host issues a request; it has no such move while one is outstanding (10_state.md R34). -/
def State.issue (bits : BitSeq) (s : State) : State :=
  match s.hostReq with
  | none => { s with hostReq := some bits, hostResp := none }
  | some _ => s

/-- Place a request as the outstanding one, whatever the host port and the sequencer held (log entry 2). -/
def State.placeRequest (bits : BitSeq) (s : State) : State :=
  { s with hostReq := some bits, hostResp := none, seq := .ready }

/-- The second check of 60_exceptions.md R249: an operation whose operands are malformed responds MalformedInput, before any
state is read or written (R242). -/
def checked (ok : Bool) (run : State → State) (s : State) : Out :=
  .next (if ok then run s else s.raise .malformedInput)

/-- The third check of 60_exceptions.md R249: the operation needs CHAN_STATE = IDLE (R244). -/
def State.whenIdle (run : State → State) (s : State) : State :=
  if s.chan = .idle then run s else s.raise .notInitialized

/-- The response to a request whose real result is `r`; `none` is OutOfRange (60_exceptions.md R245). -/
def State.answerReal (r : Option Value) (s : State) : State :=
  match r with
  | some x => s.succeed (.real x)
  | none => s.raise .outOfRange

/-! ### EXCHANGE_SEQ (43_adc_channel.md R165) -/

/-- RX_k <- b (10_state.md R39): RX_k is bit 31-k. -/
def setRx (rx : BitVec 32) (k : Nat) (b : Bool) : BitVec 32 :=
  (rx &&& ~~~(1#32 <<< (31 - k))) ||| (BitVec.ofNat 32 b.toNat <<< (31 - k))

/-- TX_j (10_state.md R38): the first bit sent is bit 15. -/
def txBit (tx : Word16) (j : Nat) : Bool := tx.getLsbD (15 - j)

/-- `RX_k <- PinSample(DIN)` (43_adc_channel.md R165). -/
def State.sampleRx (k : Nat) (s : State) : State :=
  { s.takeSample with rx := setRx s.rx k (s.upcoming 0) }

/-- Bit slot k (43_adc_channel.md R165): SCLK high, DOUT driven, DIN sampled, SCLK low, SLOT counted. -/
def State.bitSlot (k : Nat) (s : State) : State :=
  let s1 := (s.writeSclk true).writeDout (txBit s.tx (k % 16))
  { ((s1.sampleRx k).writeSclk false) with slot := k + 1 }

/-- `for k in 0..n-1` of the slots. -/
def State.bitSlots : Nat → State → State
  | 0, s => s
  | n + 1, s => (s.bitSlots n).bitSlot n

/-- `TX <- c; SLOT <- 0`. -/
def State.loadTx (c : Word16) (s : State) : State := { s with tx := c, slot := 0 }

/-- EXCHANGE_SEQ(c) (43_adc_channel.md R165). -/
def State.exchange (c : Word16) (s : State) : State :=
  (((s.loadTx c).writeCsN false).bitSlots 32).writeCsN true

/-- `{echo: RX[0..15], data: RX[16..31]}` (43_adc_channel.md R165, 10_state.md R43). -/
def State.rawExchange (s : State) : RawExchange := ⟨s.rx.extractLsb' 16 16, s.rx.extractLsb' 0 16⟩

/-! ### WAIT (43_adc_channel.md R176) -/

/-- One sample of the POLLED wait: the wait ends at the first sample that reads 0, and CS_N, if it was driven, is released.
True where the wait has ended. -/
def State.poll (s : State) : State × Bool :=
  if s.upcoming 0 then (s.takeSample, false)
  else ((if s.pollCs = .asserted then s.takeSample.writeCsN true else s.takeSample), true)

/-- WAIT(dr), up to its end or to the first sample if that reads 1 (log entry 1). True where the wait has ended. -/
def State.wait (dr : BitVec 3) (s : State) : State × Bool :=
  match s.waitMode with
  | .timed => (s.sleepFor (s.num.eval fun N => convIntervalTable N dr), true)
  | .polled => (if s.pollCs = .asserted then s.writeCsN false else s).poll

end Sys2Proof.Machine
end

