-- ==== Sys2Proof/Machine/TwosComplement.lean ====
section
/-! DEFINITION. The TwosComplementDecoder operations TC_DECODE and INTERPRET (42_twos_complement.md). -/

namespace Sys2Proof.Machine

variable {α : Type}

/-- TC_DECODE's function (42_twos_complement.md R150): the integer is exact, the product rounds where the datapath does. -/
def tcDecode (N : Num α) (s : BitSeq) (lsb : α) : α :=
  if s.headD false = false then N.mul lsb (N.int (uint s))
  else N.mul (N.neg lsb) (N.int (uint (invert s) + 1))

/-- INTERPRET's kind (42_twos_complement.md R153, 10_state.md R44). -/
def interpretKind (c : AdcConfig) : MeasKind := if c.tempSensor then .temperature else .voltage

/-- INTERPRET's value (42_twos_complement.md R153): the first 14 bits with TEMP_LSB, or all 16 with the gain's LSB. -/
def interpretValue (N : Num α) (c : AdcConfig) (d : BitSeq) : α :=
  if c.tempSensor then tcDecode N (d.take 14) (tempLsb N) else tcDecode N d (lsbTable N c.gain)

/-- INTERPRET in the datapath `k` (42_twos_complement.md R153). -/
def interpret (k : NumKind) (c : AdcConfig) (d : BitSeq) : Measurement :=
  ⟨interpretKind c, k.eval fun N => interpretValue N c d⟩

/-- TC_DECODE (42_twos_complement.md R150). -/
def execTcDecode (bits : BitSeq) (lsb : BitVec 64) (s : State) : Out :=
  checked (seqOk bits && realOk lsb) (fun s => s.succeed (.real (s.compute fun N real => tcDecode N bits (real lsb)))) s

/-- INTERPRET (42_twos_complement.md R153). -/
def execInterpret (c : AdcConfig) (d : BitSeq) (s : State) : Out :=
  checked (seq16Ok d) (fun s => s.succeed (.meas (interpret s.num c d))) s

end Sys2Proof.Machine
end

