-- ==== Sys2Proof/Machine/AdcChannel.lean ====
section
/-! DEFINITION. The AdcChannel operations CH_INIT, CH_EXCHANGE, CH_VERIFY, CH_AWAIT and CH_READ_BATCH (43_adc_channel.md),
and how an operation goes on from a POLLED wait. -/

namespace Sys2Proof.Machine

/-- `raise ConnectionFault(popcount(e))` (60_exceptions.md R241). -/
def State.raiseConnection (e : Word16) (s : State) : State := s.raise (.connectionFault (popcount16 e))

/-- `CHAN_STATE <- IDLE; respond()`: the end of CH_INIT, CH_AWAIT (43_adc_channel.md R170, R177). -/
def State.finishIdle (p : Payload) (s : State) : State := (s.setChan .idle).succeed p

/-- WAIT(dr), then `next`; an operation whose wait goes on stops at the position `p` (43_adc_channel.md R176). -/
def State.waitThen (dr : BitVec 3) (p : Polling) (next : State → State) (s : State) : State :=
  if (s.wait dr).2 then next (s.wait dr).1 else (s.wait dr).1.suspend p

/-! ### CH_INIT (R170) -/

/-- CH_INIT up to its flush exchange: idle bus, reset hold, flush (43_adc_channel.md R170). -/
def State.initFlush (m : WaitMode) (p : Pull) (s : State) : State :=
  (((((s.setChan .uninit).setModePull m p).writeCsN true).writeSclk false).sleepFor (s.num.eval fun N => resetHold N)).exchange
    probeWord

/-- CH_INIT after its flush exchange: verify the echo, wait once, go IDLE (43_adc_channel.md R170). -/
def State.initVerify (s : State) : State :=
  if verify probe s.rawExchange.echo then s.waitThen probe.dataRate .init (State.finishIdle .nothing)
  else s.raiseConnection s.rawExchange.echo

/-- CH_INIT (43_adc_channel.md R170). It runs in any channel state. -/
def execChInit (m : WaitMode) (p : BitVec 2) (s : State) : Out :=
  checked (pullOk p) (fun s => (s.initFlush m (pullOf p)).initVerify) s

/-! ### CH_EXCHANGE (R166), CH_VERIFY (R168), CH_AWAIT (R177) -/

/-- The body of CH_EXCHANGE (43_adc_channel.md R166): the word is sent as given, the echo is not verified. -/
def State.exchangeOnce (c : Word16) (s : State) : State :=
  let t := (s.setChan .exch).exchange c
  t.finishIdle (.raw t.rawExchange)

/-- CH_EXCHANGE (43_adc_channel.md R166). -/
def execChExchange (bits : BitSeq) (s : State) : Out :=
  checked (seq16Ok bits) (State.whenIdle (State.exchangeOnce (word16 bits))) s

/-- The body of CH_VERIFY (43_adc_channel.md R168). -/
def State.verifyEcho (cmd : AdcConfig) (e : Word16) (s : State) : State :=
  if verify cmd e then s.succeed .nothing else s.raiseConnection e

/-- CH_VERIFY (43_adc_channel.md R168): it runs in any channel state. -/
def execChVerify (cmd : AdcConfig) (echo : BitSeq) (s : State) : Out :=
  checked (seq16Ok echo) (State.verifyEcho cmd (word16 echo)) s

/-- The body of CH_AWAIT (43_adc_channel.md R177). -/
def State.awaitReady (dr : BitVec 3) (s : State) : State :=
  (s.setChan .exch).waitThen dr .await (State.finishIdle .nothing)

/-- CH_AWAIT (43_adc_channel.md R177). -/
def execChAwait (dr : BitVec 3) (s : State) : Out := checked true (State.whenIdle (State.awaitReady dr)) s

/-! ### CH_READ_BATCH (R180) -/

/-- A mismatch inside a batch: `CHAN_STATE <- IDLE; raise ConnectionFault(popcount(e))` (43_adc_channel.md R180). -/
def State.batchFault (e : Word16) (s : State) : State := (s.setChan .idle).raiseConnection e

/-- The second loop, from command `k`, `n` commands left: interpret each command with the data of the NEXT exchange and,
under AFTER_ALL, verify the echo of its OWN; then IDLE and the measurements (43_adc_channel.md R180). -/
def State.batchPair : Nat → Nat → State → State
  | _, 0, s => s.finishIdle (.measList (s.bresUpTo s.bn))
  | k, n + 1, s =>
    let t := s.setBres k (interpret s.num (s.bcmdAt k) (seq16 (s.brawAt (k + 1)).data))
    if s.batchAbort = .afterAll ∧ verify (s.bcmdAt k) (s.brawAt k).echo = false then t.batchFault (s.brawAt k).echo
    else t.batchPair (k + 1) n

/-- The flush, `BRAW[n] <- EXCHANGE_SEQ(PROBE_WORD)` with no wait after it, and the second loop (43_adc_channel.md R180). -/
def State.batchFlush (s : State) : State :=
  let t := s.exchange probeWord
  (t.setBraw s.bn t.rawExchange).batchPair 0 s.bn

/-- `BCMD[k] <- c; BRAW[k] <- EXCHANGE_SEQ(CFG_ENCODE(c))` (43_adc_channel.md R180). -/
def State.batchSend (k : Nat) (c : AdcConfig) (s : State) : State :=
  let t := (s.setBcmd k c).exchange (encodeConfig c)
  t.setBraw k t.rawExchange

/-- The first loop from command `k`: send each command and wait; under AT_FAULT verify its echo before the wait. After the
last, the flush (43_adc_channel.md R180). -/
def State.batchFrom : Nat → List AdcConfig → State → State
  | _, [], s => s.batchFlush
  | k, c :: rest, s =>
    let t := s.batchSend k c
    if s.batchAbort = .atFault ∧ verify c t.rawExchange.echo = false then t.batchFault t.rawExchange.echo
    else if (t.wait c.dataRate).2 then State.batchFrom (k + 1) rest (t.wait c.dataRate).1
    else (t.wait c.dataRate).1.suspend (.batch k rest)

/-- The body of CH_READ_BATCH (43_adc_channel.md R180): an empty list makes no event (decision D18). -/
def State.readBatch (cs : List AdcConfig) (s : State) : State :=
  let t := s.setBn cs.length
  match cs with
  | [] => t.succeed (.measList [])
  | c :: rest => State.batchFrom 0 (c :: rest) (t.setChan .exch)

/-- CH_READ_BATCH (43_adc_channel.md R180). -/
def execChReadBatch (cs : List AdcConfig) (s : State) : Out :=
  checked (listOk cs) (State.whenIdle (State.readBatch cs)) s

/-! ### Going on from a POLLED wait (R176) -/

/-- What the operation does once its wait has ended. -/
def State.afterWait : Polling → State → State
  | .init, s => s.finishIdle .nothing
  | .await, s => s.finishIdle .nothing
  | .batch k rest, s => s.batchFrom (k + 1) rest

/-- One more sample of a POLLED wait; where it reads 0 the operation goes on (43_adc_channel.md R176, 70_reset_and_hazards.md
R279). -/
def State.resume (p : Polling) (s : State) : State := if s.poll.2 then s.poll.1.afterWait p else s.poll.1

end Sys2Proof.Machine
end

