-- ==== Sys2Proof/Machine/BitCodec.lean ====
section
/-! DEFINITION. The BitCodec operations INT_TO_BITS and BITS_TO_INT (40_bitcodec.md). -/

namespace Sys2Proof.Machine

/-- `intToBits(v, w)`: the `w` bits of `v mod 2^w`, most significant first (40_bitcodec.md R120). -/
def intToBits (v w : Nat) : BitSeq := toBits w (v % 2 ^ w)

/-- `for j: r <- 2*r + s_j` (40_bitcodec.md R121). -/
def bitsToInt (s : BitSeq) : Nat := s.foldl (fun r b => 2 * r + b.toNat) 0

/-- INT_TO_BITS (40_bitcodec.md R120). -/
def execIntToBits (v : BitVec 64) (w : BitVec 6) (s : State) : Out :=
  checked (widOk w) (State.succeed (.seq (intToBits v.toNat w.toNat))) s

/-- BITS_TO_INT (40_bitcodec.md R121): the result zero-extended to 64 bits. -/
def execBitsToInt (bits : BitSeq) (s : State) : Out :=
  checked (seqOk bits) (State.succeed (.u (BitVec.ofNat 64 (bitsToInt bits)))) s

end Sys2Proof.Machine
end

