-- ==== Sys2Proof/Machine/TypeK.lean ====
section
/-! DEFINITION. The TypeKTable operations TK_T2MV and TK_MV2T (44_typek_table.md). -/

namespace Sys2Proof.Machine

variable {α : Type}

/-- BRACKET(A, x) (44_typek_table.md R202): how many of A[1..163] come before the first that is above x; the i in 0..163
with A[i] <= x < A[i+1], where A[0] <= x < A[164]. -/
def bracket (N : Num α) (A : Nat → α) (x : α) : Nat := ((List.range 163).takeWhile fun j => N.le (A (j + 1)) x).length

/-- `mv <- TK_V[i] + (dt * dv) / 10`, on bracket i (44_typek_table.md R205). -/
def t2mvOn (N : Num α) (i : Nat) (t : α) : α :=
  N.add (tkV N i) (N.div (N.mul (N.sub t (tkT N i)) (N.sub (tkV N (i + 1)) (tkV N i))) (N.int 10))

/-- T2MV (44_typek_table.md R205); `none` is OutOfRange. -/
def t2mv (N : Num α) (t : α) : Option α :=
  if N.le (N.int (-270)) t && N.lt t (N.int 1370) then some (t2mvOn N (bracket N (tkT N) t) t) else none

/-- `t <- TK_T[i] + (10 * dm) / dv`, on bracket i (44_typek_table.md R206). -/
def mv2tOn (N : Num α) (i : Nat) (mv : α) : α :=
  N.add (tkT N i) (N.div (N.mul (N.int 10) (N.sub mv (tkV N i))) (N.sub (tkV N (i + 1)) (tkV N i)))

/-- MV2T (44_typek_table.md R206); `none` is OutOfRange. -/
def mv2t (N : Num α) (mv : α) : Option α :=
  if N.le (N.dec ⟨-6458, 3⟩) mv && N.lt mv (N.dec ⟨54819, 3⟩) then some (mv2tOn N (bracket N (tkV N) mv) mv) else none

/-- TK_T2MV (44_typek_table.md R205). -/
def execTkT2mv (t : BitVec 64) (s : State) : Out :=
  checked (realOk t) (fun s => s.answerReal (s.compute? fun N real => t2mv N (real t))) s

/-- TK_MV2T (44_typek_table.md R206). -/
def execTkMv2t (mv : BitVec 64) (s : State) : Out :=
  checked (realOk mv) (fun s => s.answerReal (s.compute? fun N real => mv2t N (real mv))) s

end Sys2Proof.Machine
end

