-- ==== Sys2Proof/Machine/ColdJunction.lean ====
section
/-! DEFINITION. The ColdJunctionCompensator operations CJ_MV, CJ_LINEARIZE and TK_GET_TEMP (45_cold_junction.md). -/

namespace Sys2Proof.Machine

variable {α : Type}

/-- `for i: acc <- acc + C[i] * p; p <- p * x` (45_cold_junction.md R220). -/
def polyFrom (N : Num α) (x : α) : List Dec → α → α → α
  | [], acc, _ => acc
  | c :: cs, acc, p => polyFrom N x cs (N.add acc (N.mul (N.dec c) p)) (N.mul p x)

/-- POLY(C, x) (45_cold_junction.md R220). -/
def poly (N : Num α) (cs : List Dec) (x : α) : α := polyFrom N x cs (N.int 0) (N.int 1)

/-- The Gaussian term `CJ_A[0] * exp(CJ_A[1] * (u * u))` (45_cold_junction.md R222). -/
def gaussian (N : Num α) (t : α) : α :=
  let u := N.sub t (N.dec cjA2)
  N.mul (N.dec cjA0) (N.exp (N.mul (N.dec cjA1) (N.mul u u)))

/-- CJ_MV's function (45_cold_junction.md R222): no range check. -/
def cjMillivolts (N : Num α) (t : α) : α := N.add (poly N cjC t) (gaussian N t)

/-- SELECT(e) (45_cold_junction.md R224); a NaN compares false and goes to set 2 (93_implementation_defined.md U17). -/
def selectRange (N : Num α) (e : α) : Nat := if N.lt e (N.int 0) then 0 else if N.lt e (N.dec invLimit1) then 1 else 2

/-- The combined voltage `CJ_MV(tcj) + v * 1000` (45_cold_junction.md R225). -/
def combinedMv (N : Num α) (tcj v : α) : α := N.add (cjMillivolts N tcj) (N.mul v (N.int 1000))

/-- CJ_LINEARIZE's function (45_cold_junction.md R225); `none` is OutOfRange. -/
def linearize (N : Num α) (tcj v : α) : Option α :=
  let e := combinedMv N tcj v
  if N.le (N.dec invLimit2) e then none else some (poly N (invD (selectRange N e)) e)

/-- TK_GET_TEMP's function (45_cold_junction.md R226); `none` is OutOfRange, from either stage. -/
def getTemperature (N : Num α) (tcj mtc : α) : Option α := (t2mv N tcj).bind fun m1 => mv2t N (N.add m1 mtc)

/-- CJ_MV (45_cold_junction.md R222). -/
def execCjMv (t : BitVec 64) (s : State) : Out :=
  checked (realOk t) (fun s => s.succeed (.real (s.compute fun N real => cjMillivolts N (real t)))) s

/-- CJ_LINEARIZE (45_cold_junction.md R225). -/
def execCjLinearize (tcj v : BitVec 64) (s : State) : Out :=
  checked (realOk tcj && realOk v)
    (fun s => s.answerReal (s.compute? fun N real => linearize N (real tcj) (real v))) s

/-- TK_GET_TEMP (45_cold_junction.md R226). -/
def execTkGetTemp (tcj mtc : BitVec 64) (s : State) : Out :=
  checked (realOk tcj && realOk mtc)
    (fun s => s.answerReal (s.compute? fun N real => getTemperature N (real tcj) (real mtc))) s

end Sys2Proof.Machine
end

