-- ==== Sys2Proof/Machine/ConfigWord.lean ====
section
/-! DEFINITION. The ConfigWord operations CFG_ENCODE, CFG_DECODE, LSB_SIZE and CONV_INTERVAL (41_configword.md). -/

namespace Sys2Proof.Machine

/-- CFG_ENCODE (41_configword.md R131). -/
def execCfgEncode (c : AdcConfig) (s : State) : Out := checked true (State.succeed (.seq (configBits c))) s

/-- CFG_DECODE (41_configword.md R132). -/
def execCfgDecode (bits : BitSeq) (s : State) : Out :=
  checked (seq16Ok bits) (State.succeed (.cfg (decodeConfig (word16 bits)))) s

/-- LSB_SIZE (41_configword.md R135). -/
def execLsbSize (g : BitVec 3) (s : State) : Out :=
  checked true (fun s => s.succeed (.real (s.num.eval fun N => lsbTable N g))) s

/-- CONV_INTERVAL (41_configword.md R137): reads the ROM, makes no delay event (60_exceptions.md R255). -/
def execConvInterval (dr : BitVec 3) (s : State) : Out :=
  checked true (fun s => s.succeed (.real (s.num.eval fun N => convIntervalTable N dr))) s

end Sys2Proof.Machine
end

