-- ==== Sys2Proof/Machine/Dispatch.lean ====
section
/-! DEFINITION. One arm per constructor of Instr: its meaning (30_encoding.md R91). -/

namespace Sys2Proof.Machine

def exec (i : Instr) (s : State) : Host.Outcome State Fault Refusal :=
  match i with
  | .intToBits v w => Sys2Proof.Machine.execIntToBits v w s
  | .bitsToInt b => Sys2Proof.Machine.execBitsToInt b s
  | .cfgEncode c => Sys2Proof.Machine.execCfgEncode c s
  | .cfgDecode b => Sys2Proof.Machine.execCfgDecode b s
  | .lsbSize g => Sys2Proof.Machine.execLsbSize g s
  | .convInterval d => Sys2Proof.Machine.execConvInterval d s
  | .tcDecode b x => Sys2Proof.Machine.execTcDecode b x s
  | .interpret c d => Sys2Proof.Machine.execInterpret c d s
  | .chInit m p => Sys2Proof.Machine.execChInit m p s
  | .chExchange b => Sys2Proof.Machine.execChExchange b s
  | .chVerify c e => Sys2Proof.Machine.execChVerify c e s
  | .chAwait d => Sys2Proof.Machine.execChAwait d s
  | .chReadBatch l => Sys2Proof.Machine.execChReadBatch l s
  | .tkT2mv t => Sys2Proof.Machine.execTkT2mv t s
  | .tkMv2t v => Sys2Proof.Machine.execTkMv2t v s
  | .cjMv t => Sys2Proof.Machine.execCjMv t s
  | .cjLinearize t v => Sys2Proof.Machine.execCjLinearize t v s
  | .tkGetTemp t v => Sys2Proof.Machine.execTkGetTemp t v s

end Sys2Proof.Machine
end

