-- ==== Sys2Proof/Machine/Request.lean ====
section
/-! DEFINITION. How the block serves the request outstanding on its host port (10_state.md R34, 30_encoding.md R90, R94). -/

namespace Sys2Proof.Machine

/-- Serve a request record: an unassigned OP responds IllegalOperation and changes nothing else (30_encoding.md R94,
60_exceptions.md R243); an operation runs; a record cut short is no request (log entry 15). Bits after the record are not
part of it. -/
def State.serve (bits : BitSeq) (s : State) : Out :=
  match decode bits with
  | .ok (i, _) => exec i s
  | .error .illegalOperation => .next (s.raise .illegalOperation)
  | .error .truncated => .refused .truncatedRequest

/-- What the block does next: go on with a POLLED wait, serve the outstanding request, or, with none outstanding, nothing
(10_state.md R30, R34; log entries 1 and 2). -/
def State.advance (s : State) : Out :=
  match s.seq with
  | .polling p => .next (s.resume p)
  | .ready =>
    match s.hostReq with
    | none => .next s
    | some bits => s.serve bits

/-- The request whose bits are `w` as the opcode table numbers them, placed as the outstanding one (log entries 2 and 16). -/
def State.placeTableWord (s : State) (nbits w : Nat) : State := s.placeRequest (tableRequest nbits w)

end Sys2Proof.Machine
end

