-- ==== Sys2Proof/Machine/Step.lean ====
section
/-! DEFINITION. The machine's step. -/

namespace Sys2Proof.Machine

/-- One step of the block: it runs the outstanding request to its response, or to a sample of a POLLED wait that reads 1
(log entry 1). -/
def step (s : State) : Host.Outcome State Fault Refusal := s.advance

/-- `s` with the request of an opcode-table word outstanding, so that the next step runs it (log entries 2 and 16). -/
def State.withFetchWord (s : State) (nbits w : Nat) : State := s.placeTableWord nbits w

end Sys2Proof.Machine
end

