-- ==== Sys2Proof/Machine/RefDevice.lean ====
section
/-! DEFINITION. The reference device REF_DEV of 43_adc_channel.md R161, for test vectors only: it says which levels a device
that echoes each command and returns each result one exchange late puts on DIN. It constrains nothing: `step` takes its
samples from the state (log entry 3), and these scripts are one choice of them. -/

namespace Sys2Proof.Machine

/-- REF_DEV between two exchanges: its register PEND, and what it echoes if not the command (REF_DEV_BAD(e)). -/
structure RefDevice where
  pend : Word16
  badEcho : Option Word16
  deriving DecidableEq, Repr

/-- The 32 levels of an exchange of command `c`: the echo, then PEND (43_adc_channel.md R161). -/
def RefDevice.answer (d : RefDevice) (c : Word16) : BitSeq := seq16 (d.badEcho.getD c) ++ seq16 d.pend

/-- At the end of the exchange PEND <- DATA(c) (43_adc_channel.md R161). -/
def RefDevice.after (d : RefDevice) (data : Word16) : RefDevice := { d with pend := data }

/-- The levels of a run of exchanges, each given as its command, the device's DATA for it, and whether a POLLED wait follows,
whose sample the device answers with 0 (43_adc_channel.md R161). -/
def RefDevice.script (d : RefDevice) : List (Word16 × Word16 × Bool) → BitSeq
  | [] => []
  | (c, data, polled) :: rest => d.answer c ++ (if polled then [false] else []) ++ (d.after data).script rest

end Sys2Proof.Machine
end

