-- ==== Sys2Proof/Machine/Exact.lean ====
section
/-! DEFINITION. The datapath EXACT on the real numbers (00_scope.md R13): every value a real number, no operation rounds, exp
the mathematical exponential (R14). What the machine computes under EXACT, as the data of Machine/ExactReal.lean, is held to
it. -/

namespace Sys2Proof

/-- The real number a value of EXACT is (00_scope.md R13). -/
noncomputable def Exact.toReal (x : Exact) : ℝ := x.valueAt Config.realLine.value

/-- The value is the real number `r`, under EXACT (00_scope.md R13). -/
def Value.IsReal (v : Value) (r : ℝ) : Prop := ∃ e, v = .exact e ∧ e.toReal = r

open Classical in
/-- EXACT (00_scope.md R13, R14). -/
noncomputable def Num.exact : Num ℝ where
  rat := fun n d => (n : ℝ) / (d : ℝ)
  neg := fun x => -x
  add := fun x y => x + y
  sub := fun x y => x - y
  mul := fun x y => x * y
  div := fun x y => x / y
  lt := fun x y => decide (x < y)
  le := fun x y => decide (x ≤ y)
  exp := Real.exp

end Sys2Proof
end

