-- ==== Sys2Proof/Safety.lean ====
section
/-! DEFINITION. The terms claims are stated in: what an exchange sends and reads (43_adc_channel.md R165), event counts
(70_reset_and_hazards.md R284), the invariant of the block, and the states a run reaches. -/

namespace Sys2Proof.Machine

/-- The word of the 16 samples after the next `start` ones, the first most significant (20_memory.md R71). -/
def State.sampledWord (s : State) (start : Nat) : Word16 :=
  word16 ((List.range 16).map fun j => s.upcoming (start + j))

/-- The RawExchange an exchange reads that starts after the next `start` samples (43_adc_channel.md R165). -/
def State.sampledRaw (s : State) (start : Nat) : RawExchange := ⟨s.sampledWord start, s.sampledWord (start + 16)⟩

/-- The events of bit slot k: command word c, sample b (43_adc_channel.md R165). -/
def slotEvents (c : Word16) (k : Nat) (b : Bool) : List Event :=
  [.pinWrite .sclk true, .pinWrite .dout (txBit c (k % 16)), .pinSample b, .pinWrite .sclk false]

/-- `if HAS_CS: PinWrite(CS_N, b)` as events. -/
def csEvents (hasCs : Bool) (b : Bool) : List Event := if hasCs then [.pinWrite .csN b] else []

/-- The events of EXCHANGE_SEQ(c), the samples being `draw 0`, ..., `draw 31` (43_adc_channel.md R165). -/
def exchangeEvents (hasCs : Bool) (c : Word16) (draw : Nat → Bool) : List Event :=
  csEvents hasCs false ++ (List.range 32).flatMap (fun k => slotEvents c k (draw k)) ++ csEvents hasCs true

/-- Under EXACT the real number a REAL operand stands for (30_encoding.md R92; log entry 29). -/
noncomputable def State.operand (s : State) (x : BitVec 64) : ℝ := (s.realOf x).toReal

/-- The events of a WAIT(dr) of which the first `w` samples read 1 and the next reads 0: the Sleep and its completion where
the mode is TIMED, or the poll with CS_N driven around it where POLL_CS is asserted (43_adc_channel.md R176). -/
def State.waitEvents (s : State) (dr : BitVec 3) (w : Nat) : List Event :=
  match s.waitMode with
  | .timed => [.sleep (s.num.eval fun N => convIntervalTable N dr), .sleepDone]
  | .polled =>
    csEvents (s.hasCs && decide (s.pollCs = .asserted)) false ++ List.replicate w (.pinSample true) ++ [.pinSample false] ++
      csEvents (s.hasCs && decide (s.pollCs = .asserted)) true

/-- How many samples of DIN a WAIT takes of which the first `w` read 1 and the next reads 0 (43_adc_channel.md R176). -/
def waitSamples (m : WaitMode) (w : Nat) : Nat :=
  match m with
  | .timed => 0
  | .polled => w + 1

/-- A WAIT that starts after the next `n` samples ends after `w` samples that read 1: it is TIMED, and takes none, or its
next sample is the first that reads 0 (43_adc_channel.md R176). -/
def State.WaitEnds (s : State) (m : WaitMode) (n w : Nat) : Prop :=
  match m with
  | .timed => w = 0
  | .polled => (∀ i < w, s.upcoming (n + i) = true) ∧ s.upcoming (n + w) = false

/-- How many samples come before exchange `j` of a batch whose wait `i` sees `w i` samples of 1: 32 for every exchange before
it, and those of the waits (43_adc_channel.md R180). -/
def State.batchAt (s : State) (w : Nat → Nat) : Nat → Nat
  | 0 => 0
  | j + 1 => s.batchAt w j + 32 + waitSamples s.waitMode (w j)

/-- The first `n` waits of a batch end, wait `j` after `w j` samples of 1 (43_adc_channel.md R176, R180). -/
def State.BatchWaits (s : State) (w : Nat → Nat) (n : Nat) : Prop :=
  ∀ j < n, s.WaitEnds s.waitMode (s.batchAt w j + 32) (w j)

/-- How many samples of 1 the first `n` waits of a batch see: how many steps the batch takes after its first, as a step
inside a POLLED wait is one sample (log entry 1). -/
def batchSteps (w : Nat → Nat) (n : Nat) : Nat := ((List.range n).map w).sum

/-- A pin event (70_reset_and_hazards.md R284, "bus events"). -/
def Event.isBus : Event → Bool
  | .pinWrite _ _ => true
  | .pinSample _ => true
  | _ => false

/-- A Sleep request (70_reset_and_hazards.md R284). -/
def Event.isSleep : Event → Bool
  | .sleep _ => true
  | _ => false

/-- A response (10_state.md R34). -/
def Event.isResponse : Event → Bool
  | .respond _ => true
  | _ => false

/-- The events `t` has made since `s`. -/
def State.eventsSince (s t : State) : List Event := t.trace.drop s.trace.length

/-- Two states agree on every register of the block, the ports' levels, the parameters and the environment; only the host
port, the sequencer and the event record may differ. -/
def State.sameRegisters (s t : State) : Prop :=
  t.chan = s.chan ∧ t.waitMode = s.waitMode ∧ t.pull = s.pull ∧ t.sclk = s.sclk ∧ t.dout = s.dout ∧ t.csN = s.csN ∧
  t.tx = s.tx ∧ t.rx = s.rx ∧ t.slot = s.slot ∧ t.bcmd = s.bcmd ∧ t.braw = s.braw ∧ t.bres = s.bres ∧ t.bn = s.bn ∧
  t.pollCs = s.pollCs ∧ t.batchAbort = s.batchAbort ∧ t.num = s.num ∧ t.din = s.din ∧ t.drawn = s.drawn ∧
  t.reals = s.reals

/-- `t` is `s` after its request was answered with `r` and nothing else was done: no register written, no bus or delay event
(60_exceptions.md R246, R247). -/
def State.OnlyResponds (s t : State) (r : Response) : Prop :=
  s.sameRegisters t ∧ t.hostReq = none ∧ t.hostResp = some r ∧ t.seq = .ready ∧ t.trace = s.trace ++ [.respond r]

/-- `t` answers the request of `s` with `r`, after the events `es` (10_state.md R34, 60_exceptions.md R246). -/
def State.Answers (s t : State) (r : Response) (es : List Event) : Prop :=
  t.hostReq = none ∧ t.hostResp = some r ∧ t.seq = .ready ∧ t.trace = s.trace ++ es ++ [.respond r]

/-- The exchange registers and latches of `t` are those after an exchange of `c` whose first sample is the one after the next
`start` of `s` (43_adc_channel.md R165, 10_state.md R37 to R39). -/
def State.AfterExchange (s t : State) (c : Word16) (start : Nat) : Prop :=
  t.tx = c ∧ t.slot = 32 ∧ t.sclk = false ∧ t.dout = c.getLsbD 0 ∧ t.csN = s.csN.map (fun _ => true) ∧
  ∀ k < 32, t.rx.getLsbD (31 - k) = s.upcoming (start + k)

/-- `t` has the batch buffers of `s` (10_state.md R40). -/
def State.sameBuffers (s t : State) : Prop := t.bcmd = s.bcmd ∧ t.braw = s.braw ∧ t.bres = s.bres ∧ t.bn = s.bn

/-- `t` has the parameters of `s`: HAS_CS, POLL_CS, BATCH_ABORT and NUM (00_scope.md R9), and its reals of EXACT. -/
def State.sameParams (s t : State) : Prop :=
  t.hasCs = s.hasCs ∧ t.pollCs = s.pollCs ∧ t.batchAbort = s.batchAbort ∧ t.num = s.num ∧ t.reals = s.reals

/-- The environment of `t` is that of `s` after `n` samples (00_scope.md R8). -/
def State.Sampled (s t : State) (n : Nat) : Prop := t.din = s.din.drop n ∧ t.drawn = s.drawn + n

/-- The events of a batch's first loop, wait `j` seeing `w j` samples of 1: E_0, W_0, E_1, W_1, ... (43_adc_channel.md
R181). -/
def State.batchEvents (s : State) (cs : List AdcConfig) (w : Nat → Nat) : List Event :=
  (List.range cs.length).flatMap fun j =>
    exchangeEvents s.hasCs (encodeConfig (cs.getD j zeroConfig)) (fun i => s.upcoming (s.batchAt w j + i)) ++
      s.waitEvents (cs.getD j zeroConfig).dataRate (w j)

/-- The measurements of a batch: command k with the data of exchange k+1 (43_adc_channel.md R181). -/
def State.batchMeasurements (s : State) (cs : List AdcConfig) (w : Nat → Nat) : List Measurement :=
  (List.range cs.length).map fun k =>
    Machine.interpret s.num (cs.getD k zeroConfig) (seq16 (s.sampledRaw (s.batchAt w (k + 1))).data)

/-- `t` has the batch buffers of `s` from BCMD[nc], BRAW[nr] and BRES[nm] on (10_state.md R40). -/
def State.batchKeptFrom (s t : State) (nc nr nm : Nat) : Prop :=
  (∀ j, nc ≤ j → t.bcmdAt j = s.bcmdAt j) ∧ (∀ j, nr ≤ j → t.brawAt j = s.brawAt j) ∧
  ∀ j, nm ≤ j → t.bres.toList[j]? = s.bres.toList[j]?

/-- What a POLLED wait's position says of the channel (10_state.md R35, 43_adc_channel.md R170, R177, R180). -/
def Polling.Fits (p : Polling) (s : State) : Prop :=
  match p with
  | .init => s.chan = .uninit
  | .await => s.chan = .exch
  | .batch k rest => s.chan = .exch ∧ k + 1 + rest.length = s.bn

/-- The invariant of the block. SLOT is 0..32 (10_state.md R39) and BN at most N_BATCH_MAX (R40). SCLK_Q is 0 between events
of a slot's end (R37). A request that is outstanding has no response yet (R34). Between operations CHAN_STATE is not EXCH
(60_exceptions.md R244) and CS_N is deasserted (R37). Inside a POLLED wait the mode is POLLED, the request is outstanding and
CS_N is low exactly if POLL_CS is asserted (43_adc_channel.md R176). -/
def State.Inv (s : State) : Prop :=
  s.slot ≤ 32 ∧ s.bn ≤ Config.nBatchMax ∧ s.sclk = false ∧ (s.hostReq.isSome = true → s.hostResp = none) ∧
  match s.seq with
  | .ready => s.chan ≠ .exch ∧ s.csN ≠ some false
  | .polling p => s.hostReq.isSome = true ∧ s.waitMode = .polled ∧
      s.csN = s.csN.map (fun _ => decide (s.pollCs = .deasserted)) ∧ p.Fits s

/-- `n` steps, stopping at the first that has no next state. -/
def steps : Nat → State → Out
  | 0, s => .next s
  | n + 1, s =>
    match step s with
    | .next t => steps n t
    | .fault f => .fault f
    | .refused r => .refused r

/-- The reset state of a block with the given parameters (00_scope.md R9, 43_adc_channel.md R180; log entries 5 and 19). -/
def State.resetWith (p : PollCs) (a : BatchAbort) (k : NumKind) : State :=
  { State.reset with pollCs := p, batchAbort := a, num := k }

/-- The states a run reaches from reset, with any parameters: steps of the block and requests of the host (10_state.md R34),
the environment fixing as many samples as it likes, and the reals of EXACT, between steps. -/
inductive Reachable : State → Prop where
  | reset (p : PollCs) (a : BatchAbort) (k : NumKind) : Reachable (State.resetWith p a k)
  | step {s t : State} : Reachable s → Machine.step s = .next t → Reachable t
  | issue {s : State} (q : BitSeq) : Reachable s → Reachable (s.issue q)
  | fix {s : State} (levels : List Bool) : Reachable s → Reachable { s with din := levels }
  | denote {s : State} (reals : List (BitVec 64 × RealOperand)) : Reachable s → Reachable { s with reals := reals }

end Sys2Proof.Machine
end

