-- ==== Sys2Proof/Certificates/Slice0/Obligations.lean ====
section
/-! DEFINITION. The statements about the model, from the spec's numbered rules. -/

open Sys2Proof Sys2Proof.Machine

/-! ### Requests: the record, the decoder, the step -/

/-- 30_encoding.md R90 to R92: the decoder reads back every well-formed operation from its record, whatever follows it, and
whatever stands in the payload bits P[31-LEN..0] of its SEQ field, which R92 ignores: `fill` gives them. -/
def Obligations.DecodeEncodeRoundTrip : Prop :=
  ∀ (i : Instr) (fill rest : BitSeq), fill.length = 32 → i.wellFormed = true →
    decode (encodeWith fill i ++ rest) = .ok (i, rest)

/-- 30_encoding.md R91, R92 and the request encodings of 95_test_vectors.md section 3; the first clause is on a word of
spec/opcode_table.json, whose numbering and zero bits above the table's are the model's reading (log entry 16). -/
def Obligations.SpecRequestsDecode : Prop :=
  decodeTableWord 8 0x03 = some (.cfgEncode ⟨false, 0, 0, false, 0, false, false, false⟩) ∧
  decode (toBits 8 0x49) = .ok (.chInit .timed 1, []) ∧
  decode (toBits 8 0x4C) = .ok (.chInit .polled 0, []) ∧
  decode (toBits 8 0x64) = .ok (.chAwait 4, []) ∧
  decode (toBits 5 0x03 ++ toBits 14 0x2163) = .ok (.cfgEncode ⟨true, 0, 2, true, 4, false, true, true⟩, []) ∧
  decode (toBits 5 0x0A ++ toBits 6 16 ++ toBits 32 0x858B0000) = .ok (.chExchange (toBits 16 0x858B), []) ∧
  decode (toBits 5 0x0D ++ toBits 5 2 ++ toBits 14 0x2163 ++ toBits 14 0x2FFB) =
    .ok (.chReadBatch [⟨true, 0, 2, true, 4, false, true, true⟩, ⟨true, 3, 7, true, 7, false, true, true⟩], []) ∧
  decode (toBits 5 0x0E ++ toBits 64 0x4095680000000000) = .ok (.tkT2mv 0x4095680000000000, []) ∧
  decode (toBits 5 0x07 ++ toBits 6 4 ++ toBits 32 0xB0000000 ++ toBits 64 0x3FF0000000000000) =
    .ok (.tcDecode [true, false, true, true] 0x3FF0000000000000, [])

/-- 30_encoding.md R94, 60_exceptions.md R243: an unassigned OP responds IllegalOperation and does nothing else. -/
def Obligations.UnassignedOpcodeRespondsIllegalOperation : Prop :=
  ∀ (s : State) (bits : BitSeq), s.seq = .ready → s.hostReq = some bits → 5 ≤ bits.length →
    (uint (bits.take 5) = 0 ∨ 0x13 ≤ uint (bits.take 5)) →
    ∃ t, step s = .next t ∧ s.OnlyResponds t (.fault .illegalOperation)

/-- 10_state.md R34, 30_encoding.md R90: the step at an outstanding request is the decoded operation. That one step is the
whole operation is the model's choice (log entry 1), and that the bits after its record are ignored is too (log entry 15). -/
def Obligations.StepRunsDecodedRequest : Prop :=
  ∀ (s : State) (bits rest : BitSeq) (i : Instr), s.seq = .ready → s.hostReq = some bits →
    decode bits = .ok (i, rest) → step s = exec i s

/-- 10_state.md R30, R34, 43_adc_channel.md R176: what a step is with no request to start. The model's choice of a step
(log entries 1 and 2): with no request outstanding it does nothing; inside a POLLED wait it takes one sample, and where that
reads 0 ends the wait and goes on with the operation. -/
def Obligations.StepWithoutNewRequest : Prop :=
  (∀ s : State, s.seq = .ready → s.hostReq = none → step s = .next s) ∧
  (∀ (s : State) (p : Polling), s.seq = .polling p → s.upcoming 0 = true → step s = .next s.takeSample) ∧
  (∀ (s : State) (p : Polling), s.seq = .polling p → s.upcoming 0 = false →
    step s = .next (State.afterWait p (if s.pollCs = .asserted then s.takeSample.writeCsN true else s.takeSample)))

/-- The opcode table's word, placed for fetching, is what the next step runs (log entries 2 and 16). -/
def Obligations.StepRunsPlacedTableWord : Prop :=
  ∀ (s : State) (nbits w : Nat) (i : Instr), decodeTableWord nbits w = some i →
    step (s.withFetchWord nbits w) = exec i (s.withFetchWord nbits w)

/-- 10_state.md R34: while a request is outstanding the host issues no new one; else its request is outstanding. That the
last response leaves the port then is the model's choice (log entry 2). -/
def Obligations.HostIssuesOneRequestAtATime : Prop :=
  ∀ (s : State) (q : BitSeq), (s.hostReq.isSome = true → s.issue q = s) ∧
    (s.hostReq = none → (s.issue q).hostReq = some q ∧ (s.issue q).hostResp = none ∧ s.sameRegisters (s.issue q) ∧
      (s.issue q).trace = s.trace)

/-- 10_state.md R34: a step that starts with a request outstanding answers it once, or is inside a POLLED wait and has not
answered it. A step is the model's choice (log entry 1). -/
def Obligations.EveryRequestGetsOneResponse : Prop :=
  ∀ (s t : State) (q : BitSeq), s.hostReq = some q → step s = .next t →
    ∃ es : List Event, es.all (fun e => !e.isResponse) = true ∧
      ((∃ r, s.Answers t r es) ∨
       (t.trace = s.trace ++ es ∧ t.hostReq = some q ∧ t.hostResp = s.hostResp ∧ ∃ p, t.seq = .polling p))

/-- 20_memory.md R80: the events form one sequence, and a step only adds to its end. -/
def Obligations.StepOnlyAppendsEvents : Prop :=
  ∀ s t : State, step s = .next t → ∃ es, t.trace = s.trace ++ es

/-- 60_exceptions.md R240, R246: no operation stops the machine. A step that has no next state has a request cut short
(log entry 15). -/
def Obligations.OnlyTruncatedRequestsStop : Prop :=
  (∀ (i : Instr) (s : State), ∃ t, exec i s = .next t) ∧
  (∀ s : State, (∃ t, step s = .next t) ∨
    (∃ q, s.seq = .ready ∧ s.hostReq = some q ∧ decode q = .error .truncated ∧ step s = .refused .truncatedRequest))

/-! ### Faults -/

/-- 60_exceptions.md R242: exactly the listed operand conditions respond MalformedInput, in any channel state, and nothing
else is done; no other operand does. -/
def Obligations.MalformedOperandsRespondMalformedInput : Prop :=
  (∀ (i : Instr) (s : State), i.wellFormed = false →
    ∃ t, exec i s = .next t ∧ s.OnlyResponds t (.fault .malformedInput)) ∧
  (∀ (i : Instr) (s t : State), i.wellFormed = true → s.hostResp = none → exec i s = .next t →
    t.hostResp ≠ some (.fault .malformedInput)) ∧
  (∀ v w, (Instr.intToBits v w).wellFormed = false ↔ w.toNat = 0 ∨ 32 < w.toNat) ∧
  (∀ b : BitSeq, (Instr.bitsToInt b).wellFormed = false ↔ b.length = 0 ∨ 32 < b.length) ∧
  (∀ (b : BitSeq) x, (Instr.tcDecode b x).wellFormed = false ↔
    b.length = 0 ∨ 32 < b.length ∨ (F64.ofBits x).isFinite = false) ∧
  (∀ b : BitSeq, (Instr.cfgDecode b).wellFormed = false ↔ b.length ≠ 16) ∧
  (∀ c (b : BitSeq), (Instr.interpret c b).wellFormed = false ↔ b.length ≠ 16) ∧
  (∀ b : BitSeq, (Instr.chExchange b).wellFormed = false ↔ b.length ≠ 16) ∧
  (∀ c (b : BitSeq), (Instr.chVerify c b).wellFormed = false ↔ b.length ≠ 16) ∧
  (∀ m p, (Instr.chInit m p).wellFormed = false ↔ p = 3#2) ∧
  (∀ l : List AdcConfig, (Instr.chReadBatch l).wellFormed = false ↔ 16 < l.length) ∧
  (∀ x, (Instr.tkT2mv x).wellFormed = false ↔ (F64.ofBits x).isFinite = false) ∧
  (∀ x, (Instr.tkMv2t x).wellFormed = false ↔ (F64.ofBits x).isFinite = false) ∧
  (∀ x, (Instr.cjMv x).wellFormed = false ↔ (F64.ofBits x).isFinite = false) ∧
  (∀ x y, (Instr.cjLinearize x y).wellFormed = false ↔
    (F64.ofBits x).isFinite = false ∨ (F64.ofBits y).isFinite = false) ∧
  (∀ x y, (Instr.tkGetTemp x y).wellFormed = false ↔
    (F64.ofBits x).isFinite = false ∨ (F64.ofBits y).isFinite = false) ∧
  (∀ c, (Instr.cfgEncode c).wellFormed = true) ∧ (∀ g, (Instr.lsbSize g).wellFormed = true) ∧
  (∀ d, (Instr.convInterval d).wellFormed = true) ∧ (∀ d, (Instr.chAwait d).wellFormed = true)

/-- 60_exceptions.md R244: CH_EXCHANGE, CH_AWAIT and CH_READ_BATCH respond NotInitialized unless CHAN_STATE is IDLE, and do
nothing else; an empty batch too. -/
def Obligations.ChannelOperationsNeedIdle : Prop :=
  ∀ (s : State), s.chan ≠ .idle →
    (∀ b : BitSeq, b.length = 16 →
      ∃ t, exec (.chExchange b) s = .next t ∧ s.OnlyResponds t (.fault .notInitialized)) ∧
    (∀ d, ∃ t, exec (.chAwait d) s = .next t ∧ s.OnlyResponds t (.fault .notInitialized)) ∧
    (∀ l : List AdcConfig, l.length ≤ 16 →
      ∃ t, exec (.chReadBatch l) s = .next t ∧ s.OnlyResponds t (.fault .notInitialized))

/-- 30_encoding.md R90, R92, R93: the response record: STATUS, INFO, no result field on a fault, and after a success the result
fields of R92: SEQ's LEN and its sequence left-aligned in 32 bits (those past it are not said), U, CFG in the order of its
bits, a REAL binary64's pattern, MEAS its kind and then its value, RAW the echo before the data, MEASLIST its COUNT and then
each MEAS. The pattern of a NaN is free (log entry 11), that of a real number of EXACT too (log entry 31). -/
def Obligations.ResponseStatusAndInfo : Prop :=
  ∀ n : Nat,
    (∀ e : Word16, popcount16 e ≤ 16 ∧
      (Response.fault (.connectionFault (popcount16 e))).bits n = toBits 3 1 ++ toBits 5 (popcount16 e)) ∧
    (Response.fault .outOfRange).bits n = toBits 3 2 ++ toBits 5 0 ∧
    (Response.fault .malformedInput).bits n = toBits 3 3 ++ toBits 5 0 ∧
    (Response.fault .illegalOperation).bits n = toBits 3 4 ++ toBits 5 0 ∧
    (Response.fault .notInitialized).bits n = toBits 3 5 ++ toBits 5 0 ∧
    (∀ p : Payload, (Response.ok p).bits n = toBits 3 0 ++ toBits 5 0 ++ p.bits n) ∧
    (∀ r : Response, r.status.toNat ≤ 5) ∧
    Payload.nothing.bits n = [] ∧
    (∀ s : BitSeq, s.length ≤ 32 →
      ∃ pad, pad.length = 32 - s.length ∧ (Payload.seq s).bits n = toBits 6 s.length ++ s ++ pad) ∧
    (∀ v : BitVec 64, (Payload.u v).bits n = toBits 64 v.toNat) ∧
    (∀ c : AdcConfig, (Payload.cfg c).bits n = [c.singleShot] ++ toBits 3 c.multiplex.toNat ++ toBits 3 c.gain.toNat ++
      [c.singleShotMode] ++ toBits 3 c.dataRate.toNat ++ [c.tempSensor] ++ [c.pullup] ++ [c.operation]) ∧
    (∀ v : Value, ∃ b : BitVec 64, (Payload.real v).bits n = toBits 64 b.toNat ∧
      ∀ x, v = .b64 x → x.wf = true → F64.ofBits b = x) ∧
    (∀ v : Value, (Payload.meas ⟨.voltage, v⟩).bits n = false :: (Payload.real v).bits n ∧
      (Payload.meas ⟨.temperature, v⟩).bits n = true :: (Payload.real v).bits n) ∧
    (∀ e d : Word16, (Payload.raw ⟨e, d⟩).bits n = toBits 16 e.toNat ++ toBits 16 d.toNat) ∧
    (∀ ms : List Measurement,
      (Payload.measList ms).bits n = toBits 5 ms.length ++ ms.flatMap fun m => (Payload.meas m).bits n)

/-! ### BitCodec -/

/-- 40_bitcodec.md R120. -/
def Obligations.IntToBitsGivesBinaryForm : Prop :=
  ∀ (v : BitVec 64) (w : BitVec 6) (s : State),
    (1 ≤ w.toNat → w.toNat ≤ 32 →
      ∃ l t, exec (.intToBits v w) s = .next t ∧ s.OnlyResponds t (.ok (.seq l)) ∧ l.length = w.toNat ∧
        ∀ j < w.toNat, l[j]? = some ((v.toNat % 2 ^ w.toNat).testBit (w.toNat - 1 - j))) ∧
    (w.toNat = 0 ∨ 32 < w.toNat →
      ∃ t, exec (.intToBits v w) s = .next t ∧ s.OnlyResponds t (.fault .malformedInput))

/-- 40_bitcodec.md R121. -/
def Obligations.BitsToIntGivesUnsignedValue : Prop :=
  ∀ (b : BitSeq) (s : State),
    (1 ≤ b.length → b.length ≤ 32 →
      ∃ (x : BitVec 64) (t : State), exec (.bitsToInt b) s = .next t ∧ s.OnlyResponds t (.ok (.u x)) ∧
        x.toNat = uint b ∧ x.toNat ≤ 2 ^ b.length - 1) ∧
    (b.length = 0 ∨ 32 < b.length →
      ∃ t, exec (.bitsToInt b) s = .next t ∧ s.OnlyResponds t (.fault .malformedInput))

/-- 40_bitcodec.md R122. -/
def Obligations.CodecRoundTrips : Prop :=
  (∀ v w : Nat, 1 ≤ w → w ≤ 32 → bitsToInt (intToBits v w) = v % 2 ^ w ∧ (v < 2 ^ w → bitsToInt (intToBits v w) = v)) ∧
  (∀ b : BitSeq, 1 ≤ b.length → b.length ≤ 32 → intToBits (bitsToInt b) b.length = b)

/-! ### ConfigWord -/

/-- 41_configword.md R131, 30_encoding.md R95. -/
def Obligations.CfgEncodeLaysOutFields : Prop :=
  ∀ (c : AdcConfig) (s : State), ∃ l t, exec (.cfgEncode c) s = .next t ∧ s.OnlyResponds t (.ok (.seq l)) ∧
    l.length = 16 ∧
    (word16 l).getLsbD 15 = c.singleShot ∧ (word16 l).extractLsb' 12 3 = c.multiplex ∧
    (word16 l).extractLsb' 9 3 = c.gain ∧ (word16 l).getLsbD 8 = c.singleShotMode ∧
    (word16 l).extractLsb' 5 3 = c.dataRate ∧ (word16 l).getLsbD 4 = c.tempSensor ∧
    (word16 l).getLsbD 3 = c.pullup ∧ (word16 l).getLsbD 2 = false ∧ (word16 l).getLsbD 1 = c.operation ∧
    (word16 l).getLsbD 0 = true

/-- 41_configword.md R132, 30_encoding.md R96. -/
def Obligations.CfgDecodeExtractsFields : Prop :=
  ∀ (b : BitSeq) (s : State),
    (b.length = 16 →
      ∃ t, exec (.cfgDecode b) s = .next t ∧ s.OnlyResponds t (.ok (.cfg {
        singleShot := (word16 b).getLsbD 15, multiplex := (word16 b).extractLsb' 12 3,
        gain := (word16 b).extractLsb' 9 3, singleShotMode := (word16 b).getLsbD 8,
        dataRate := (word16 b).extractLsb' 5 3, tempSensor := (word16 b).getLsbD 4,
        pullup := (word16 b).getLsbD 3, operation := (word16 b).getLsbD 1 }))) ∧
    (b.length ≠ 16 → ∃ t, exec (.cfgDecode b) s = .next t ∧ s.OnlyResponds t (.fault .malformedInput))

/-- 41_configword.md R133: both round trips. -/
def Obligations.ConfigWordRoundTrips : Prop :=
  (∀ c : AdcConfig, decodeConfig (word16 (configBits c)) = c) ∧
  (∀ w : Word16, encodeConfig (decodeConfig w) &&& 0xFFFA#16 = w &&& 0xFFFA#16 ∧
    (encodeConfig (decodeConfig w)).getLsbD 2 = false ∧ (encodeConfig (decodeConfig w)).getLsbD 0 = true)

/-- 41_configword.md R135, and the default table of R136: the value each code gives, the aliases 5 = 6 = 7, and the strict
decrease from 0 to 5, in either datapath. The table's values are the spec's own default (log entry 13). -/
def Obligations.LsbSizeReadsTable : Prop :=
  (∀ (g : BitVec 3) (s : State), ∃ t, exec (.lsbSize g) s = .next t ∧
    s.OnlyResponds t (.ok (.real ([s.num.ratio 1875 (10 ^ 7), s.num.ratio 125 (10 ^ 6), s.num.ratio 625 (10 ^ 7),
      s.num.ratio 3125 (10 ^ 8), s.num.ratio 15625 (10 ^ 9), s.num.ratio 78125 (10 ^ 10), s.num.ratio 78125 (10 ^ 10),
      s.num.ratio 78125 (10 ^ 10)].getD g.toNat (.b64 .nan))))) ∧
  (lsbTable Num.binary64 5 = lsbTable Num.binary64 6 ∧ lsbTable Num.binary64 6 = lsbTable Num.binary64 7) ∧
  (lsbTable Num.exact 5 = lsbTable Num.exact 6 ∧ lsbTable Num.exact 6 = lsbTable Num.exact 7) ∧
  (∀ g : Nat, g < 5 →
    F64.lt (lsbTable Num.binary64 (BitVec.ofNat 3 (g + 1))) (lsbTable Num.binary64 (BitVec.ofNat 3 g)) = true) ∧
  ∀ g : Nat, g < 5 → lsbTable Num.exact (BitVec.ofNat 3 (g + 1)) < lsbTable Num.exact (BitVec.ofNat 3 g)

/-- 41_configword.md R137, and the default table of R138: each interval is 1 / SPS, rounded once under BINARY64_RNE, and they
decrease strictly, in either datapath. The data rates are the spec's own default (log entry 13). -/
def Obligations.ConvIntervalReadsTable : Prop :=
  (∀ (d : BitVec 3) (s : State), ∃ t, exec (.convInterval d) s = .next t ∧
    s.OnlyResponds t (.ok (.real ([s.num.ratio 1 8, s.num.ratio 1 16, s.num.ratio 1 32, s.num.ratio 1 64,
      s.num.ratio 1 128, s.num.ratio 1 250, s.num.ratio 1 475, s.num.ratio 1 860].getD d.toNat (.b64 .nan))))) ∧
  (∀ d : Nat, d < 7 → F64.lt (convIntervalTable Num.binary64 (BitVec.ofNat 3 (d + 1)))
    (convIntervalTable Num.binary64 (BitVec.ofNat 3 d)) = true) ∧
  ∀ d : Nat, d < 7 →
    convIntervalTable Num.exact (BitVec.ofNat 3 (d + 1)) < convIntervalTable Num.exact (BitVec.ofNat 3 d)

/-- 41_configword.md R140, R141: the default words (the default fields are the spec's own, decision D8; log entry 13). -/
def Obligations.ProbeWordValue : Prop :=
  encodeConfig defaultConfig = 0x058B#16 ∧ probeWord = 0x85BB#16 ∧ probe.singleShot = true ∧ probe.tempSensor = true ∧
  probe.dataRate = 5 ∧ probe = { defaultConfig with singleShot := true, tempSensor := true, dataRate := 5 }

/-! ### Binary64 and TwosComplementDecoder -/

/-- 00_scope.md R13: each operation rounds once to nearest, ties to even. Rounding `num / den` units keeps the sign; it is
finite exactly below (2^54 - 1) * 2^2044 units, the tie above the largest finite value, and an infinity from there up. No
finite value of the format is nearer, and where another one is as near, the one given has the even significand. The sum,
difference, product and quotient of finite operands are the rounding of the exact result; an exact zero has the sign IEEE 754
gives it. -/
def Obligations.RoundingIsToNearestEven : Prop :=
  (∀ (neg : Bool) (num den : Nat), 0 < den →
    (num < den * ((2 ^ 54 - 1) * 2 ^ 2044) →
      ∃ m e, F64.round neg num den = .fin neg m e ∧
        ∀ (n' : Bool) (m' e' : Nat), (F64.fin n' m' e').wf = true →
          ((m * 2 ^ e * den : Int) - num).natAbs ≤ ((m' * 2 ^ e' * den : Int) - num).natAbs ∧
          (m' * 2 ^ e' ≠ m * 2 ^ e →
            ((m' * 2 ^ e' * den : Int) - num).natAbs = ((m * 2 ^ e * den : Int) - num).natAbs → m % 2 = 0)) ∧
    (den * ((2 ^ 54 - 1) * 2 ^ 2044) ≤ num → F64.round neg num den = .inf neg)) ∧
  (∀ (s t : Bool) (m e n f : Nat),
    let x := F64.fin s m e
    let y := F64.fin t n f
    (x.toRat + y.toRat ≠ 0 → F64.add x y = F64.ofRat (x.toRat + y.toRat).num (x.toRat + y.toRat).den) ∧
    (x.toRat + y.toRat = 0 → F64.add x y = .fin (s && t) 0 0) ∧
    (x.toRat - y.toRat ≠ 0 → F64.sub x y = F64.ofRat (x.toRat - y.toRat).num (x.toRat - y.toRat).den) ∧
    (x.toRat - y.toRat = 0 → F64.sub x y = .fin (s && !t) 0 0) ∧
    (x.toRat * y.toRat ≠ 0 → F64.mul x y = F64.ofRat (x.toRat * y.toRat).num (x.toRat * y.toRat).den) ∧
    (x.toRat * y.toRat = 0 → F64.mul x y = .fin (s != t) 0 0) ∧
    (x.toRat ≠ 0 → y.toRat ≠ 0 → F64.div x y = F64.ofRat (x.toRat / y.toRat).num (x.toRat / y.toRat).den) ∧
    (x.toRat = 0 → y.toRat ≠ 0 → F64.div x y = .fin (s != t) 0 0)) ∧
  ∀ (num : Int) (den : Nat), F64.ofRat num den = F64.round (decide (num < 0)) (2 ^ 1074 * num.natAbs) den

/-- 00_scope.md R13: what rounding gives is a binary64 value: an infinity, or a finite value of the format, never a NaN. -/
def Obligations.RoundingGivesBinary64 : Prop :=
  ∀ (neg : Bool) (num den : Nat), 0 < den → (F64.round neg num den).wf = true ∧ F64.round neg num den ≠ .nan

/-- 42_twos_complement.md R150: the two branches of the pseudocode, in either datapath, and the malformed operands. Under
BINARY64_RNE the sign of a zero is that of the rounded product, so all zeros with a negative lsb give -0 (log entry 28,
DEDUCED); under EXACT the operand is the real number its pattern stands for (log entry 29). -/
def Obligations.TcDecodeFollowsSignBit : Prop :=
  ∀ (b : BitSeq) (x : BitVec 64) (s : State),
    (1 ≤ b.length → b.length ≤ 32 → (F64.ofBits x).isFinite = true →
      (s.num = .binary64 → ∃ t, exec (.tcDecode b x) s = .next t ∧ s.OnlyResponds t (.ok (.real (.b64
        (if b.headD false = false then F64.mul (F64.ofBits x) (F64.ofRat (uint b) 1)
         else F64.mul (F64.neg (F64.ofBits x)) (F64.ofRat (uint (b.map (fun d => !d)) + 1) 1)))))) ∧
      (s.num = .exact → ∃ v t, exec (.tcDecode b x) s = .next t ∧ s.OnlyResponds t (.ok (.real v)) ∧ v.IsReal
        (if b.headD false = false then s.operand x * (uint b : ℝ)
         else -s.operand x * ((uint (b.map (fun d => !d)) : ℝ) + 1)))) ∧
    (b.length = 0 ∨ 32 < b.length ∨ (F64.ofBits x).isFinite = false →
      ∃ t, exec (.tcDecode b x) s = .next t ∧ s.OnlyResponds t (.fault .malformedInput))

/-- 42_twos_complement.md R151: TC_DECODE is the product with the two's-complement value, rounded once under BINARY64_RNE and
not at all under EXACT. -/
def Obligations.TcDecodeIsProductWithSint : Prop :=
  (∀ (b : BitSeq) (lsb : F64), 1 ≤ b.length → tcDecode Num.binary64 b lsb = F64.mul lsb (F64.ofRat (sint b) 1)) ∧
  (∀ (b : BitSeq) (lsb : ℝ), 1 ≤ b.length → tcDecode Num.exact b lsb = lsb * (sint b : ℝ))

/-- 42_twos_complement.md R153, R154: the kind and the value, in either datapath; a Temperature value is exact in both. -/
def Obligations.InterpretTagsAndScales : Prop :=
  ∀ (c : AdcConfig) (d : BitSeq) (s : State),
    (d.length = 16 →
      ∃ (m : Measurement) (t : State), exec (.interpret c d) s = .next t ∧ s.OnlyResponds t (.ok (.meas m)) ∧
        (c.tempSensor = true → m.kind = .temperature ∧
          (s.num = .binary64 → ∃ x, m.value = .b64 x ∧
            x = tcDecode Num.binary64 (d.take 14) (F64.ofRat 3125 (10 ^ 5)) ∧ x.isFinite = true ∧
            x.toRat = (sint (d.take 14) : ℚ) / 32) ∧
          (s.num = .exact → m.value.IsReal ((sint (d.take 14) : ℝ) / 32))) ∧
        (c.tempSensor = false → m.kind = .voltage ∧
          (s.num = .binary64 → m.value = .b64 (tcDecode Num.binary64 d (lsbTable Num.binary64 c.gain))) ∧
          (s.num = .exact → m.value.IsReal (lsbTable Num.exact c.gain * (sint d : ℝ))))) ∧
    (d.length ≠ 16 → ∃ t, exec (.interpret c d) s = .next t ∧ s.OnlyResponds t (.fault .malformedInput))

/-! ### AdcChannel -/

/-- 43_adc_channel.md R165: EXCHANGE_SEQ. Its events in order, 128 or 130 pin events and no Sleep; what it reads and
returns; what it leaves in its registers; and that nothing else changes. -/
def Obligations.ExchangeSequence : Prop :=
  ∀ (s : State) (c : Word16),
    (s.exchange c).trace = s.trace ++ exchangeEvents s.hasCs c s.upcoming ∧
    (exchangeEvents s.hasCs c s.upcoming).length = (if s.hasCs then 130 else 128) ∧
    (exchangeEvents s.hasCs c s.upcoming).all Event.isBus = true ∧
    (s.exchange c).rawExchange = ⟨s.sampledWord 0, s.sampledWord 16⟩ ∧
    s.AfterExchange (s.exchange c) c 0 ∧ s.Sampled (s.exchange c) 32 ∧
    (s.exchange c).chan = s.chan ∧ (s.exchange c).waitMode = s.waitMode ∧ (s.exchange c).pull = s.pull ∧
    s.sameBuffers (s.exchange c) ∧ s.sameParams (s.exchange c) ∧ (s.exchange c).hostReq = s.hostReq ∧
    (s.exchange c).hostResp = s.hostResp ∧ (s.exchange c).seq = s.seq

/-- 43_adc_channel.md R161: against REF_DEV an exchange of `c` reads `c` as its echo and PEND as its data; after it PEND is
DATA(c), which the next exchange reads, one exchange late. REF_DEV's levels are the model's reading of R161 (log entry 24,
DEDUCED). -/
def Obligations.ReferenceDeviceEchoesAndLags : Prop :=
  ∀ (s : State) (d : RefDevice) (c : Word16), d.badEcho = none →
    (∀ rest : List Bool, s.din = d.answer c ++ rest →
      (s.exchange c).rawExchange = ⟨c, d.pend⟩ ∧ (s.exchange c).din = rest) ∧
    ∀ (data c2 : Word16) (rest : List Bool), s.din = d.answer c ++ ((d.after data).answer c2 ++ rest) →
      (s.exchange c).rawExchange = ⟨c, d.pend⟩ ∧ (d.after data).pend = data ∧
      ((s.exchange c).exchange c2).rawExchange = ⟨c2, data⟩ ∧ ((s.exchange c).exchange c2).din = rest

/-- 43_adc_channel.md R166. -/
def Obligations.ChExchangeReturnsRaw : Prop :=
  ∀ (b : BitSeq) (s : State),
    (b.length = 16 → s.chan = .idle →
      ∃ t, exec (.chExchange b) s = .next t ∧
        s.Answers t (.ok (.raw ⟨s.sampledWord 0, s.sampledWord 16⟩)) (exchangeEvents s.hasCs (word16 b) s.upcoming) ∧
        t.chan = .idle ∧ s.AfterExchange t (word16 b) 0 ∧ s.Sampled t 32 ∧ t.waitMode = s.waitMode ∧ t.pull = s.pull ∧
        s.sameBuffers t ∧ s.sameParams t) ∧
    (b.length ≠ 16 → ∃ t, exec (.chExchange b) s = .next t ∧ s.OnlyResponds t (.fault .malformedInput)) ∧
    (b.length = 16 → s.chan ≠ .idle →
      ∃ t, exec (.chExchange b) s = .next t ∧ s.OnlyResponds t (.fault .notInitialized))

/-- 43_adc_channel.md R167: VERIFY is the masked comparison, and it compares every field except single_shot. -/
def Obligations.VerifyComparesFields : Prop :=
  ∀ (cmd : AdcConfig) (e : Word16),
    verify cmd e = decide ((encodeConfig cmd ^^^ e) &&& 0x7FFA#16 = 0#16) ∧
    (verify cmd e = true ↔ { decodeConfig e with singleShot := cmd.singleShot } = cmd)

/-- 43_adc_channel.md R168: CH_VERIFY in any channel state. -/
def Obligations.ChVerifyChecksEcho : Prop :=
  ∀ (cmd : AdcConfig) (e : BitSeq) (s : State),
    (e.length = 16 → verify cmd (word16 e) = true →
      ∃ t, exec (.chVerify cmd e) s = .next t ∧ s.OnlyResponds t (.ok .nothing)) ∧
    (e.length = 16 → verify cmd (word16 e) = false →
      ∃ t, exec (.chVerify cmd e) s = .next t ∧ s.OnlyResponds t (.fault (.connectionFault (popcount e)))) ∧
    (e.length ≠ 16 → ∃ t, exec (.chVerify cmd e) s = .next t ∧ s.OnlyResponds t (.fault .malformedInput))

/-- 43_adc_channel.md R170, R176: CH_INIT whose flush echo verifies and whose wait ends after `w` samples of 1. It runs in any
channel state. That a Sleep completes in the step that requests it, and that each further sample of a wait is a step, is
the model's choice (log entries 1 and 14). -/
def Obligations.ChInitSucceeds : Prop :=
  ∀ (m : WaitMode) (p : BitVec 2) (s : State) (w : Nat), p ≠ 3#2 → verify probe (s.sampledWord 0) = true →
    s.WaitEnds m 32 w →
    ∃ t0 t, exec (.chInit m p) s = .next t0 ∧ steps w t0 = .next t ∧
      s.Answers t (.ok .nothing) (csEvents s.hasCs true ++
        [.pinWrite .sclk false, .sleep (s.num.ratio 30 1000), .sleepDone] ++
        exchangeEvents s.hasCs probeWord s.upcoming ++ ({ s with waitMode := m } : State).waitEvents 5 w) ∧
      t.chan = .idle ∧ t.waitMode = m ∧ t.pull.code = p ∧ s.AfterExchange t probeWord 0 ∧
      s.Sampled t (32 + waitSamples m w) ∧ s.sameBuffers t ∧ s.sameParams t

/-- 43_adc_channel.md R170, 60_exceptions.md R241, R247: CH_INIT whose flush echo does not verify responds ConnectionFault
with the popcount of the echo, runs no wait, and leaves the channel UNINIT. For the Sleep see log entry 14. -/
def Obligations.ChInitConnectionFault : Prop :=
  ∀ (m : WaitMode) (p : BitVec 2) (s : State), p ≠ 3#2 → verify probe (s.sampledWord 0) = false →
    ∃ t, exec (.chInit m p) s = .next t ∧
      s.Answers t (.fault (.connectionFault (popcount16 (s.sampledWord 0)))) (csEvents s.hasCs true ++
        [.pinWrite .sclk false, .sleep (s.num.ratio 30 1000), .sleepDone] ++ exchangeEvents s.hasCs probeWord s.upcoming) ∧
      t.chan = .uninit ∧ t.waitMode = m ∧ t.pull.code = p ∧ s.AfterExchange t probeWord 0 ∧ s.Sampled t 32 ∧
      s.sameBuffers t ∧ s.sameParams t

/-- 43_adc_channel.md R176, R177: CH_AWAIT whose wait ends: TIMED, or POLLED after `w` samples of 1. Only the host port and,
where POLL_CS is asserted, CS_N_Q are written. For the Sleep see log entry 14; that each further sample is a step is the
model's choice (log entry 1). -/
def Obligations.ChAwaitCompletes : Prop :=
  ∀ (d : BitVec 3) (s : State) (w : Nat), s.chan = .idle → s.WaitEnds s.waitMode 0 w →
    ∃ t0 t, exec (.chAwait d) s = .next t0 ∧ steps w t0 = .next t ∧ s.Answers t (.ok .nothing) (s.waitEvents d w) ∧
      t.chan = .idle ∧ t.waitMode = s.waitMode ∧ t.pull = s.pull ∧ t.sclk = s.sclk ∧ t.dout = s.dout ∧ t.tx = s.tx ∧
      t.rx = s.rx ∧ t.slot = s.slot ∧ s.sameBuffers t ∧ s.sameParams t ∧ s.Sampled t (waitSamples s.waitMode w) ∧
      t.csN = (if s.waitMode = .polled ∧ s.pollCs = .asserted then s.csN.map (fun _ => true) else s.csN)

/-- 43_adc_channel.md R176: a POLLED CH_AWAIT whose first sample reads 1 has not answered: CHAN_STATE is EXCH and the request
is still outstanding. That a step ends at such a sample is the model's choice (log entry 1). -/
def Obligations.ChAwaitWaitsWhileDinHigh : Prop :=
  ∀ (d : BitVec 3) (s : State), s.chan = .idle → s.waitMode = .polled → s.upcoming 0 = true →
    ∃ t, exec (.chAwait d) s = .next t ∧ t.chan = .exch ∧ t.seq = .polling .await ∧ t.hostReq = s.hostReq ∧
      t.hostResp = s.hostResp ∧ s.Sampled t 1 ∧
      t.trace = s.trace ++ csEvents (s.hasCs && decide (s.pollCs = .asserted)) false ++ [.pinSample true]

/-- 43_adc_channel.md R170, R180: where the first wait of a POLLED CH_INIT or CH_READ_BATCH reads 1 the operation has not
answered: CH_INIT is still UNINIT, a batch is EXCH with the other commands to come, and the request is outstanding. That
a step ends at such a sample is the model's choice (log entry 1). -/
def Obligations.InitAndBatchWaitWhileDinHigh : Prop :=
  (∀ (p : BitVec 2) (s : State), p ≠ 3#2 → verify probe (s.sampledWord 0) = true → s.upcoming 32 = true →
    ∃ t, exec (.chInit .polled p) s = .next t ∧ t.chan = .uninit ∧ t.seq = .polling .init ∧ t.waitMode = .polled ∧
      t.pull.code = p ∧ t.hostReq = s.hostReq ∧ t.hostResp = s.hostResp ∧ s.Sampled t 33) ∧
  (∀ (c : AdcConfig) (rest : List AdcConfig) (s : State), s.chan = .idle → s.waitMode = .polled → rest.length ≤ 15 →
    (s.batchAbort = .atFault → verify c (s.sampledWord 0) = true) → s.upcoming 32 = true →
    ∃ t, exec (.chReadBatch (c :: rest)) s = .next t ∧ t.chan = .exch ∧ t.seq = .polling (.batch 0 rest) ∧
      t.bn = rest.length + 1 ∧ t.bcmdAt 0 = c ∧ t.brawAt 0 = s.sampledRaw 0 ∧ t.hostReq = s.hostReq ∧
      t.hostResp = s.hostResp ∧ s.Sampled t 33)

/-- 43_adc_channel.md R170, R177, R180: what the operation does once its POLLED wait ends. CH_INIT and CH_AWAIT answer with
success, the channel IDLE; of the registers only CHAN_STATE and, where POLL_CS is asserted, CS_N_Q change. CH_READ_BATCH with
a command left sends it: under AT_FAULT it faults at once if the echo does not verify; else it is in that command's wait,
before its first sample. With none left it makes the flush exchange, pairs each command with the data of the next exchange,
and answers with the measurements, or, under AFTER_ALL, with the fault of the first echo that does not verify. That this is
one step is the model's choice (log entry 1). -/
def Obligations.EndedWaitAnswersInitAndAwait : Prop :=
  (∀ (s : State) (p : Polling), s.seq = .polling p → (p = .init ∨ p = .await) → s.upcoming 0 = false →
    ∃ t, step s = .next t ∧ t.chan = .idle ∧ s.Sampled t 1 ∧
      s.Answers t (.ok .nothing) (.pinSample false :: csEvents (s.hasCs && decide (s.pollCs = .asserted)) true) ∧
      t.csN = (if s.pollCs = .asserted then s.csN.map (fun _ => true) else s.csN) ∧ t.waitMode = s.waitMode ∧
      t.pull = s.pull ∧ t.sclk = s.sclk ∧ t.dout = s.dout ∧ t.tx = s.tx ∧ t.rx = s.rx ∧ t.slot = s.slot ∧
      s.sameBuffers t ∧ s.sameParams t) ∧
  (∀ (s : State) (k : Nat) (c : AdcConfig) (cs : List AdcConfig), s.seq = .polling (.batch k (c :: cs)) →
    s.upcoming 0 = false → k + 1 < 16 → s.batchAbort = .atFault → verify c (s.sampledWord 1) = false →
    ∃ t, step s = .next t ∧
      s.Answers t (.fault (.connectionFault (popcount16 (s.sampledWord 1)))) (.pinSample false ::
        csEvents (s.hasCs && decide (s.pollCs = .asserted)) true ++
        exchangeEvents s.hasCs (encodeConfig c) (fun i => s.upcoming (1 + i))) ∧
      t.chan = .idle ∧ t.waitMode = s.waitMode ∧ t.pull = s.pull ∧ s.AfterExchange t (encodeConfig c) 1 ∧
      s.Sampled t 33 ∧ s.sameParams t ∧ t.bn = s.bn ∧ t.bres = s.bres ∧ t.bcmdAt (k + 1) = c ∧
      t.brawAt (k + 1) = s.sampledRaw 1 ∧ ∀ j ≠ k + 1, t.bcmdAt j = s.bcmdAt j ∧ t.brawAt j = s.brawAt j) ∧
  (∀ (s : State) (k : Nat) (c : AdcConfig) (cs : List AdcConfig), s.seq = .polling (.batch k (c :: cs)) →
    s.upcoming 0 = false → k + 1 < 16 → s.waitMode = .polled →
    (s.batchAbort = .atFault → verify c (s.sampledWord 1) = true) →
    ∃ u, step s = step u ∧ u.seq = .polling (.batch (k + 1) cs) ∧
      u.trace = s.trace ++ (.pinSample false :: csEvents (s.hasCs && decide (s.pollCs = .asserted)) true ++
        exchangeEvents s.hasCs (encodeConfig c) (fun i => s.upcoming (1 + i)) ++
        csEvents (s.hasCs && decide (s.pollCs = .asserted)) false) ∧
      u.csN = s.csN.map (fun _ => decide (s.pollCs = .deasserted)) ∧
      s.AfterExchange { u with csN := s.csN.map (fun _ => true) } (encodeConfig c) 1 ∧ s.Sampled u 33 ∧
      u.chan = s.chan ∧ u.waitMode = s.waitMode ∧ u.pull = s.pull ∧ s.sameParams u ∧ u.hostReq = s.hostReq ∧
      u.hostResp = s.hostResp ∧ u.bn = s.bn ∧ u.bres = s.bres ∧ u.bcmdAt (k + 1) = c ∧
      u.brawAt (k + 1) = s.sampledRaw 1 ∧ ∀ j ≠ k + 1, u.bcmdAt j = s.bcmdAt j ∧ u.brawAt j = s.brawAt j) ∧
  ∀ (s : State) (k : Nat), s.seq = .polling (.batch k []) → s.upcoming 0 = false → s.bn ≤ 16 →
    let es := Event.pinSample false :: csEvents (s.hasCs && decide (s.pollCs = .asserted)) true ++
      exchangeEvents s.hasCs probeWord (fun i => s.upcoming (1 + i))
    let raw := fun j => if j = s.bn then s.sampledRaw 1 else s.brawAt j
    let meas := fun j => Machine.interpret s.num (s.bcmdAt j) (seq16 (raw (j + 1)).data)
    ((s.batchAbort = .afterAll → ∀ j < s.bn, verify (s.bcmdAt j) (s.brawAt j).echo = true) →
      ∃ t, step s = .next t ∧ s.Answers t (.ok (.measList ((List.range s.bn).map meas))) es ∧ t.chan = .idle ∧
        t.waitMode = s.waitMode ∧ t.pull = s.pull ∧ s.AfterExchange t probeWord 1 ∧ s.Sampled t 33 ∧ s.sameParams t ∧
        t.bn = s.bn ∧ t.bcmd = s.bcmd ∧ (∀ j, t.brawAt j = raw j) ∧
        (∀ j < s.bn, t.bres.toList[j]? = some (meas j)) ∧ ∀ j, s.bn ≤ j → t.bres.toList[j]? = s.bres.toList[j]?) ∧
    ∀ i < s.bn, s.batchAbort = .afterAll → (∀ j < i, verify (s.bcmdAt j) (s.brawAt j).echo = true) →
      verify (s.bcmdAt i) (s.brawAt i).echo = false →
      ∃ t, step s = .next t ∧ s.Answers t (.fault (.connectionFault (popcount16 (s.brawAt i).echo))) es ∧
        t.chan = .idle ∧ t.waitMode = s.waitMode ∧ t.pull = s.pull ∧ s.AfterExchange t probeWord 1 ∧ s.Sampled t 33 ∧
        s.sameParams t ∧ t.bn = s.bn ∧ t.bcmd = s.bcmd ∧ (∀ j, t.brawAt j = raw j) ∧
        (∀ j ≤ i, t.bres.toList[j]? = some (meas j)) ∧ ∀ j, i < j → t.bres.toList[j]? = s.bres.toList[j]?

/-- 43_adc_channel.md R176, 70_reset_and_hazards.md R279: a POLLED wait goes on for as long as every sample reads 1, and ends
at the first that reads 0. One sample a step is the model's choice (log entry 1). -/
def Obligations.PolledWaitEndsAtFirstZero : Prop :=
  ∀ (n : Nat) (s : State) (p : Polling), s.seq = .polling p → (∀ j < n, s.upcoming j = true) →
    ∃ t : State, steps n s = .next t ∧ t.seq = .polling p ∧ t.chan = s.chan ∧ t.hostReq = s.hostReq ∧
      t.hostResp = s.hostResp ∧ s.Sampled t n ∧ t.trace = s.trace ++ List.replicate n (.pinSample true) ∧
      (s.upcoming n = false →
        steps (n + 1) s =
          .next (State.afterWait p (if t.pollCs = .asserted then t.takeSample.writeCsN true else t.takeSample)))

/-- 43_adc_channel.md R176, R180, R181: a CH_READ_BATCH whose echoes verify and whose wait `j` ends after `w j` samples of 1
makes n + 1 exchanges and n waits, in order, and returns for command k the interpretation of the data of exchange k + 1. For
the Sleeps see log entry 14; that each further sample of a wait is a step is the model's choice (log entry 1). -/
def Obligations.ReadBatchReturnsMeasurements : Prop :=
  ∀ (cs : List AdcConfig) (s : State) (w : Nat → Nat), s.chan = .idle → 1 ≤ cs.length → cs.length ≤ 16 →
    s.BatchWaits w cs.length →
    (∀ j < cs.length, verify (cs.getD j zeroConfig) (s.sampledWord (s.batchAt w j)) = true) →
    ∃ t0 t, exec (.chReadBatch cs) s = .next t0 ∧ steps (batchSteps w cs.length) t0 = .next t ∧
      s.Answers t (.ok (.measList (s.batchMeasurements cs w)))
        (s.batchEvents cs w ++ exchangeEvents s.hasCs probeWord (fun i => s.upcoming (s.batchAt w cs.length + i))) ∧
      t.chan = .idle ∧ t.waitMode = s.waitMode ∧ t.pull = s.pull ∧ t.bn = cs.length ∧
      s.AfterExchange t probeWord (s.batchAt w cs.length) ∧ s.Sampled t (s.batchAt w cs.length + 32) ∧ s.sameParams t ∧
      (∀ j < cs.length, t.bcmdAt j = cs.getD j zeroConfig ∧ t.brawAt j = s.sampledRaw (s.batchAt w j)) ∧
      t.brawAt cs.length = s.sampledRaw (s.batchAt w cs.length) ∧
      t.bresUpTo cs.length = s.batchMeasurements cs w ∧ s.batchKeptFrom t cs.length (cs.length + 1) cs.length

/-- 43_adc_channel.md R176, R180, R181, 60_exceptions.md R241, R247, R248, BATCH_ABORT = AFTER_ALL: a CH_READ_BATCH whose wait
`j` ends after `w j` samples of 1 and in which command i is the first whose own echo does not verify responds
ConnectionFault with that echo's popcount and no result, after every exchange and wait. For the Sleeps see log entry 14; that
each further sample of a wait is a step is the model's choice (log entry 1). -/
def Obligations.ReadBatchFaultsAfterAll : Prop :=
  ∀ (cs : List AdcConfig) (s : State) (w : Nat → Nat) (i : Nat), s.chan = .idle → s.batchAbort = .afterAll →
    cs.length ≤ 16 → i < cs.length → s.BatchWaits w cs.length →
    (∀ j < i, verify (cs.getD j zeroConfig) (s.sampledWord (s.batchAt w j)) = true) →
    verify (cs.getD i zeroConfig) (s.sampledWord (s.batchAt w i)) = false →
    ∃ t0 t, exec (.chReadBatch cs) s = .next t0 ∧ steps (batchSteps w cs.length) t0 = .next t ∧
      s.Answers t (.fault (.connectionFault (popcount16 (s.sampledWord (s.batchAt w i)))))
        (s.batchEvents cs w ++ exchangeEvents s.hasCs probeWord (fun k => s.upcoming (s.batchAt w cs.length + k))) ∧
      t.chan = .idle ∧ t.waitMode = s.waitMode ∧ t.pull = s.pull ∧ t.bn = cs.length ∧
      s.AfterExchange t probeWord (s.batchAt w cs.length) ∧ s.Sampled t (s.batchAt w cs.length + 32) ∧ s.sameParams t ∧
      (∀ j < cs.length, t.bcmdAt j = cs.getD j zeroConfig ∧ t.brawAt j = s.sampledRaw (s.batchAt w j)) ∧
      t.brawAt cs.length = s.sampledRaw (s.batchAt w cs.length) ∧
      (∀ j ≤ i, t.bres.toList[j]? = (s.batchMeasurements cs w)[j]?) ∧
      s.batchKeptFrom t cs.length (cs.length + 1) (i + 1)

/-- 43_adc_channel.md R176, R180, R181, 60_exceptions.md R241, R247, R248, BATCH_ABORT = AT_FAULT: the same fault, raised
straight after exchange i, with no wait, no further exchange and no flush; wait `j` before it ends after `w j` samples of 1.
For the Sleeps see log entry 14; that each further sample of a wait is a step is the model's choice (log entry 1). -/
def Obligations.ReadBatchFaultsAtFault : Prop :=
  ∀ (cs : List AdcConfig) (s : State) (w : Nat → Nat) (i : Nat), s.chan = .idle → s.batchAbort = .atFault →
    cs.length ≤ 16 → i < cs.length → s.BatchWaits w i →
    (∀ j < i, verify (cs.getD j zeroConfig) (s.sampledWord (s.batchAt w j)) = true) →
    verify (cs.getD i zeroConfig) (s.sampledWord (s.batchAt w i)) = false →
    ∃ t0 t, exec (.chReadBatch cs) s = .next t0 ∧ steps (batchSteps w i) t0 = .next t ∧
      s.Answers t (.fault (.connectionFault (popcount16 (s.sampledWord (s.batchAt w i)))))
        (s.batchEvents (cs.take i) w ++
          exchangeEvents s.hasCs (encodeConfig (cs.getD i zeroConfig)) (fun k => s.upcoming (s.batchAt w i + k))) ∧
      t.chan = .idle ∧ t.waitMode = s.waitMode ∧ t.pull = s.pull ∧ t.bn = cs.length ∧
      s.AfterExchange t (encodeConfig (cs.getD i zeroConfig)) (s.batchAt w i) ∧ s.Sampled t (s.batchAt w i + 32) ∧
      s.sameParams t ∧ (∀ j ≤ i, t.bcmdAt j = cs.getD j zeroConfig ∧ t.brawAt j = s.sampledRaw (s.batchAt w j)) ∧
      s.batchKeptFrom t (i + 1) (i + 1) 0

/-- 43_adc_channel.md R180 (decision D18): an empty CH_READ_BATCH in IDLE answers with no measurement, makes no bus or delay
event and stays IDLE; of the registers it writes BN. -/
def Obligations.EmptyBatchMakesNoEvent : Prop :=
  ∀ s : State, s.chan = .idle →
    ∃ t, exec (.chReadBatch []) s = .next t ∧ s.Answers t (.ok (.measList [])) [] ∧ t.bn = 0 ∧
      ({ s with bn := 0 } : State).sameRegisters t

/-- 10_state.md R36, 43_adc_channel.md R170: only a CH_INIT changes WAIT_MODE or PULL, and it sets them to its operands. -/
def Obligations.OnlyChInitWritesModeAndPull : Prop :=
  ∀ s t : State, step s = .next t → t.waitMode ≠ s.waitMode ∨ t.pull ≠ s.pull →
    ∃ q m p rest, s.hostReq = some q ∧ decode q = .ok (.chInit m p, rest) ∧ p ≠ 3#2 ∧ t.waitMode = m ∧ t.pull.code = p

/-- 00_scope.md R9, R13, 43_adc_channel.md R180: no step changes HAS_CS, POLL_CS, BATCH_ABORT or NUM, or which real numbers the
operand patterns stand for. That the state holds them as data that no step writes is the model's choice (log entries 4, 5,
19 and 29). -/
def Obligations.StepKeepsParameters : Prop := ∀ s t : State, step s = .next t → s.sameParams t

/-! ### TypeKTable -/

/-- 44_typek_table.md R200: the four properties, of the spec's default table (log entry 13). -/
def Obligations.CalibrationTableProperties : Prop :=
  tkVMicro.length = 165 ∧ (∀ i : Nat, tkTInt i = -270 + 10 * (i : Int)) ∧ tkTInt 164 = 1370 ∧
  (∀ i : Nat, i < 164 → tkVMicro.getD i 0 < tkVMicro.getD (i + 1) 0) ∧
  tkVMicro.getD 0 0 = -6458 ∧ tkVMicro.getD 27 0 = 0 ∧ tkVMicro.getD 28 0 = 397 ∧ tkVMicro.getD 164 0 = 54819

/-- 44_typek_table.md R202: on any strictly increasing table, of reals or of binary64 values, the bracket is the unique
half-open one. -/
def Obligations.BracketIsUnique : Prop :=
  (∀ (A : Nat → ℝ) (x : ℝ), (∀ i < 164, A i < A (i + 1)) → A 0 ≤ x → x < A 164 →
    (bracket Num.exact A x ≤ 163 ∧ A (bracket Num.exact A x) ≤ x ∧ x < A (bracket Num.exact A x + 1)) ∧
    ∀ i ≤ 163, A i ≤ x → x < A (i + 1) → i = bracket Num.exact A x) ∧
  ∀ (A : Nat → F64) (x : F64), (∀ i < 164, F64.lt (A i) (A (i + 1)) = true) → F64.le (A 0) x = true →
    F64.lt x (A 164) = true →
    (bracket Num.binary64 A x ≤ 163 ∧ F64.le (A (bracket Num.binary64 A x)) x = true ∧
      F64.lt x (A (bracket Num.binary64 A x + 1)) = true) ∧
    ∀ i ≤ 163, F64.le (A i) x = true → F64.lt x (A (i + 1)) = true → i = bracket Num.binary64 A x

/-- 44_typek_table.md R205: the domain, the bracket of t, the interpolation in the order written, and OutOfRange outside.
Under EXACT the operand is the real number its pattern stands for, any real (log entry 29). -/
def Obligations.TkT2mvInterpolates : Prop :=
  (∀ (x : BitVec 64) (s : State), (F64.ofBits x).isFinite = false →
    ∃ t, exec (.tkT2mv x) s = .next t ∧ s.OnlyResponds t (.fault .malformedInput)) ∧
  (∀ (x : BitVec 64) (s : State), (F64.ofBits x).isFinite = true → s.num = .binary64 →
    (F64.le (F64.ofRat (-270) 1) (F64.ofBits x) = true → F64.lt (F64.ofBits x) (F64.ofRat 1370 1) = true →
      ∃ i t, i ≤ 163 ∧ F64.le (F64.ofRat (tkTInt i) 1) (F64.ofBits x) = true ∧
        F64.lt (F64.ofBits x) (F64.ofRat (tkTInt (i + 1)) 1) = true ∧ exec (.tkT2mv x) s = .next t ∧
        s.OnlyResponds t (.ok (.real (.b64 (F64.add (tkV Num.binary64 i)
          (F64.div (F64.mul (F64.sub (F64.ofBits x) (F64.ofRat (tkTInt i) 1))
            (F64.sub (tkV Num.binary64 (i + 1)) (tkV Num.binary64 i))) (F64.ofRat 10 1))))))) ∧
    (¬(F64.le (F64.ofRat (-270) 1) (F64.ofBits x) = true ∧ F64.lt (F64.ofBits x) (F64.ofRat 1370 1) = true) →
      ∃ t, exec (.tkT2mv x) s = .next t ∧ s.OnlyResponds t (.fault .outOfRange))) ∧
  ∀ (x : BitVec 64) (s : State), (F64.ofBits x).isFinite = true → s.num = .exact →
    (-270 ≤ s.operand x → s.operand x < 1370 →
      ∃ i v t, i ≤ 163 ∧ (tkTInt i : ℝ) ≤ s.operand x ∧ s.operand x < (tkTInt (i + 1) : ℝ) ∧
        exec (.tkT2mv x) s = .next t ∧ s.OnlyResponds t (.ok (.real v)) ∧
        v.IsReal (tkV Num.exact i +
          (s.operand x - (tkTInt i : ℝ)) * (tkV Num.exact (i + 1) - tkV Num.exact i) / 10)) ∧
    (¬(-270 ≤ s.operand x ∧ s.operand x < 1370) →
      ∃ t, exec (.tkT2mv x) s = .next t ∧ s.OnlyResponds t (.fault .outOfRange))

/-- 44_typek_table.md R206: the domain, the bracket of mv, the interpolation in the order written, and OutOfRange outside.
Under EXACT the operand is the real number its pattern stands for, any real (log entry 29). -/
def Obligations.TkMv2tInterpolates : Prop :=
  (∀ (x : BitVec 64) (s : State), (F64.ofBits x).isFinite = false →
    ∃ t, exec (.tkMv2t x) s = .next t ∧ s.OnlyResponds t (.fault .malformedInput)) ∧
  (∀ (x : BitVec 64) (s : State), (F64.ofBits x).isFinite = true → s.num = .binary64 →
    (F64.le (F64.ofRat (-6458) 1000) (F64.ofBits x) = true → F64.lt (F64.ofBits x) (F64.ofRat 54819 1000) = true →
      ∃ i t, i ≤ 163 ∧ F64.le (tkV Num.binary64 i) (F64.ofBits x) = true ∧
        F64.lt (F64.ofBits x) (tkV Num.binary64 (i + 1)) = true ∧ exec (.tkMv2t x) s = .next t ∧
        s.OnlyResponds t (.ok (.real (.b64 (F64.add (F64.ofRat (tkTInt i) 1)
          (F64.div (F64.mul (F64.ofRat 10 1) (F64.sub (F64.ofBits x) (tkV Num.binary64 i)))
            (F64.sub (tkV Num.binary64 (i + 1)) (tkV Num.binary64 i)))))))) ∧
    (¬(F64.le (F64.ofRat (-6458) 1000) (F64.ofBits x) = true ∧ F64.lt (F64.ofBits x) (F64.ofRat 54819 1000) = true) →
      ∃ t, exec (.tkMv2t x) s = .next t ∧ s.OnlyResponds t (.fault .outOfRange))) ∧
  ∀ (x : BitVec 64) (s : State), (F64.ofBits x).isFinite = true → s.num = .exact →
    (-6.458 ≤ s.operand x → s.operand x < 54.819 →
      ∃ i v t, i ≤ 163 ∧ tkV Num.exact i ≤ s.operand x ∧ s.operand x < tkV Num.exact (i + 1) ∧
        exec (.tkMv2t x) s = .next t ∧ s.OnlyResponds t (.ok (.real v)) ∧
        v.IsReal ((tkTInt i : ℝ) +
          10 * (s.operand x - tkV Num.exact i) / (tkV Num.exact (i + 1) - tkV Num.exact i))) ∧
    (¬(-6.458 ≤ s.operand x ∧ s.operand x < 54.819) →
      ∃ t, exec (.tkMv2t x) s = .next t ∧ s.OnlyResponds t (.fault .outOfRange))

/-- 44_typek_table.md R205, R206: no interpolation error at a breakpoint, under BINARY64_RNE, in the spec's default table (log
entry 13). -/
def Obligations.BreakpointsAreExact : Prop :=
  ∀ i < 164, t2mv Num.binary64 (tkT Num.binary64 i) = some (tkV Num.binary64 i) ∧
    mv2t Num.binary64 (tkV Num.binary64 i) = some (tkT Num.binary64 i)

/-- 44_typek_table.md R207: under EXACT the two operations are inverses on [-270, 1370), with the spec's default table (log
entry 13). -/
def Obligations.TableOperationsInvertExactly : Prop :=
  ∀ t : ℝ, -270 ≤ t → t < 1370 → ∃ v, t2mv Num.exact t = some v ∧ mv2t Num.exact v = some t

/-! ### ColdJunctionCompensator -/

/-- 45_cold_junction.md R220: POLY's order of evaluation under BINARY64_RNE, each operation rounding; under EXACT it is the
power sum, whatever the coefficients. -/
def Obligations.PolyIsPowerSum : Prop :=
  (∀ (cs : List Dec) (x : F64), poly Num.binary64 cs x =
    (cs.foldl (fun (a : F64 × F64) c => (F64.add a.1 (F64.mul (F64.ofRat c.mant (10 ^ c.scale)) a.2), F64.mul a.2 x))
      (F64.ofRat 0 1, F64.ofRat 1 1)).1) ∧
  ∀ (cs : List Dec) (x : ℝ), poly Num.exact cs x =
    ∑ i ∈ Finset.range cs.length, ((cs.getD i ⟨0, 0⟩).mant : ℝ) / (10 : ℝ) ^ (cs.getD i ⟨0, 0⟩).scale * x ^ i

/-- 45_cold_junction.md R222: CJ_MV answers for every finite t, with no range check: the polynomial plus the Gaussian, added
last; under EXACT it is the mathematical formula of the real number the operand's pattern stands for (log entry 29). -/
def Obligations.CjMvIsPolynomialPlusGaussian : Prop :=
  (∀ (x : BitVec 64) (s : State), (F64.ofBits x).isFinite = false →
    ∃ t, exec (.cjMv x) s = .next t ∧ s.OnlyResponds t (.fault .malformedInput)) ∧
  (∀ (x : BitVec 64) (s : State), (F64.ofBits x).isFinite = true → s.num = .binary64 →
    ∃ t, exec (.cjMv x) s = .next t ∧ s.OnlyResponds t (.ok (.real (.b64 (F64.add (poly Num.binary64 cjC (F64.ofBits x))
      (F64.mul (Num.binary64.dec cjA0) (F64.exp (F64.mul (Num.binary64.dec cjA1)
        (F64.mul (F64.sub (F64.ofBits x) (Num.binary64.dec cjA2))
          (F64.sub (F64.ofBits x) (Num.binary64.dec cjA2))))))))))) ∧
  (∀ (x : BitVec 64) (s : State), (F64.ofBits x).isFinite = true → s.num = .exact →
    ∃ v t, exec (.cjMv x) s = .next t ∧ s.OnlyResponds t (.ok (.real v)) ∧
      v.IsReal (cjMillivolts Num.exact (s.operand x))) ∧
  (∀ t : ℝ, cjMillivolts Num.exact t =
    (∑ i ∈ Finset.range 10, ((cjC.getD i ⟨0, 0⟩).mant : ℝ) / (10 : ℝ) ^ (cjC.getD i ⟨0, 0⟩).scale * t ^ i) +
      (cjA0.mant : ℝ) / 10 ^ cjA0.scale *
        Real.exp ((cjA1.mant : ℝ) / 10 ^ cjA1.scale * (t - (cjA2.mant : ℝ) / 10 ^ cjA2.scale) ^ 2))

/-- 45_cold_junction.md R224: SELECT, each boundary value in the set above it, in either datapath. -/
def Obligations.SelectIsHalfOpen : Prop :=
  (∀ e : F64, F64.lt e (F64.ofRat 0 1) = true → selectRange Num.binary64 e = 0) ∧
  (∀ e : F64, F64.le (F64.ofRat 0 1) e = true → F64.lt e (F64.ofRat 20644 1000) = true →
    selectRange Num.binary64 e = 1) ∧
  (∀ e : F64, F64.le (F64.ofRat 20644 1000) e = true → selectRange Num.binary64 e = 2) ∧
  selectRange Num.binary64 (F64.ofRat 0 1) = 1 ∧ selectRange Num.binary64 (F64.ofRat 20644 1000) = 2 ∧
  (∀ e : ℝ, e < 0 → selectRange Num.exact e = 0) ∧
  (∀ e : ℝ, 0 ≤ e → e < 20.644 → selectRange Num.exact e = 1) ∧
  (∀ e : ℝ, 20.644 ≤ e → selectRange Num.exact e = 2)

/-- 45_cold_junction.md R225: the combined voltage, OutOfRange from 54.886 mV up, else the selected polynomial. A combined
voltage that is a NaN, of huge finite operands, compares false, so it is in range and uses set 2 (log entry 12, DEDUCED, and
93_implementation_defined.md U17). Under EXACT the operands are the real numbers their patterns stand for, any reals (log
entry 29). -/
def Obligations.CjLinearizeSelectsPolynomial : Prop :=
  (∀ (x y : BitVec 64) (s : State), (F64.ofBits x).isFinite = false ∨ (F64.ofBits y).isFinite = false →
    ∃ t, exec (.cjLinearize x y) s = .next t ∧ s.OnlyResponds t (.fault .malformedInput)) ∧
  (∀ (x y : BitVec 64) (s : State), (F64.ofBits x).isFinite = true → (F64.ofBits y).isFinite = true →
    s.num = .binary64 →
    let e := F64.add (cjMillivolts Num.binary64 (F64.ofBits x)) (F64.mul (F64.ofBits y) (F64.ofRat 1000 1))
    (F64.le (F64.ofRat 54886 1000) e = false →
      ∃ t, exec (.cjLinearize x y) s = .next t ∧
        s.OnlyResponds t (.ok (.real (.b64 (poly Num.binary64 (invD (selectRange Num.binary64 e)) e))))) ∧
    (F64.le (F64.ofRat 54886 1000) e = true →
      ∃ t, exec (.cjLinearize x y) s = .next t ∧ s.OnlyResponds t (.fault .outOfRange))) ∧
  ∀ (x y : BitVec 64) (s : State), (F64.ofBits x).isFinite = true → (F64.ofBits y).isFinite = true → s.num = .exact →
    let e := cjMillivolts Num.exact (s.operand x) + s.operand y * 1000
    (e < 54.886 →
      ∃ v t, exec (.cjLinearize x y) s = .next t ∧ s.OnlyResponds t (.ok (.real v)) ∧
        v.IsReal (poly Num.exact (invD (selectRange Num.exact e)) e)) ∧
    (54.886 ≤ e → ∃ t, exec (.cjLinearize x y) s = .next t ∧ s.OnlyResponds t (.fault .outOfRange))

/-- 45_cold_junction.md R226: both stages in range give the composite; the first stage is checked first. Under EXACT the
operands are the real numbers their patterns stand for, any reals (log entry 29). -/
def Obligations.TkGetTempComposesTable : Prop :=
  (∀ (x y : BitVec 64) (s : State), (F64.ofBits x).isFinite = false ∨ (F64.ofBits y).isFinite = false →
    ∃ t, exec (.tkGetTemp x y) s = .next t ∧ s.OnlyResponds t (.fault .malformedInput)) ∧
  (∀ (x y : BitVec 64) (s : State), (F64.ofBits x).isFinite = true → (F64.ofBits y).isFinite = true →
    s.num = .binary64 →
    (∀ m1 r, t2mv Num.binary64 (F64.ofBits x) = some m1 →
      mv2t Num.binary64 (F64.add m1 (F64.ofBits y)) = some r →
      ∃ t, exec (.tkGetTemp x y) s = .next t ∧ s.OnlyResponds t (.ok (.real (.b64 r)))) ∧
    (t2mv Num.binary64 (F64.ofBits x) = none →
      ∃ t, exec (.tkGetTemp x y) s = .next t ∧ s.OnlyResponds t (.fault .outOfRange)) ∧
    (∀ m1, t2mv Num.binary64 (F64.ofBits x) = some m1 → mv2t Num.binary64 (F64.add m1 (F64.ofBits y)) = none →
      ∃ t, exec (.tkGetTemp x y) s = .next t ∧ s.OnlyResponds t (.fault .outOfRange))) ∧
  ∀ (x y : BitVec 64) (s : State), (F64.ofBits x).isFinite = true → (F64.ofBits y).isFinite = true → s.num = .exact →
    (∀ m1 r, t2mv Num.exact (s.operand x) = some m1 → mv2t Num.exact (m1 + s.operand y) = some r →
      ∃ v t, exec (.tkGetTemp x y) s = .next t ∧ s.OnlyResponds t (.ok (.real v)) ∧ v.IsReal r) ∧
    (t2mv Num.exact (s.operand x) = none →
      ∃ t, exec (.tkGetTemp x y) s = .next t ∧ s.OnlyResponds t (.fault .outOfRange)) ∧
    (∀ m1, t2mv Num.exact (s.operand x) = some m1 → mv2t Num.exact (m1 + s.operand y) = none →
      ∃ t, exec (.tkGetTemp x y) s = .next t ∧ s.OnlyResponds t (.fault .outOfRange))

/-! ### Reset and the invariant -/

/-- 10_state.md R47, 70_reset_and_hazards.md R270: the values the spec gives for reset. HAS_CS is free (log entry 4); POLL_CS
and BATCH_ABORT are the spec's defaults and NUM its reference instance, held as data (log entries 5 and 19). -/
def Obligations.ResetValues : Prop :=
  State.reset.chan = .uninit ∧ State.reset.pull = .none ∧ State.reset.sclk = false ∧ State.reset.dout = false ∧
  State.reset.hasCs = Config.hasCs ∧ (State.reset.hasCs = true → State.reset.csN = some true) ∧
  State.reset.hostReq = none ∧ State.reset.pollCs = .deasserted ∧ State.reset.batchAbort = .afterAll ∧
  State.reset.num = .binary64

/-- The invariant holds at reset; SLOT and BN are 0 there by the model's choice (log entries 7 and 8). -/
def Obligations.InvHoldsAtReset : Prop := State.reset.Inv

/-- The invariant is kept by every step (10_state.md R35, R37, R39, R40, 60_exceptions.md R244). Its clauses on a POLLED wait
rest on the model's choice of a step (log entry 1). -/
def Obligations.StepKeepsInv : Prop := ∀ s t : State, s.Inv → step s = .next t → t.Inv

/-- In every reachable state the invariant holds, whatever the block's parameters (log entries 5 and 19); the reset state has
the model's values (log entries 7 and 8). -/
def Obligations.ReachableStatesMeetInv : Prop := ∀ s : State, Reachable s → s.Inv
end

