-- ==== Sys2Proof/Laws/Bits.lean ====
section
/-! SUPPORT. Lemmas of the sequence functions of 00_scope.md R12 and of the record readers of 30_encoding.md R92. -/

namespace Sys2Proof

@[simp] theorem length_toBits (n v : Nat) : (toBits n v).length = n := by
  induction n with
  | zero => rfl
  | succ n ih => simp [toBits, ih]

theorem uint_lt (s : BitSeq) : uint s < 2 ^ s.length := by
  induction s with
  | nil => simp [uint]
  | cons b s ih => cases b <;> simp [uint, Nat.pow_succ] <;> omega

/-- `uint(seq_n(v)) = v mod 2^n`. -/
theorem uint_toBits (n v : Nat) : uint (toBits n v) = v % 2 ^ n := by
  induction n with
  | zero => simp [toBits, uint, Nat.mod_one]
  | succ n ih => rw [toBits, uint, length_toBits, ih, Nat.mod_pow_succ, Nat.toNat_testBit]; ring

theorem toBits_testBit_congr {n v w : Nat} (h : ∀ i < n, v.testBit i = w.testBit i) : toBits n v = toBits n w := by
  induction n with
  | zero => rfl
  | succ n ih => rw [toBits, toBits, h n (by omega), ih fun i hi => h i (by omega)]

@[simp] theorem toBits_mod (n v : Nat) : toBits n (v % 2 ^ n) = toBits n v :=
  toBits_testBit_congr fun i hi => by simp [Nat.testBit_mod_two_pow, hi]

/-- `seq_n(uint(s)) = s` for a sequence of length n. -/
theorem toBits_uint (s : BitSeq) : toBits s.length (uint s) = s := by
  induction s with
  | nil => rfl
  | cons b s ih =>
    have hlt := uint_lt s
    rw [List.length_cons, toBits, uint, Nat.mul_comm, Nat.testBit_two_pow_mul_add _ hlt, if_neg (by omega), Nat.sub_self,
      toBits_testBit_congr (w := uint s) fun i hi => by rw [Nat.testBit_two_pow_mul_add _ hlt, if_pos hi], ih]
    cases b <;> rfl

theorem uint_append (s t : BitSeq) : uint (s ++ t) = uint s * 2 ^ t.length + uint t := by
  induction s with
  | nil => simp [uint]
  | cons b s ih => simp [uint, ih, Nat.pow_add]; ring

/-- Reading a field of `n` bits that stands first. -/
theorem readNat_append {n : Nat} (s t : BitSeq) (h : s.length = n) : readNat n (s ++ t) = some (uint s, t) := by
  subst h; simp [readNat]

@[simp] theorem readNat_toBits (n v : Nat) (t : BitSeq) : readNat n (toBits n v ++ t) = some (v % 2 ^ n, t) := by
  rw [readNat_append _ _ (length_toBits n v), uint_toBits]

/-- BITS_TO_INT's loop computes `uint` (40_bitcodec.md R121). -/
theorem bitsToInt_foldl (s : BitSeq) (r : Nat) :
    s.foldl (fun r b => 2 * r + b.toNat) r = r * 2 ^ s.length + uint s := by
  induction s generalizing r with
  | nil => simp [uint]
  | cons b s ih => rw [List.foldl_cons, ih, uint, List.length_cons, Nat.pow_succ]; ring

end Sys2Proof
end

