-- ==== Sys2Proof/Laws/State.lean ====
section
/-! SUPPORT. The small lemmas of the named register and port operations: one per field and operation. -/

namespace Sys2Proof.Machine

variable (s : State)

/-! ### Operations that are another one by definition -/

@[simp] theorem State.succeed_eq (p : Payload) : s.succeed p = s.respond (.ok p) := rfl

@[simp] theorem State.raise_eq (f : HostFault) : s.raise f = s.respond (.fault f) := rfl

@[simp] theorem State.finishIdle_eq (p : Payload) : s.finishIdle p = (s.setChan .idle).respond (.ok p) := rfl

@[simp] theorem State.raiseConnection_eq (e : Word16) :
    s.raiseConnection e = s.respond (.fault (.connectionFault (popcount16 e))) := rfl

@[simp] theorem State.batchFault_eq (e : Word16) :
    s.batchFault e = (s.setChan .idle).respond (.fault (.connectionFault (popcount16 e))) := rfl

/-! ### setChan -/

@[simp] theorem State.setChan_chan (c : ChanState) : (s.setChan c).chan = c := rfl
@[simp] theorem State.setChan_waitMode (c : ChanState) : (s.setChan c).waitMode = s.waitMode := rfl
@[simp] theorem State.setChan_pull (c : ChanState) : (s.setChan c).pull = s.pull := rfl
@[simp] theorem State.setChan_sclk (c : ChanState) : (s.setChan c).sclk = s.sclk := rfl
@[simp] theorem State.setChan_dout (c : ChanState) : (s.setChan c).dout = s.dout := rfl
@[simp] theorem State.setChan_csN (c : ChanState) : (s.setChan c).csN = s.csN := rfl
@[simp] theorem State.setChan_tx (c : ChanState) : (s.setChan c).tx = s.tx := rfl
@[simp] theorem State.setChan_rx (c : ChanState) : (s.setChan c).rx = s.rx := rfl
@[simp] theorem State.setChan_slot (c : ChanState) : (s.setChan c).slot = s.slot := rfl
@[simp] theorem State.setChan_bcmd (c : ChanState) : (s.setChan c).bcmd = s.bcmd := rfl
@[simp] theorem State.setChan_braw (c : ChanState) : (s.setChan c).braw = s.braw := rfl
@[simp] theorem State.setChan_bres (c : ChanState) : (s.setChan c).bres = s.bres := rfl
@[simp] theorem State.setChan_bn (c : ChanState) : (s.setChan c).bn = s.bn := rfl
@[simp] theorem State.setChan_hostReq (c : ChanState) : (s.setChan c).hostReq = s.hostReq := rfl
@[simp] theorem State.setChan_hostResp (c : ChanState) : (s.setChan c).hostResp = s.hostResp := rfl
@[simp] theorem State.setChan_seq (c : ChanState) : (s.setChan c).seq = s.seq := rfl
@[simp] theorem State.setChan_pollCs (c : ChanState) : (s.setChan c).pollCs = s.pollCs := rfl
@[simp] theorem State.setChan_batchAbort (c : ChanState) : (s.setChan c).batchAbort = s.batchAbort := rfl
@[simp] theorem State.setChan_num (c : ChanState) : (s.setChan c).num = s.num := rfl
@[simp] theorem State.setChan_reals (c : ChanState) : (s.setChan c).reals = s.reals := rfl
@[simp] theorem State.setChan_din (c : ChanState) : (s.setChan c).din = s.din := rfl
@[simp] theorem State.setChan_drawn (c : ChanState) : (s.setChan c).drawn = s.drawn := rfl
@[simp] theorem State.setChan_trace (c : ChanState) : (s.setChan c).trace = s.trace := rfl

/-! ### setModePull -/

@[simp] theorem State.setModePull_chan (m : WaitMode) (p : Pull) : (s.setModePull m p).chan = s.chan := rfl
@[simp] theorem State.setModePull_waitMode (m : WaitMode) (p : Pull) : (s.setModePull m p).waitMode = m := rfl
@[simp] theorem State.setModePull_pull (m : WaitMode) (p : Pull) : (s.setModePull m p).pull = p := rfl
@[simp] theorem State.setModePull_sclk (m : WaitMode) (p : Pull) : (s.setModePull m p).sclk = s.sclk := rfl
@[simp] theorem State.setModePull_dout (m : WaitMode) (p : Pull) : (s.setModePull m p).dout = s.dout := rfl
@[simp] theorem State.setModePull_csN (m : WaitMode) (p : Pull) : (s.setModePull m p).csN = s.csN := rfl
@[simp] theorem State.setModePull_tx (m : WaitMode) (p : Pull) : (s.setModePull m p).tx = s.tx := rfl
@[simp] theorem State.setModePull_rx (m : WaitMode) (p : Pull) : (s.setModePull m p).rx = s.rx := rfl
@[simp] theorem State.setModePull_slot (m : WaitMode) (p : Pull) : (s.setModePull m p).slot = s.slot := rfl
@[simp] theorem State.setModePull_bcmd (m : WaitMode) (p : Pull) : (s.setModePull m p).bcmd = s.bcmd := rfl
@[simp] theorem State.setModePull_braw (m : WaitMode) (p : Pull) : (s.setModePull m p).braw = s.braw := rfl
@[simp] theorem State.setModePull_bres (m : WaitMode) (p : Pull) : (s.setModePull m p).bres = s.bres := rfl
@[simp] theorem State.setModePull_bn (m : WaitMode) (p : Pull) : (s.setModePull m p).bn = s.bn := rfl
@[simp] theorem State.setModePull_hostReq (m : WaitMode) (p : Pull) : (s.setModePull m p).hostReq = s.hostReq := rfl
@[simp] theorem State.setModePull_hostResp (m : WaitMode) (p : Pull) : (s.setModePull m p).hostResp = s.hostResp := rfl
@[simp] theorem State.setModePull_seq (m : WaitMode) (p : Pull) : (s.setModePull m p).seq = s.seq := rfl
@[simp] theorem State.setModePull_pollCs (m : WaitMode) (p : Pull) : (s.setModePull m p).pollCs = s.pollCs := rfl
@[simp] theorem State.setModePull_batchAbort (m : WaitMode) (p : Pull) :
    (s.setModePull m p).batchAbort = s.batchAbort := rfl
@[simp] theorem State.setModePull_num (m : WaitMode) (p : Pull) :
    (s.setModePull m p).num = s.num := rfl
@[simp] theorem State.setModePull_reals (m : WaitMode) (p : Pull) :
    (s.setModePull m p).reals = s.reals := rfl
@[simp] theorem State.setModePull_din (m : WaitMode) (p : Pull) : (s.setModePull m p).din = s.din := rfl
@[simp] theorem State.setModePull_drawn (m : WaitMode) (p : Pull) : (s.setModePull m p).drawn = s.drawn := rfl
@[simp] theorem State.setModePull_trace (m : WaitMode) (p : Pull) : (s.setModePull m p).trace = s.trace := rfl

/-! ### suspend -/

@[simp] theorem State.suspend_chan (p : Polling) : (s.suspend p).chan = s.chan := rfl
@[simp] theorem State.suspend_waitMode (p : Polling) : (s.suspend p).waitMode = s.waitMode := rfl
@[simp] theorem State.suspend_pull (p : Polling) : (s.suspend p).pull = s.pull := rfl
@[simp] theorem State.suspend_sclk (p : Polling) : (s.suspend p).sclk = s.sclk := rfl
@[simp] theorem State.suspend_dout (p : Polling) : (s.suspend p).dout = s.dout := rfl
@[simp] theorem State.suspend_csN (p : Polling) : (s.suspend p).csN = s.csN := rfl
@[simp] theorem State.suspend_tx (p : Polling) : (s.suspend p).tx = s.tx := rfl
@[simp] theorem State.suspend_rx (p : Polling) : (s.suspend p).rx = s.rx := rfl
@[simp] theorem State.suspend_slot (p : Polling) : (s.suspend p).slot = s.slot := rfl
@[simp] theorem State.suspend_bcmd (p : Polling) : (s.suspend p).bcmd = s.bcmd := rfl
@[simp] theorem State.suspend_braw (p : Polling) : (s.suspend p).braw = s.braw := rfl
@[simp] theorem State.suspend_bres (p : Polling) : (s.suspend p).bres = s.bres := rfl
@[simp] theorem State.suspend_bn (p : Polling) : (s.suspend p).bn = s.bn := rfl
@[simp] theorem State.suspend_hostReq (p : Polling) : (s.suspend p).hostReq = s.hostReq := rfl
@[simp] theorem State.suspend_hostResp (p : Polling) : (s.suspend p).hostResp = s.hostResp := rfl
@[simp] theorem State.suspend_seq (p : Polling) : (s.suspend p).seq = .polling p := rfl
@[simp] theorem State.suspend_pollCs (p : Polling) : (s.suspend p).pollCs = s.pollCs := rfl
@[simp] theorem State.suspend_batchAbort (p : Polling) : (s.suspend p).batchAbort = s.batchAbort := rfl
@[simp] theorem State.suspend_num (p : Polling) : (s.suspend p).num = s.num := rfl
@[simp] theorem State.suspend_reals (p : Polling) : (s.suspend p).reals = s.reals := rfl
@[simp] theorem State.suspend_din (p : Polling) : (s.suspend p).din = s.din := rfl
@[simp] theorem State.suspend_drawn (p : Polling) : (s.suspend p).drawn = s.drawn := rfl
@[simp] theorem State.suspend_trace (p : Polling) : (s.suspend p).trace = s.trace := rfl

/-! ### setBn -/

@[simp] theorem State.setBn_chan (n : Nat) : (s.setBn n).chan = s.chan := rfl
@[simp] theorem State.setBn_waitMode (n : Nat) : (s.setBn n).waitMode = s.waitMode := rfl
@[simp] theorem State.setBn_pull (n : Nat) : (s.setBn n).pull = s.pull := rfl
@[simp] theorem State.setBn_sclk (n : Nat) : (s.setBn n).sclk = s.sclk := rfl
@[simp] theorem State.setBn_dout (n : Nat) : (s.setBn n).dout = s.dout := rfl
@[simp] theorem State.setBn_csN (n : Nat) : (s.setBn n).csN = s.csN := rfl
@[simp] theorem State.setBn_tx (n : Nat) : (s.setBn n).tx = s.tx := rfl
@[simp] theorem State.setBn_rx (n : Nat) : (s.setBn n).rx = s.rx := rfl
@[simp] theorem State.setBn_slot (n : Nat) : (s.setBn n).slot = s.slot := rfl
@[simp] theorem State.setBn_bcmd (n : Nat) : (s.setBn n).bcmd = s.bcmd := rfl
@[simp] theorem State.setBn_braw (n : Nat) : (s.setBn n).braw = s.braw := rfl
@[simp] theorem State.setBn_bres (n : Nat) : (s.setBn n).bres = s.bres := rfl
@[simp] theorem State.setBn_bn (n : Nat) : (s.setBn n).bn = n := rfl
@[simp] theorem State.setBn_hostReq (n : Nat) : (s.setBn n).hostReq = s.hostReq := rfl
@[simp] theorem State.setBn_hostResp (n : Nat) : (s.setBn n).hostResp = s.hostResp := rfl
@[simp] theorem State.setBn_seq (n : Nat) : (s.setBn n).seq = s.seq := rfl
@[simp] theorem State.setBn_pollCs (n : Nat) : (s.setBn n).pollCs = s.pollCs := rfl
@[simp] theorem State.setBn_batchAbort (n : Nat) : (s.setBn n).batchAbort = s.batchAbort := rfl
@[simp] theorem State.setBn_num (n : Nat) : (s.setBn n).num = s.num := rfl
@[simp] theorem State.setBn_reals (n : Nat) : (s.setBn n).reals = s.reals := rfl
@[simp] theorem State.setBn_din (n : Nat) : (s.setBn n).din = s.din := rfl
@[simp] theorem State.setBn_drawn (n : Nat) : (s.setBn n).drawn = s.drawn := rfl
@[simp] theorem State.setBn_trace (n : Nat) : (s.setBn n).trace = s.trace := rfl

/-! ### setBcmd -/

@[simp] theorem State.setBcmd_chan (k : Nat) (c : AdcConfig) : (s.setBcmd k c).chan = s.chan := rfl
@[simp] theorem State.setBcmd_waitMode (k : Nat) (c : AdcConfig) : (s.setBcmd k c).waitMode = s.waitMode := rfl
@[simp] theorem State.setBcmd_pull (k : Nat) (c : AdcConfig) : (s.setBcmd k c).pull = s.pull := rfl
@[simp] theorem State.setBcmd_sclk (k : Nat) (c : AdcConfig) : (s.setBcmd k c).sclk = s.sclk := rfl
@[simp] theorem State.setBcmd_dout (k : Nat) (c : AdcConfig) : (s.setBcmd k c).dout = s.dout := rfl
@[simp] theorem State.setBcmd_csN (k : Nat) (c : AdcConfig) : (s.setBcmd k c).csN = s.csN := rfl
@[simp] theorem State.setBcmd_tx (k : Nat) (c : AdcConfig) : (s.setBcmd k c).tx = s.tx := rfl
@[simp] theorem State.setBcmd_rx (k : Nat) (c : AdcConfig) : (s.setBcmd k c).rx = s.rx := rfl
@[simp] theorem State.setBcmd_slot (k : Nat) (c : AdcConfig) : (s.setBcmd k c).slot = s.slot := rfl
@[simp] theorem State.setBcmd_bcmd (k : Nat) (c : AdcConfig) : (s.setBcmd k c).bcmd = s.bcmd.setIfInBounds k c := rfl
@[simp] theorem State.setBcmd_braw (k : Nat) (c : AdcConfig) : (s.setBcmd k c).braw = s.braw := rfl
@[simp] theorem State.setBcmd_bres (k : Nat) (c : AdcConfig) : (s.setBcmd k c).bres = s.bres := rfl
@[simp] theorem State.setBcmd_bn (k : Nat) (c : AdcConfig) : (s.setBcmd k c).bn = s.bn := rfl
@[simp] theorem State.setBcmd_hostReq (k : Nat) (c : AdcConfig) : (s.setBcmd k c).hostReq = s.hostReq := rfl
@[simp] theorem State.setBcmd_hostResp (k : Nat) (c : AdcConfig) : (s.setBcmd k c).hostResp = s.hostResp := rfl
@[simp] theorem State.setBcmd_seq (k : Nat) (c : AdcConfig) : (s.setBcmd k c).seq = s.seq := rfl
@[simp] theorem State.setBcmd_pollCs (k : Nat) (c : AdcConfig) : (s.setBcmd k c).pollCs = s.pollCs := rfl
@[simp] theorem State.setBcmd_batchAbort (k : Nat) (c : AdcConfig) : (s.setBcmd k c).batchAbort = s.batchAbort := rfl
@[simp] theorem State.setBcmd_num (k : Nat) (c : AdcConfig) : (s.setBcmd k c).num = s.num := rfl
@[simp] theorem State.setBcmd_reals (k : Nat) (c : AdcConfig) : (s.setBcmd k c).reals = s.reals := rfl
@[simp] theorem State.setBcmd_din (k : Nat) (c : AdcConfig) : (s.setBcmd k c).din = s.din := rfl
@[simp] theorem State.setBcmd_drawn (k : Nat) (c : AdcConfig) : (s.setBcmd k c).drawn = s.drawn := rfl
@[simp] theorem State.setBcmd_trace (k : Nat) (c : AdcConfig) : (s.setBcmd k c).trace = s.trace := rfl

/-! ### setBraw -/

@[simp] theorem State.setBraw_chan (k : Nat) (r : RawExchange) : (s.setBraw k r).chan = s.chan := rfl
@[simp] theorem State.setBraw_waitMode (k : Nat) (r : RawExchange) : (s.setBraw k r).waitMode = s.waitMode := rfl
@[simp] theorem State.setBraw_pull (k : Nat) (r : RawExchange) : (s.setBraw k r).pull = s.pull := rfl
@[simp] theorem State.setBraw_sclk (k : Nat) (r : RawExchange) : (s.setBraw k r).sclk = s.sclk := rfl
@[simp] theorem State.setBraw_dout (k : Nat) (r : RawExchange) : (s.setBraw k r).dout = s.dout := rfl
@[simp] theorem State.setBraw_csN (k : Nat) (r : RawExchange) : (s.setBraw k r).csN = s.csN := rfl
@[simp] theorem State.setBraw_tx (k : Nat) (r : RawExchange) : (s.setBraw k r).tx = s.tx := rfl
@[simp] theorem State.setBraw_rx (k : Nat) (r : RawExchange) : (s.setBraw k r).rx = s.rx := rfl
@[simp] theorem State.setBraw_slot (k : Nat) (r : RawExchange) : (s.setBraw k r).slot = s.slot := rfl
@[simp] theorem State.setBraw_bcmd (k : Nat) (r : RawExchange) : (s.setBraw k r).bcmd = s.bcmd := rfl
@[simp] theorem State.setBraw_braw (k : Nat) (r : RawExchange) : (s.setBraw k r).braw = s.braw.setIfInBounds k r := rfl
@[simp] theorem State.setBraw_bres (k : Nat) (r : RawExchange) : (s.setBraw k r).bres = s.bres := rfl
@[simp] theorem State.setBraw_bn (k : Nat) (r : RawExchange) : (s.setBraw k r).bn = s.bn := rfl
@[simp] theorem State.setBraw_hostReq (k : Nat) (r : RawExchange) : (s.setBraw k r).hostReq = s.hostReq := rfl
@[simp] theorem State.setBraw_hostResp (k : Nat) (r : RawExchange) : (s.setBraw k r).hostResp = s.hostResp := rfl
@[simp] theorem State.setBraw_seq (k : Nat) (r : RawExchange) : (s.setBraw k r).seq = s.seq := rfl
@[simp] theorem State.setBraw_pollCs (k : Nat) (r : RawExchange) : (s.setBraw k r).pollCs = s.pollCs := rfl
@[simp] theorem State.setBraw_batchAbort (k : Nat) (r : RawExchange) : (s.setBraw k r).batchAbort = s.batchAbort := rfl
@[simp] theorem State.setBraw_num (k : Nat) (r : RawExchange) : (s.setBraw k r).num = s.num := rfl
@[simp] theorem State.setBraw_reals (k : Nat) (r : RawExchange) : (s.setBraw k r).reals = s.reals := rfl
@[simp] theorem State.setBraw_din (k : Nat) (r : RawExchange) : (s.setBraw k r).din = s.din := rfl
@[simp] theorem State.setBraw_drawn (k : Nat) (r : RawExchange) : (s.setBraw k r).drawn = s.drawn := rfl
@[simp] theorem State.setBraw_trace (k : Nat) (r : RawExchange) : (s.setBraw k r).trace = s.trace := rfl

/-! ### setBres -/

@[simp] theorem State.setBres_chan (k : Nat) (m : Measurement) : (s.setBres k m).chan = s.chan := rfl
@[simp] theorem State.setBres_waitMode (k : Nat) (m : Measurement) : (s.setBres k m).waitMode = s.waitMode := rfl
@[simp] theorem State.setBres_pull (k : Nat) (m : Measurement) : (s.setBres k m).pull = s.pull := rfl
@[simp] theorem State.setBres_sclk (k : Nat) (m : Measurement) : (s.setBres k m).sclk = s.sclk := rfl
@[simp] theorem State.setBres_dout (k : Nat) (m : Measurement) : (s.setBres k m).dout = s.dout := rfl
@[simp] theorem State.setBres_csN (k : Nat) (m : Measurement) : (s.setBres k m).csN = s.csN := rfl
@[simp] theorem State.setBres_tx (k : Nat) (m : Measurement) : (s.setBres k m).tx = s.tx := rfl
@[simp] theorem State.setBres_rx (k : Nat) (m : Measurement) : (s.setBres k m).rx = s.rx := rfl
@[simp] theorem State.setBres_slot (k : Nat) (m : Measurement) : (s.setBres k m).slot = s.slot := rfl
@[simp] theorem State.setBres_bcmd (k : Nat) (m : Measurement) : (s.setBres k m).bcmd = s.bcmd := rfl
@[simp] theorem State.setBres_braw (k : Nat) (m : Measurement) : (s.setBres k m).braw = s.braw := rfl
@[simp] theorem State.setBres_bres (k : Nat) (m : Measurement) : (s.setBres k m).bres = s.bres.setIfInBounds k m := rfl
@[simp] theorem State.setBres_bn (k : Nat) (m : Measurement) : (s.setBres k m).bn = s.bn := rfl
@[simp] theorem State.setBres_hostReq (k : Nat) (m : Measurement) : (s.setBres k m).hostReq = s.hostReq := rfl
@[simp] theorem State.setBres_hostResp (k : Nat) (m : Measurement) : (s.setBres k m).hostResp = s.hostResp := rfl
@[simp] theorem State.setBres_seq (k : Nat) (m : Measurement) : (s.setBres k m).seq = s.seq := rfl
@[simp] theorem State.setBres_pollCs (k : Nat) (m : Measurement) : (s.setBres k m).pollCs = s.pollCs := rfl
@[simp] theorem State.setBres_batchAbort (k : Nat) (m : Measurement) : (s.setBres k m).batchAbort = s.batchAbort := rfl
@[simp] theorem State.setBres_num (k : Nat) (m : Measurement) : (s.setBres k m).num = s.num := rfl
@[simp] theorem State.setBres_reals (k : Nat) (m : Measurement) : (s.setBres k m).reals = s.reals := rfl
@[simp] theorem State.setBres_din (k : Nat) (m : Measurement) : (s.setBres k m).din = s.din := rfl
@[simp] theorem State.setBres_drawn (k : Nat) (m : Measurement) : (s.setBres k m).drawn = s.drawn := rfl
@[simp] theorem State.setBres_trace (k : Nat) (m : Measurement) : (s.setBres k m).trace = s.trace := rfl

/-! ### log -/

@[simp] theorem State.log_chan (e : Event) : (s.log e).chan = s.chan := rfl
@[simp] theorem State.log_waitMode (e : Event) : (s.log e).waitMode = s.waitMode := rfl
@[simp] theorem State.log_pull (e : Event) : (s.log e).pull = s.pull := rfl
@[simp] theorem State.log_sclk (e : Event) : (s.log e).sclk = s.sclk := rfl
@[simp] theorem State.log_dout (e : Event) : (s.log e).dout = s.dout := rfl
@[simp] theorem State.log_csN (e : Event) : (s.log e).csN = s.csN := rfl
@[simp] theorem State.log_tx (e : Event) : (s.log e).tx = s.tx := rfl
@[simp] theorem State.log_rx (e : Event) : (s.log e).rx = s.rx := rfl
@[simp] theorem State.log_slot (e : Event) : (s.log e).slot = s.slot := rfl
@[simp] theorem State.log_bcmd (e : Event) : (s.log e).bcmd = s.bcmd := rfl
@[simp] theorem State.log_braw (e : Event) : (s.log e).braw = s.braw := rfl
@[simp] theorem State.log_bres (e : Event) : (s.log e).bres = s.bres := rfl
@[simp] theorem State.log_bn (e : Event) : (s.log e).bn = s.bn := rfl
@[simp] theorem State.log_hostReq (e : Event) : (s.log e).hostReq = s.hostReq := rfl
@[simp] theorem State.log_hostResp (e : Event) : (s.log e).hostResp = s.hostResp := rfl
@[simp] theorem State.log_seq (e : Event) : (s.log e).seq = s.seq := rfl
@[simp] theorem State.log_pollCs (e : Event) : (s.log e).pollCs = s.pollCs := rfl
@[simp] theorem State.log_batchAbort (e : Event) : (s.log e).batchAbort = s.batchAbort := rfl
@[simp] theorem State.log_num (e : Event) : (s.log e).num = s.num := rfl
@[simp] theorem State.log_reals (e : Event) : (s.log e).reals = s.reals := rfl
@[simp] theorem State.log_din (e : Event) : (s.log e).din = s.din := rfl
@[simp] theorem State.log_drawn (e : Event) : (s.log e).drawn = s.drawn := rfl
@[simp] theorem State.log_trace (e : Event) : (s.log e).trace = s.trace ++ [e] := rfl

/-! ### writeSclk -/

@[simp] theorem State.writeSclk_chan (b : Bool) : (s.writeSclk b).chan = s.chan := rfl
@[simp] theorem State.writeSclk_waitMode (b : Bool) : (s.writeSclk b).waitMode = s.waitMode := rfl
@[simp] theorem State.writeSclk_pull (b : Bool) : (s.writeSclk b).pull = s.pull := rfl
@[simp] theorem State.writeSclk_sclk (b : Bool) : (s.writeSclk b).sclk = b := rfl
@[simp] theorem State.writeSclk_dout (b : Bool) : (s.writeSclk b).dout = s.dout := rfl
@[simp] theorem State.writeSclk_csN (b : Bool) : (s.writeSclk b).csN = s.csN := rfl
@[simp] theorem State.writeSclk_tx (b : Bool) : (s.writeSclk b).tx = s.tx := rfl
@[simp] theorem State.writeSclk_rx (b : Bool) : (s.writeSclk b).rx = s.rx := rfl
@[simp] theorem State.writeSclk_slot (b : Bool) : (s.writeSclk b).slot = s.slot := rfl
@[simp] theorem State.writeSclk_bcmd (b : Bool) : (s.writeSclk b).bcmd = s.bcmd := rfl
@[simp] theorem State.writeSclk_braw (b : Bool) : (s.writeSclk b).braw = s.braw := rfl
@[simp] theorem State.writeSclk_bres (b : Bool) : (s.writeSclk b).bres = s.bres := rfl
@[simp] theorem State.writeSclk_bn (b : Bool) : (s.writeSclk b).bn = s.bn := rfl
@[simp] theorem State.writeSclk_hostReq (b : Bool) : (s.writeSclk b).hostReq = s.hostReq := rfl
@[simp] theorem State.writeSclk_hostResp (b : Bool) : (s.writeSclk b).hostResp = s.hostResp := rfl
@[simp] theorem State.writeSclk_seq (b : Bool) : (s.writeSclk b).seq = s.seq := rfl
@[simp] theorem State.writeSclk_pollCs (b : Bool) : (s.writeSclk b).pollCs = s.pollCs := rfl
@[simp] theorem State.writeSclk_batchAbort (b : Bool) : (s.writeSclk b).batchAbort = s.batchAbort := rfl
@[simp] theorem State.writeSclk_num (b : Bool) : (s.writeSclk b).num = s.num := rfl
@[simp] theorem State.writeSclk_reals (b : Bool) : (s.writeSclk b).reals = s.reals := rfl
@[simp] theorem State.writeSclk_din (b : Bool) : (s.writeSclk b).din = s.din := rfl
@[simp] theorem State.writeSclk_drawn (b : Bool) : (s.writeSclk b).drawn = s.drawn := rfl
@[simp] theorem State.writeSclk_trace (b : Bool) : (s.writeSclk b).trace = s.trace ++ [.pinWrite .sclk b] := rfl

/-! ### writeDout -/

@[simp] theorem State.writeDout_chan (b : Bool) : (s.writeDout b).chan = s.chan := rfl
@[simp] theorem State.writeDout_waitMode (b : Bool) : (s.writeDout b).waitMode = s.waitMode := rfl
@[simp] theorem State.writeDout_pull (b : Bool) : (s.writeDout b).pull = s.pull := rfl
@[simp] theorem State.writeDout_sclk (b : Bool) : (s.writeDout b).sclk = s.sclk := rfl
@[simp] theorem State.writeDout_dout (b : Bool) : (s.writeDout b).dout = b := rfl
@[simp] theorem State.writeDout_csN (b : Bool) : (s.writeDout b).csN = s.csN := rfl
@[simp] theorem State.writeDout_tx (b : Bool) : (s.writeDout b).tx = s.tx := rfl
@[simp] theorem State.writeDout_rx (b : Bool) : (s.writeDout b).rx = s.rx := rfl
@[simp] theorem State.writeDout_slot (b : Bool) : (s.writeDout b).slot = s.slot := rfl
@[simp] theorem State.writeDout_bcmd (b : Bool) : (s.writeDout b).bcmd = s.bcmd := rfl
@[simp] theorem State.writeDout_braw (b : Bool) : (s.writeDout b).braw = s.braw := rfl
@[simp] theorem State.writeDout_bres (b : Bool) : (s.writeDout b).bres = s.bres := rfl
@[simp] theorem State.writeDout_bn (b : Bool) : (s.writeDout b).bn = s.bn := rfl
@[simp] theorem State.writeDout_hostReq (b : Bool) : (s.writeDout b).hostReq = s.hostReq := rfl
@[simp] theorem State.writeDout_hostResp (b : Bool) : (s.writeDout b).hostResp = s.hostResp := rfl
@[simp] theorem State.writeDout_seq (b : Bool) : (s.writeDout b).seq = s.seq := rfl
@[simp] theorem State.writeDout_pollCs (b : Bool) : (s.writeDout b).pollCs = s.pollCs := rfl
@[simp] theorem State.writeDout_batchAbort (b : Bool) : (s.writeDout b).batchAbort = s.batchAbort := rfl
@[simp] theorem State.writeDout_num (b : Bool) : (s.writeDout b).num = s.num := rfl
@[simp] theorem State.writeDout_reals (b : Bool) : (s.writeDout b).reals = s.reals := rfl
@[simp] theorem State.writeDout_din (b : Bool) : (s.writeDout b).din = s.din := rfl
@[simp] theorem State.writeDout_drawn (b : Bool) : (s.writeDout b).drawn = s.drawn := rfl
@[simp] theorem State.writeDout_trace (b : Bool) : (s.writeDout b).trace = s.trace ++ [.pinWrite .dout b] := rfl

/-! ### takeSample -/

@[simp] theorem State.takeSample_chan : s.takeSample.chan = s.chan := rfl
@[simp] theorem State.takeSample_waitMode : s.takeSample.waitMode = s.waitMode := rfl
@[simp] theorem State.takeSample_pull : s.takeSample.pull = s.pull := rfl
@[simp] theorem State.takeSample_sclk : s.takeSample.sclk = s.sclk := rfl
@[simp] theorem State.takeSample_dout : s.takeSample.dout = s.dout := rfl
@[simp] theorem State.takeSample_csN : s.takeSample.csN = s.csN := rfl
@[simp] theorem State.takeSample_tx : s.takeSample.tx = s.tx := rfl
@[simp] theorem State.takeSample_rx : s.takeSample.rx = s.rx := rfl
@[simp] theorem State.takeSample_slot : s.takeSample.slot = s.slot := rfl
@[simp] theorem State.takeSample_bcmd : s.takeSample.bcmd = s.bcmd := rfl
@[simp] theorem State.takeSample_braw : s.takeSample.braw = s.braw := rfl
@[simp] theorem State.takeSample_bres : s.takeSample.bres = s.bres := rfl
@[simp] theorem State.takeSample_bn : s.takeSample.bn = s.bn := rfl
@[simp] theorem State.takeSample_hostReq : s.takeSample.hostReq = s.hostReq := rfl
@[simp] theorem State.takeSample_hostResp : s.takeSample.hostResp = s.hostResp := rfl
@[simp] theorem State.takeSample_seq : s.takeSample.seq = s.seq := rfl
@[simp] theorem State.takeSample_pollCs : s.takeSample.pollCs = s.pollCs := rfl
@[simp] theorem State.takeSample_batchAbort : s.takeSample.batchAbort = s.batchAbort := rfl
@[simp] theorem State.takeSample_num : s.takeSample.num = s.num := rfl
@[simp] theorem State.takeSample_reals : s.takeSample.reals = s.reals := rfl
@[simp] theorem State.takeSample_din : s.takeSample.din = s.din.tail := rfl
@[simp] theorem State.takeSample_drawn : s.takeSample.drawn = s.drawn + 1 := rfl
@[simp] theorem State.takeSample_trace : s.takeSample.trace = s.trace ++ [.pinSample (s.upcoming 0)] := rfl

/-! ### sleepFor -/

@[simp] theorem State.sleepFor_chan (d : Value) : (s.sleepFor d).chan = s.chan := rfl
@[simp] theorem State.sleepFor_waitMode (d : Value) : (s.sleepFor d).waitMode = s.waitMode := rfl
@[simp] theorem State.sleepFor_pull (d : Value) : (s.sleepFor d).pull = s.pull := rfl
@[simp] theorem State.sleepFor_sclk (d : Value) : (s.sleepFor d).sclk = s.sclk := rfl
@[simp] theorem State.sleepFor_dout (d : Value) : (s.sleepFor d).dout = s.dout := rfl
@[simp] theorem State.sleepFor_csN (d : Value) : (s.sleepFor d).csN = s.csN := rfl
@[simp] theorem State.sleepFor_tx (d : Value) : (s.sleepFor d).tx = s.tx := rfl
@[simp] theorem State.sleepFor_rx (d : Value) : (s.sleepFor d).rx = s.rx := rfl
@[simp] theorem State.sleepFor_slot (d : Value) : (s.sleepFor d).slot = s.slot := rfl
@[simp] theorem State.sleepFor_bcmd (d : Value) : (s.sleepFor d).bcmd = s.bcmd := rfl
@[simp] theorem State.sleepFor_braw (d : Value) : (s.sleepFor d).braw = s.braw := rfl
@[simp] theorem State.sleepFor_bres (d : Value) : (s.sleepFor d).bres = s.bres := rfl
@[simp] theorem State.sleepFor_bn (d : Value) : (s.sleepFor d).bn = s.bn := rfl
@[simp] theorem State.sleepFor_hostReq (d : Value) : (s.sleepFor d).hostReq = s.hostReq := rfl
@[simp] theorem State.sleepFor_hostResp (d : Value) : (s.sleepFor d).hostResp = s.hostResp := rfl
@[simp] theorem State.sleepFor_seq (d : Value) : (s.sleepFor d).seq = s.seq := rfl
@[simp] theorem State.sleepFor_pollCs (d : Value) : (s.sleepFor d).pollCs = s.pollCs := rfl
@[simp] theorem State.sleepFor_batchAbort (d : Value) : (s.sleepFor d).batchAbort = s.batchAbort := rfl
@[simp] theorem State.sleepFor_num (d : Value) : (s.sleepFor d).num = s.num := rfl
@[simp] theorem State.sleepFor_reals (d : Value) : (s.sleepFor d).reals = s.reals := rfl
@[simp] theorem State.sleepFor_din (d : Value) : (s.sleepFor d).din = s.din := rfl
@[simp] theorem State.sleepFor_drawn (d : Value) : (s.sleepFor d).drawn = s.drawn := rfl
@[simp] theorem State.sleepFor_trace (d : Value) : (s.sleepFor d).trace = s.trace ++ [.sleep d] ++ [.sleepDone] := rfl

/-! ### respond -/

@[simp] theorem State.respond_chan (r : Response) : (s.respond r).chan = s.chan := rfl
@[simp] theorem State.respond_waitMode (r : Response) : (s.respond r).waitMode = s.waitMode := rfl
@[simp] theorem State.respond_pull (r : Response) : (s.respond r).pull = s.pull := rfl
@[simp] theorem State.respond_sclk (r : Response) : (s.respond r).sclk = s.sclk := rfl
@[simp] theorem State.respond_dout (r : Response) : (s.respond r).dout = s.dout := rfl
@[simp] theorem State.respond_csN (r : Response) : (s.respond r).csN = s.csN := rfl
@[simp] theorem State.respond_tx (r : Response) : (s.respond r).tx = s.tx := rfl
@[simp] theorem State.respond_rx (r : Response) : (s.respond r).rx = s.rx := rfl
@[simp] theorem State.respond_slot (r : Response) : (s.respond r).slot = s.slot := rfl
@[simp] theorem State.respond_bcmd (r : Response) : (s.respond r).bcmd = s.bcmd := rfl
@[simp] theorem State.respond_braw (r : Response) : (s.respond r).braw = s.braw := rfl
@[simp] theorem State.respond_bres (r : Response) : (s.respond r).bres = s.bres := rfl
@[simp] theorem State.respond_bn (r : Response) : (s.respond r).bn = s.bn := rfl
@[simp] theorem State.respond_hostReq (r : Response) : (s.respond r).hostReq = none := rfl
@[simp] theorem State.respond_hostResp (r : Response) : (s.respond r).hostResp = some r := rfl
@[simp] theorem State.respond_seq (r : Response) : (s.respond r).seq = .ready := rfl
@[simp] theorem State.respond_pollCs (r : Response) : (s.respond r).pollCs = s.pollCs := rfl
@[simp] theorem State.respond_batchAbort (r : Response) : (s.respond r).batchAbort = s.batchAbort := rfl
@[simp] theorem State.respond_num (r : Response) : (s.respond r).num = s.num := rfl
@[simp] theorem State.respond_reals (r : Response) : (s.respond r).reals = s.reals := rfl
@[simp] theorem State.respond_din (r : Response) : (s.respond r).din = s.din := rfl
@[simp] theorem State.respond_drawn (r : Response) : (s.respond r).drawn = s.drawn := rfl
@[simp] theorem State.respond_trace (r : Response) : (s.respond r).trace = s.trace ++ [.respond r] := rfl

/-! ### placeRequest -/

@[simp] theorem State.placeRequest_chan (q : BitSeq) : (s.placeRequest q).chan = s.chan := rfl
@[simp] theorem State.placeRequest_waitMode (q : BitSeq) : (s.placeRequest q).waitMode = s.waitMode := rfl
@[simp] theorem State.placeRequest_pull (q : BitSeq) : (s.placeRequest q).pull = s.pull := rfl
@[simp] theorem State.placeRequest_sclk (q : BitSeq) : (s.placeRequest q).sclk = s.sclk := rfl
@[simp] theorem State.placeRequest_dout (q : BitSeq) : (s.placeRequest q).dout = s.dout := rfl
@[simp] theorem State.placeRequest_csN (q : BitSeq) : (s.placeRequest q).csN = s.csN := rfl
@[simp] theorem State.placeRequest_tx (q : BitSeq) : (s.placeRequest q).tx = s.tx := rfl
@[simp] theorem State.placeRequest_rx (q : BitSeq) : (s.placeRequest q).rx = s.rx := rfl
@[simp] theorem State.placeRequest_slot (q : BitSeq) : (s.placeRequest q).slot = s.slot := rfl
@[simp] theorem State.placeRequest_bcmd (q : BitSeq) : (s.placeRequest q).bcmd = s.bcmd := rfl
@[simp] theorem State.placeRequest_braw (q : BitSeq) : (s.placeRequest q).braw = s.braw := rfl
@[simp] theorem State.placeRequest_bres (q : BitSeq) : (s.placeRequest q).bres = s.bres := rfl
@[simp] theorem State.placeRequest_bn (q : BitSeq) : (s.placeRequest q).bn = s.bn := rfl
@[simp] theorem State.placeRequest_hostReq (q : BitSeq) : (s.placeRequest q).hostReq = some q := rfl
@[simp] theorem State.placeRequest_hostResp (q : BitSeq) : (s.placeRequest q).hostResp = none := rfl
@[simp] theorem State.placeRequest_seq (q : BitSeq) : (s.placeRequest q).seq = .ready := rfl
@[simp] theorem State.placeRequest_pollCs (q : BitSeq) : (s.placeRequest q).pollCs = s.pollCs := rfl
@[simp] theorem State.placeRequest_batchAbort (q : BitSeq) : (s.placeRequest q).batchAbort = s.batchAbort := rfl
@[simp] theorem State.placeRequest_num (q : BitSeq) : (s.placeRequest q).num = s.num := rfl
@[simp] theorem State.placeRequest_reals (q : BitSeq) : (s.placeRequest q).reals = s.reals := rfl
@[simp] theorem State.placeRequest_din (q : BitSeq) : (s.placeRequest q).din = s.din := rfl
@[simp] theorem State.placeRequest_drawn (q : BitSeq) : (s.placeRequest q).drawn = s.drawn := rfl
@[simp] theorem State.placeRequest_trace (q : BitSeq) : (s.placeRequest q).trace = s.trace := rfl

/-! ### loadTx -/

@[simp] theorem State.loadTx_chan (c : Word16) : (s.loadTx c).chan = s.chan := rfl
@[simp] theorem State.loadTx_waitMode (c : Word16) : (s.loadTx c).waitMode = s.waitMode := rfl
@[simp] theorem State.loadTx_pull (c : Word16) : (s.loadTx c).pull = s.pull := rfl
@[simp] theorem State.loadTx_sclk (c : Word16) : (s.loadTx c).sclk = s.sclk := rfl
@[simp] theorem State.loadTx_dout (c : Word16) : (s.loadTx c).dout = s.dout := rfl
@[simp] theorem State.loadTx_csN (c : Word16) : (s.loadTx c).csN = s.csN := rfl
@[simp] theorem State.loadTx_tx (c : Word16) : (s.loadTx c).tx = c := rfl
@[simp] theorem State.loadTx_rx (c : Word16) : (s.loadTx c).rx = s.rx := rfl
@[simp] theorem State.loadTx_slot (c : Word16) : (s.loadTx c).slot = 0 := rfl
@[simp] theorem State.loadTx_bcmd (c : Word16) : (s.loadTx c).bcmd = s.bcmd := rfl
@[simp] theorem State.loadTx_braw (c : Word16) : (s.loadTx c).braw = s.braw := rfl
@[simp] theorem State.loadTx_bres (c : Word16) : (s.loadTx c).bres = s.bres := rfl
@[simp] theorem State.loadTx_bn (c : Word16) : (s.loadTx c).bn = s.bn := rfl
@[simp] theorem State.loadTx_hostReq (c : Word16) : (s.loadTx c).hostReq = s.hostReq := rfl
@[simp] theorem State.loadTx_hostResp (c : Word16) : (s.loadTx c).hostResp = s.hostResp := rfl
@[simp] theorem State.loadTx_seq (c : Word16) : (s.loadTx c).seq = s.seq := rfl
@[simp] theorem State.loadTx_pollCs (c : Word16) : (s.loadTx c).pollCs = s.pollCs := rfl
@[simp] theorem State.loadTx_batchAbort (c : Word16) : (s.loadTx c).batchAbort = s.batchAbort := rfl
@[simp] theorem State.loadTx_num (c : Word16) : (s.loadTx c).num = s.num := rfl
@[simp] theorem State.loadTx_reals (c : Word16) : (s.loadTx c).reals = s.reals := rfl
@[simp] theorem State.loadTx_din (c : Word16) : (s.loadTx c).din = s.din := rfl
@[simp] theorem State.loadTx_drawn (c : Word16) : (s.loadTx c).drawn = s.drawn := rfl
@[simp] theorem State.loadTx_trace (c : Word16) : (s.loadTx c).trace = s.trace := rfl

/-! ### sampleRx -/

@[simp] theorem State.sampleRx_chan (k : Nat) : (s.sampleRx k).chan = s.chan := rfl
@[simp] theorem State.sampleRx_waitMode (k : Nat) : (s.sampleRx k).waitMode = s.waitMode := rfl
@[simp] theorem State.sampleRx_pull (k : Nat) : (s.sampleRx k).pull = s.pull := rfl
@[simp] theorem State.sampleRx_sclk (k : Nat) : (s.sampleRx k).sclk = s.sclk := rfl
@[simp] theorem State.sampleRx_dout (k : Nat) : (s.sampleRx k).dout = s.dout := rfl
@[simp] theorem State.sampleRx_csN (k : Nat) : (s.sampleRx k).csN = s.csN := rfl
@[simp] theorem State.sampleRx_tx (k : Nat) : (s.sampleRx k).tx = s.tx := rfl
@[simp] theorem State.sampleRx_rx (k : Nat) : (s.sampleRx k).rx = setRx s.rx k (s.upcoming 0) := rfl
@[simp] theorem State.sampleRx_slot (k : Nat) : (s.sampleRx k).slot = s.slot := rfl
@[simp] theorem State.sampleRx_bcmd (k : Nat) : (s.sampleRx k).bcmd = s.bcmd := rfl
@[simp] theorem State.sampleRx_braw (k : Nat) : (s.sampleRx k).braw = s.braw := rfl
@[simp] theorem State.sampleRx_bres (k : Nat) : (s.sampleRx k).bres = s.bres := rfl
@[simp] theorem State.sampleRx_bn (k : Nat) : (s.sampleRx k).bn = s.bn := rfl
@[simp] theorem State.sampleRx_hostReq (k : Nat) : (s.sampleRx k).hostReq = s.hostReq := rfl
@[simp] theorem State.sampleRx_hostResp (k : Nat) : (s.sampleRx k).hostResp = s.hostResp := rfl
@[simp] theorem State.sampleRx_seq (k : Nat) : (s.sampleRx k).seq = s.seq := rfl
@[simp] theorem State.sampleRx_pollCs (k : Nat) : (s.sampleRx k).pollCs = s.pollCs := rfl
@[simp] theorem State.sampleRx_batchAbort (k : Nat) : (s.sampleRx k).batchAbort = s.batchAbort := rfl
@[simp] theorem State.sampleRx_num (k : Nat) : (s.sampleRx k).num = s.num := rfl
@[simp] theorem State.sampleRx_reals (k : Nat) : (s.sampleRx k).reals = s.reals := rfl
@[simp] theorem State.sampleRx_din (k : Nat) : (s.sampleRx k).din = s.din.tail := rfl
@[simp] theorem State.sampleRx_drawn (k : Nat) : (s.sampleRx k).drawn = s.drawn + 1 := rfl
@[simp] theorem State.sampleRx_trace (k : Nat) : (s.sampleRx k).trace = s.trace ++ [.pinSample (s.upcoming 0)] := rfl

/-! ### writeCsN, which writes only where the pin exists -/

@[simp] theorem State.writeCsN_chan (b : Bool) : (s.writeCsN b).chan = s.chan := by
  unfold State.writeCsN; split <;> rfl
@[simp] theorem State.writeCsN_waitMode (b : Bool) : (s.writeCsN b).waitMode = s.waitMode := by
  unfold State.writeCsN; split <;> rfl
@[simp] theorem State.writeCsN_pull (b : Bool) : (s.writeCsN b).pull = s.pull := by
  unfold State.writeCsN; split <;> rfl
@[simp] theorem State.writeCsN_sclk (b : Bool) : (s.writeCsN b).sclk = s.sclk := by
  unfold State.writeCsN; split <;> rfl
@[simp] theorem State.writeCsN_dout (b : Bool) : (s.writeCsN b).dout = s.dout := by
  unfold State.writeCsN; split <;> rfl
@[simp] theorem State.writeCsN_tx (b : Bool) : (s.writeCsN b).tx = s.tx := by
  unfold State.writeCsN; split <;> rfl
@[simp] theorem State.writeCsN_rx (b : Bool) : (s.writeCsN b).rx = s.rx := by
  unfold State.writeCsN; split <;> rfl
@[simp] theorem State.writeCsN_slot (b : Bool) : (s.writeCsN b).slot = s.slot := by
  unfold State.writeCsN; split <;> rfl
@[simp] theorem State.writeCsN_bcmd (b : Bool) : (s.writeCsN b).bcmd = s.bcmd := by
  unfold State.writeCsN; split <;> rfl
@[simp] theorem State.writeCsN_braw (b : Bool) : (s.writeCsN b).braw = s.braw := by
  unfold State.writeCsN; split <;> rfl
@[simp] theorem State.writeCsN_bres (b : Bool) : (s.writeCsN b).bres = s.bres := by
  unfold State.writeCsN; split <;> rfl
@[simp] theorem State.writeCsN_bn (b : Bool) : (s.writeCsN b).bn = s.bn := by
  unfold State.writeCsN; split <;> rfl
@[simp] theorem State.writeCsN_hostReq (b : Bool) : (s.writeCsN b).hostReq = s.hostReq := by
  unfold State.writeCsN; split <;> rfl
@[simp] theorem State.writeCsN_hostResp (b : Bool) : (s.writeCsN b).hostResp = s.hostResp := by
  unfold State.writeCsN; split <;> rfl
@[simp] theorem State.writeCsN_seq (b : Bool) : (s.writeCsN b).seq = s.seq := by
  unfold State.writeCsN; split <;> rfl
@[simp] theorem State.writeCsN_pollCs (b : Bool) : (s.writeCsN b).pollCs = s.pollCs := by
  unfold State.writeCsN; split <;> rfl
@[simp] theorem State.writeCsN_batchAbort (b : Bool) : (s.writeCsN b).batchAbort = s.batchAbort := by
  unfold State.writeCsN; split <;> rfl
@[simp] theorem State.writeCsN_num (b : Bool) : (s.writeCsN b).num = s.num := by
  unfold State.writeCsN; split <;> rfl
@[simp] theorem State.writeCsN_reals (b : Bool) : (s.writeCsN b).reals = s.reals := by
  unfold State.writeCsN; split <;> rfl
@[simp] theorem State.writeCsN_din (b : Bool) : (s.writeCsN b).din = s.din := by
  unfold State.writeCsN; split <;> rfl
@[simp] theorem State.writeCsN_drawn (b : Bool) : (s.writeCsN b).drawn = s.drawn := by
  unfold State.writeCsN; split <;> rfl
@[simp] theorem State.writeCsN_csN (b : Bool) : (s.writeCsN b).csN = s.csN.map fun _ => b := by
  unfold State.writeCsN State.hasCs; cases h : s.csN <;> simp [h]
@[simp] theorem State.writeCsN_trace (b : Bool) :
    (s.writeCsN b).trace = s.trace ++ if s.hasCs then [.pinWrite .csN b] else [] := by
  unfold State.writeCsN; split <;> simp

/-! ### Samples still to come -/

theorem State.upcoming_congr {s t : State} (h : s.din = t.din) (h' : s.drawn = t.drawn) (k : Nat) :
    s.upcoming k = t.upcoming k := by simp [State.upcoming, h, h']

@[simp] theorem State.takeSample_upcoming (k : Nat) : s.takeSample.upcoming k = s.upcoming (k + 1) := by
  simp [State.upcoming, Nat.add_assoc, Nat.add_comm 1 k]

@[simp] theorem State.sampleRx_upcoming (j k : Nat) : (s.sampleRx j).upcoming k = s.upcoming (k + 1) :=
  State.takeSample_upcoming s k

@[simp] theorem State.setChan_upcoming (c : ChanState) (i : Nat) : (s.setChan c).upcoming i = s.upcoming i := rfl
@[simp] theorem State.setChan_hasCs (c : ChanState) : (s.setChan c).hasCs = s.hasCs := rfl
@[simp] theorem State.setModePull_upcoming (m : WaitMode) (p : Pull) (i : Nat) : (s.setModePull m p).upcoming i = s.upcoming i := rfl
@[simp] theorem State.setModePull_hasCs (m : WaitMode) (p : Pull) : (s.setModePull m p).hasCs = s.hasCs := rfl
@[simp] theorem State.suspend_upcoming (p : Polling) (i : Nat) : (s.suspend p).upcoming i = s.upcoming i := rfl
@[simp] theorem State.suspend_hasCs (p : Polling) : (s.suspend p).hasCs = s.hasCs := rfl
@[simp] theorem State.setBn_upcoming (n : Nat) (i : Nat) : (s.setBn n).upcoming i = s.upcoming i := rfl
@[simp] theorem State.setBn_hasCs (n : Nat) : (s.setBn n).hasCs = s.hasCs := rfl
@[simp] theorem State.setBcmd_upcoming (k : Nat) (c : AdcConfig) (i : Nat) : (s.setBcmd k c).upcoming i = s.upcoming i := rfl
@[simp] theorem State.setBcmd_hasCs (k : Nat) (c : AdcConfig) : (s.setBcmd k c).hasCs = s.hasCs := rfl
@[simp] theorem State.setBraw_upcoming (k : Nat) (r : RawExchange) (i : Nat) : (s.setBraw k r).upcoming i = s.upcoming i := rfl
@[simp] theorem State.setBraw_hasCs (k : Nat) (r : RawExchange) : (s.setBraw k r).hasCs = s.hasCs := rfl
@[simp] theorem State.setBres_upcoming (k : Nat) (m : Measurement) (i : Nat) : (s.setBres k m).upcoming i = s.upcoming i := rfl
@[simp] theorem State.setBres_hasCs (k : Nat) (m : Measurement) : (s.setBres k m).hasCs = s.hasCs := rfl
@[simp] theorem State.log_upcoming (e : Event) (i : Nat) : (s.log e).upcoming i = s.upcoming i := rfl
@[simp] theorem State.log_hasCs (e : Event) : (s.log e).hasCs = s.hasCs := rfl
@[simp] theorem State.writeSclk_upcoming (b : Bool) (i : Nat) : (s.writeSclk b).upcoming i = s.upcoming i := rfl
@[simp] theorem State.writeSclk_hasCs (b : Bool) : (s.writeSclk b).hasCs = s.hasCs := rfl
@[simp] theorem State.writeDout_upcoming (b : Bool) (i : Nat) : (s.writeDout b).upcoming i = s.upcoming i := rfl
@[simp] theorem State.writeDout_hasCs (b : Bool) : (s.writeDout b).hasCs = s.hasCs := rfl
@[simp] theorem State.sleepFor_upcoming (d : Value) (i : Nat) : (s.sleepFor d).upcoming i = s.upcoming i := rfl
@[simp] theorem State.sleepFor_hasCs (d : Value) : (s.sleepFor d).hasCs = s.hasCs := rfl
@[simp] theorem State.respond_upcoming (r : Response) (i : Nat) : (s.respond r).upcoming i = s.upcoming i := rfl
@[simp] theorem State.respond_hasCs (r : Response) : (s.respond r).hasCs = s.hasCs := rfl
@[simp] theorem State.placeRequest_upcoming (q : BitSeq) (i : Nat) : (s.placeRequest q).upcoming i = s.upcoming i := rfl
@[simp] theorem State.placeRequest_hasCs (q : BitSeq) : (s.placeRequest q).hasCs = s.hasCs := rfl
@[simp] theorem State.loadTx_upcoming (c : Word16) (i : Nat) : (s.loadTx c).upcoming i = s.upcoming i := rfl
@[simp] theorem State.loadTx_hasCs (c : Word16) : (s.loadTx c).hasCs = s.hasCs := rfl
@[simp] theorem State.takeSample_hasCs : s.takeSample.hasCs = s.hasCs := rfl
@[simp] theorem State.sampleRx_hasCs (k : Nat) : (s.sampleRx k).hasCs = s.hasCs := rfl
@[simp] theorem State.writeCsN_upcoming (b : Bool) (i : Nat) : (s.writeCsN b).upcoming i = s.upcoming i :=
  State.upcoming_congr (by simp) (by simp) i
@[simp] theorem State.writeCsN_hasCs (b : Bool) : (s.writeCsN b).hasCs = s.hasCs := by
  simp [State.hasCs]

end Sys2Proof.Machine
end

