-- ==== Sys2Proof/Laws/Exchange.lean ====
section
/-! SUPPORT. What a bit slot and EXCHANGE_SEQ do, said once (43_adc_channel.md R165). -/

namespace Sys2Proof.Machine

/-- The register RX after slot k, bit by bit. -/
theorem getLsbD_setRx (rx : BitVec 32) {k j : Nat} (hk : k < 32) (hj : j < 32) (b : Bool) :
    (setRx rx k b).getLsbD (31 - j) = if j = k then b else rx.getLsbD (31 - j) := by
  unfold setRx
  by_cases h : j = k
  · subst h
    cases b
    · simp
    · simp
      omega
  · have h1 : ¬ 31 - j = 31 - k := by omega
    have hne : (1#32 <<< (31 - k)).getLsbD (31 - j) = false := by
      simp [BitVec.getLsbD_shiftLeft, BitVec.getLsbD_one]; omega
    have hb : (BitVec.ofNat 32 b.toNat <<< (31 - k)).getLsbD (31 - j) = false := by
      cases b
      · simp
      · simpa using hne
    have hlt : 31 - j < 32 := by omega
    simp only [BitVec.getLsbD_or, BitVec.getLsbD_and, BitVec.getLsbD_not, hne, hb, h, if_false]
    simp [hlt]

/-- Everything bit slot k does. -/
theorem State.bitSlot_eq (s : State) (k : Nat) :
    s.bitSlot k = { s with
      sclk := false, dout := txBit s.tx (k % 16), rx := setRx s.rx k (s.upcoming 0), slot := k + 1,
      din := s.din.tail, drawn := s.drawn + 1, trace := s.trace ++ slotEvents s.tx k (s.upcoming 0) } := by
  simp [State.bitSlot, State.sampleRx, State.takeSample, State.writeSclk, State.writeDout, State.log, slotEvents,
    State.upcoming]

/-- RX with the first `n` slots' levels written. -/
def rxAfter (rx : BitVec 32) (draw : Nat → Bool) : Nat → BitVec 32
  | 0 => rx
  | n + 1 => setRx (rxAfter rx draw n) n (draw n)

theorem getLsbD_rxAfter (rx : BitVec 32) (draw : Nat → Bool) {n j : Nat} (hn : n ≤ 32) (hj : j < 32) :
    (rxAfter rx draw n).getLsbD (31 - j) = if j < n then draw j else rx.getLsbD (31 - j) := by
  induction n with
  | zero => simp [rxAfter]
  | succ n ih =>
    rw [rxAfter, getLsbD_setRx _ (by omega) hj, ih (by omega)]
    by_cases h : j = n
    · subst h; simp
    · simp only [h, if_false]
      by_cases h' : j < n
      · simp [h', Nat.lt_succ_of_lt h']
      · simp [h', show ¬ j < n + 1 by omega]

/-- Everything the first `n` slots of an exchange do. -/
theorem State.bitSlots_eq (s : State) (hs : s.slot = 0) (n : Nat) :
    s.bitSlots n = { s with
      sclk := if n = 0 then s.sclk else false, dout := if n = 0 then s.dout else txBit s.tx ((n - 1) % 16),
      rx := rxAfter s.rx s.upcoming n, slot := n, din := s.din.drop n, drawn := s.drawn + n,
      trace := s.trace ++ (List.range n).flatMap fun k => slotEvents s.tx k (s.upcoming k) } := by
  induction n with
  | zero => cases s; simp_all [State.bitSlots, rxAfter]
  | succ n ih =>
    have hu : (s.bitSlots n).upcoming 0 = s.upcoming n := by
      rw [ih]; simp [State.upcoming]
    have htx : (s.bitSlots n).tx = s.tx := by rw [ih]
    rw [State.bitSlots, State.bitSlot_eq, hu, htx, ih]
    simp [rxAfter, List.range_succ, Nat.add_assoc, List.tail_drop]

/-- Everything EXCHANGE_SEQ(c) does (43_adc_channel.md R165). -/
theorem State.exchange_eq (s : State) (c : Word16) :
    s.exchange c = { s with
      tx := c, sclk := false, dout := c.getLsbD 0, csN := s.csN.map fun _ => true,
      rx := rxAfter s.rx s.upcoming 32, slot := 32, din := s.din.drop 32, drawn := s.drawn + 32,
      trace := s.trace ++ exchangeEvents s.hasCs c s.upcoming } := by
  unfold State.exchange
  rw [State.bitSlots_eq _ (by simp)]
  cases hc : s.csN with
  | none =>
    have h0 : s.hasCs = false := by simp [State.hasCs, hc]
    have h1 : (s.loadTx c).writeCsN false = s.loadTx c := by simp [State.writeCsN, h0]
    rw [h1]
    unfold State.writeCsN State.hasCs
    have hu : (s.loadTx c).upcoming = s.upcoming := rfl
    simp [hc, exchangeEvents, csEvents, txBit, hu]
  | some b =>
    have h0 : s.hasCs = true := by simp [State.hasCs, hc]
    have hu : ((s.loadTx c).writeCsN false).upcoming = s.upcoming := by funext i; simp
    unfold State.writeCsN State.hasCs
    simp only [State.loadTx_csN, hc, Option.isSome_some, if_true] at hu ⊢
    have hu' : (({ s.loadTx c with csN := some false } : State).log (.pinWrite .csN false)).upcoming = s.upcoming := rfl
    rw [hu']
    simp [State.log, exchangeEvents, csEvents, txBit, State.loadTx]

variable (s : State) (c : Word16)

@[simp] theorem State.exchange_chan : (s.exchange c).chan = s.chan := by rw [State.exchange_eq]
@[simp] theorem State.exchange_waitMode : (s.exchange c).waitMode = s.waitMode := by rw [State.exchange_eq]
@[simp] theorem State.exchange_pull : (s.exchange c).pull = s.pull := by rw [State.exchange_eq]
@[simp] theorem State.exchange_sclk : (s.exchange c).sclk = false := by rw [State.exchange_eq]
@[simp] theorem State.exchange_dout : (s.exchange c).dout = c.getLsbD 0 := by rw [State.exchange_eq]
@[simp] theorem State.exchange_csN : (s.exchange c).csN = s.csN.map fun _ => true := by rw [State.exchange_eq]
@[simp] theorem State.exchange_tx : (s.exchange c).tx = c := by rw [State.exchange_eq]
@[simp] theorem State.exchange_slot : (s.exchange c).slot = 32 := by rw [State.exchange_eq]
@[simp] theorem State.exchange_bcmd : (s.exchange c).bcmd = s.bcmd := by rw [State.exchange_eq]
@[simp] theorem State.exchange_braw : (s.exchange c).braw = s.braw := by rw [State.exchange_eq]
@[simp] theorem State.exchange_bres : (s.exchange c).bres = s.bres := by rw [State.exchange_eq]
@[simp] theorem State.exchange_bn : (s.exchange c).bn = s.bn := by rw [State.exchange_eq]
@[simp] theorem State.exchange_hostReq : (s.exchange c).hostReq = s.hostReq := by rw [State.exchange_eq]
@[simp] theorem State.exchange_hostResp : (s.exchange c).hostResp = s.hostResp := by rw [State.exchange_eq]
@[simp] theorem State.exchange_seq : (s.exchange c).seq = s.seq := by rw [State.exchange_eq]
@[simp] theorem State.exchange_pollCs : (s.exchange c).pollCs = s.pollCs := by rw [State.exchange_eq]
@[simp] theorem State.exchange_batchAbort : (s.exchange c).batchAbort = s.batchAbort := by rw [State.exchange_eq]
@[simp] theorem State.exchange_num : (s.exchange c).num = s.num := by rw [State.exchange_eq]
@[simp] theorem State.exchange_reals : (s.exchange c).reals = s.reals := by rw [State.exchange_eq]
@[simp] theorem State.exchange_din : (s.exchange c).din = s.din.drop 32 := by rw [State.exchange_eq]
@[simp] theorem State.exchange_drawn : (s.exchange c).drawn = s.drawn + 32 := by rw [State.exchange_eq]
@[simp] theorem State.exchange_trace :
    (s.exchange c).trace = s.trace ++ exchangeEvents s.hasCs c s.upcoming := by rw [State.exchange_eq]
@[simp] theorem State.exchange_hasCs : (s.exchange c).hasCs = s.hasCs := by simp [State.hasCs]

/-- The samples after an exchange are those after the next 32. -/
@[simp] theorem State.exchange_upcoming (k : Nat) : (s.exchange c).upcoming k = s.upcoming (32 + k) := by
  rw [State.exchange_eq]; simp [State.upcoming, Nat.add_assoc]

/-- RX_k holds the level sampled in slot k. -/
theorem State.exchange_rx {k : Nat} (hk : k < 32) : (s.exchange c).rx.getLsbD (31 - k) = s.upcoming k := by
  rw [State.exchange_eq]; simp [getLsbD_rxAfter _ _ (Nat.le_refl 32) hk, hk]

theorem uint_map_range (f : Nat → Bool) (n i : Nat) (hi : i < n) :
    (uint ((List.range n).map f)).testBit (n - 1 - i) = f i := by
  induction n generalizing f i with
  | zero => omega
  | succ n ih =>
    rw [List.range_succ_eq_map, List.map_cons, List.map_map, uint]
    have hlen : ((List.range n).map (f ∘ Nat.succ)).length = n := by simp
    have hlt : uint ((List.range n).map (f ∘ Nat.succ)) < 2 ^ n := by
      simpa [hlen] using uint_lt ((List.range n).map (f ∘ Nat.succ))
    rw [hlen]
    cases i with
    | zero =>
      simp only [Nat.add_sub_cancel, Nat.sub_zero, Nat.mul_comm (f 0).toNat]
      rw [Nat.testBit_two_pow_mul_add _ hlt]
      cases f 0 <;> simp
    | succ i =>
      have h1 : n + 1 - 1 - (i + 1) = n - 1 - i := by omega
      rw [h1, Nat.mul_comm, Nat.testBit_two_pow_mul_add _ hlt, if_pos (by omega), ih (f ∘ Nat.succ) i (by omega)]
      rfl

theorem getLsbD_sampledWord (start i : Nat) (hi : i < 16) :
    (s.sampledWord start).getLsbD i = s.upcoming (start + (15 - i)) := by
  unfold State.sampledWord word16
  have h := uint_map_range (fun j => s.upcoming (start + j)) 16 (15 - i) (by omega)
  rw [show 16 - 1 - (15 - i) = i by omega] at h
  simpa only [BitVec.getLsbD_ofNat, hi, decide_true, Bool.true_and] using h

/-- `{echo: RX[0..15], data: RX[16..31]}` of an exchange: the 32 samples it takes (43_adc_channel.md R165). -/
@[simp] theorem State.exchange_rawExchange : (s.exchange c).rawExchange = s.sampledRaw 0 := by
  unfold State.rawExchange State.sampledRaw
  rw [RawExchange.mk.injEq]
  constructor
  · apply BitVec.eq_of_getLsbD_eq
    intro i hi
    rw [getLsbD_sampledWord s 0 i hi]
    have := State.exchange_rx s c (k := 15 - i) (by omega)
    rw [show 31 - (15 - i) = 16 + i by omega] at this
    simp only [BitVec.getLsbD_extractLsb', hi, decide_true, Bool.true_and, this, Nat.zero_add]
  · apply BitVec.eq_of_getLsbD_eq
    intro i hi
    rw [getLsbD_sampledWord s _ i hi]
    have := State.exchange_rx s c (k := 31 - i) (by omega)
    rw [show 31 - (31 - i) = i by omega] at this
    simp only [BitVec.getLsbD_extractLsb', hi, decide_true, Bool.true_and, Nat.zero_add, this]
    congr 1; omega

/-- An exchange is 128 pin events, 130 with HAS_CS (43_adc_channel.md R165). -/
theorem length_exchangeEvents (hasCs : Bool) (draw : Nat → Bool) :
    (exchangeEvents hasCs c draw).length = if hasCs then 130 else 128 := by
  cases hasCs <;> simp [exchangeEvents, csEvents, slotEvents, List.range_succ]

end Sys2Proof.Machine
end

