-- ==== Sys2Proof/Laws/Wait.lean ====
section
/-! SUPPORT. What a poll and a WAIT do, said once (43_adc_channel.md R176). -/

namespace Sys2Proof.Machine

variable (s : State) (dr : BitVec 3)

/-- A poll whose sample reads 1 takes that sample and nothing else. -/
theorem State.poll_waiting (h : s.upcoming 0 = true) : s.poll = (s.takeSample, false) := by
  simp [State.poll, h]

/-- A poll whose sample reads 0 ends the wait. -/
theorem State.poll_done (h : s.upcoming 0 = false) :
    s.poll = (if s.pollCs = .asserted then s.takeSample.writeCsN true else s.takeSample, true) := by
  simp [State.poll, h]

/-- Whether a poll ends the wait. -/
theorem State.poll_snd : s.poll.2 = !s.upcoming 0 := by
  cases h : s.upcoming 0 <;> simp [State.poll, h]

@[simp] theorem State.poll_chan : s.poll.1.chan = s.chan := by
  unfold State.poll; split
  · rfl
  · split <;> simp
@[simp] theorem State.poll_waitMode : s.poll.1.waitMode = s.waitMode := by
  unfold State.poll; split
  · rfl
  · split <;> simp
@[simp] theorem State.poll_pull : s.poll.1.pull = s.pull := by
  unfold State.poll; split
  · rfl
  · split <;> simp
@[simp] theorem State.poll_sclk : s.poll.1.sclk = s.sclk := by
  unfold State.poll; split
  · rfl
  · split <;> simp
@[simp] theorem State.poll_dout : s.poll.1.dout = s.dout := by
  unfold State.poll; split
  · rfl
  · split <;> simp
@[simp] theorem State.poll_tx : s.poll.1.tx = s.tx := by
  unfold State.poll; split
  · rfl
  · split <;> simp
@[simp] theorem State.poll_rx : s.poll.1.rx = s.rx := by
  unfold State.poll; split
  · rfl
  · split <;> simp
@[simp] theorem State.poll_slot : s.poll.1.slot = s.slot := by
  unfold State.poll; split
  · rfl
  · split <;> simp
@[simp] theorem State.poll_bcmd : s.poll.1.bcmd = s.bcmd := by
  unfold State.poll; split
  · rfl
  · split <;> simp
@[simp] theorem State.poll_braw : s.poll.1.braw = s.braw := by
  unfold State.poll; split
  · rfl
  · split <;> simp
@[simp] theorem State.poll_bres : s.poll.1.bres = s.bres := by
  unfold State.poll; split
  · rfl
  · split <;> simp
@[simp] theorem State.poll_bn : s.poll.1.bn = s.bn := by
  unfold State.poll; split
  · rfl
  · split <;> simp
@[simp] theorem State.poll_hostReq : s.poll.1.hostReq = s.hostReq := by
  unfold State.poll; split
  · rfl
  · split <;> simp
@[simp] theorem State.poll_hostResp : s.poll.1.hostResp = s.hostResp := by
  unfold State.poll; split
  · rfl
  · split <;> simp
@[simp] theorem State.poll_seq : s.poll.1.seq = s.seq := by
  unfold State.poll; split
  · rfl
  · split <;> simp
@[simp] theorem State.poll_pollCs : s.poll.1.pollCs = s.pollCs := by
  unfold State.poll; split
  · rfl
  · split <;> simp
@[simp] theorem State.poll_batchAbort : s.poll.1.batchAbort = s.batchAbort := by
  unfold State.poll; split
  · rfl
  · split <;> simp
@[simp] theorem State.poll_num : s.poll.1.num = s.num := by
  unfold State.poll; split
  · rfl
  · split <;> simp
@[simp] theorem State.poll_reals : s.poll.1.reals = s.reals := by
  unfold State.poll; split
  · rfl
  · split <;> simp
@[simp] theorem State.poll_din : s.poll.1.din = s.din.tail := by
  unfold State.poll; split
  · rfl
  · split <;> simp
@[simp] theorem State.poll_drawn : s.poll.1.drawn = s.drawn + 1 := by
  unfold State.poll; split
  · rfl
  · split <;> simp
@[simp] theorem State.poll_hasCs : s.poll.1.hasCs = s.hasCs := by
  unfold State.poll; split
  · rfl
  · split <;> simp
@[simp] theorem State.poll_upcoming (k : Nat) : s.poll.1.upcoming k = s.upcoming (k + 1) := by
  unfold State.poll; split
  · simp
  · split <;> simp

@[simp] theorem State.wait_chan : (s.wait dr).1.chan = s.chan := by
  unfold State.wait; split
  · rfl
  · split <;> simp
@[simp] theorem State.wait_waitMode : (s.wait dr).1.waitMode = s.waitMode := by
  unfold State.wait; split
  · rfl
  · split <;> simp
@[simp] theorem State.wait_pull : (s.wait dr).1.pull = s.pull := by
  unfold State.wait; split
  · rfl
  · split <;> simp
@[simp] theorem State.wait_sclk : (s.wait dr).1.sclk = s.sclk := by
  unfold State.wait; split
  · rfl
  · split <;> simp
@[simp] theorem State.wait_dout : (s.wait dr).1.dout = s.dout := by
  unfold State.wait; split
  · rfl
  · split <;> simp
@[simp] theorem State.wait_tx : (s.wait dr).1.tx = s.tx := by
  unfold State.wait; split
  · rfl
  · split <;> simp
@[simp] theorem State.wait_rx : (s.wait dr).1.rx = s.rx := by
  unfold State.wait; split
  · rfl
  · split <;> simp
@[simp] theorem State.wait_slot : (s.wait dr).1.slot = s.slot := by
  unfold State.wait; split
  · rfl
  · split <;> simp
@[simp] theorem State.wait_bcmd : (s.wait dr).1.bcmd = s.bcmd := by
  unfold State.wait; split
  · rfl
  · split <;> simp
@[simp] theorem State.wait_braw : (s.wait dr).1.braw = s.braw := by
  unfold State.wait; split
  · rfl
  · split <;> simp
@[simp] theorem State.wait_bres : (s.wait dr).1.bres = s.bres := by
  unfold State.wait; split
  · rfl
  · split <;> simp
@[simp] theorem State.wait_bn : (s.wait dr).1.bn = s.bn := by
  unfold State.wait; split
  · rfl
  · split <;> simp
@[simp] theorem State.wait_hostReq : (s.wait dr).1.hostReq = s.hostReq := by
  unfold State.wait; split
  · rfl
  · split <;> simp
@[simp] theorem State.wait_hostResp : (s.wait dr).1.hostResp = s.hostResp := by
  unfold State.wait; split
  · rfl
  · split <;> simp
@[simp] theorem State.wait_seq : (s.wait dr).1.seq = s.seq := by
  unfold State.wait; split
  · rfl
  · split <;> simp
@[simp] theorem State.wait_pollCs : (s.wait dr).1.pollCs = s.pollCs := by
  unfold State.wait; split
  · rfl
  · split <;> simp
@[simp] theorem State.wait_batchAbort : (s.wait dr).1.batchAbort = s.batchAbort := by
  unfold State.wait; split
  · rfl
  · split <;> simp
@[simp] theorem State.wait_num : (s.wait dr).1.num = s.num := by
  unfold State.wait; split
  · rfl
  · split <;> simp
@[simp] theorem State.wait_reals : (s.wait dr).1.reals = s.reals := by
  unfold State.wait; split
  · rfl
  · split <;> simp
@[simp] theorem State.wait_hasCs : (s.wait dr).1.hasCs = s.hasCs := by
  unfold State.wait; split
  · rfl
  · split <;> simp

/-- A TIMED wait is its Sleep. -/
theorem State.wait_timed (h : s.waitMode = .timed) :
    s.wait dr = (s.sleepFor (s.num.eval fun N => convIntervalTable N dr), true) := by simp [State.wait, h]

/-- CS_N is driven low before a poll where POLL_CS is asserted (43_adc_channel.md R176). -/
def State.pollStart (s : State) : State := if s.pollCs = .asserted then s.writeCsN false else s

/-- A POLLED wait takes its first sample, CS_N low first where POLL_CS is asserted. -/
theorem State.wait_polled (h : s.waitMode = .polled) : s.wait dr = s.pollStart.poll := by
  simp [State.wait, h, State.pollStart]

/-- Everything the start of a poll does. -/
theorem State.pollStart_eq : s.pollStart = { s with
    csN := if s.pollCs = .asserted then s.csN.map (fun _ => false) else s.csN,
    trace := s.trace ++ csEvents (s.hasCs && decide (s.pollCs = .asserted)) false } := by
  unfold State.pollStart
  by_cases hp : s.pollCs = .asserted
  · cases hc : s.csN <;> simp [hp, State.writeCsN, State.hasCs, hc, csEvents, State.log]
    cases s; simp_all
  · cases s; simp_all [csEvents]

/-- Everything a poll does whose sample reads 0. -/
theorem State.poll_eq (h : s.upcoming 0 = false) : s.poll.1 = { s with
    csN := if s.pollCs = .asserted then s.csN.map (fun _ => true) else s.csN,
    din := s.din.tail, drawn := s.drawn + 1,
    trace := s.trace ++ .pinSample false :: csEvents (s.hasCs && decide (s.pollCs = .asserted)) true } := by
  rw [State.poll_done s h]
  by_cases hp : s.pollCs = .asserted
  · cases hc : s.csN <;> simp [hp, State.writeCsN, State.hasCs, hc, csEvents, State.log, State.takeSample, h]
  · simp [hp, State.takeSample, csEvents, State.log, h]

/-- Whether a WAIT ends at once. -/
theorem State.wait_snd : (s.wait dr).2 = true ↔ s.WaitEnds s.waitMode 0 0 := by
  unfold State.WaitEnds
  cases h : s.waitMode
  · simp [State.wait_timed s dr h]
  · rw [State.wait_polled s dr h, State.poll_snd, State.pollStart]; split <;> simp

/-- The samples after a WAIT's first. -/
theorem State.wait_upcoming (k : Nat) :
    (s.wait dr).1.upcoming k = s.upcoming (waitSamples s.waitMode 0 + k) := by
  cases h : s.waitMode
  · simp [State.wait_timed s dr h, waitSamples]
  · rw [State.wait_polled s dr h, State.poll_upcoming, Nat.add_comm k 1, State.pollStart]; split <;> simp [waitSamples]

theorem State.wait_drawn : (s.wait dr).1.drawn = s.drawn + waitSamples s.waitMode 0 := by
  cases h : s.waitMode
  · simp [State.wait_timed s dr h, waitSamples]
  · rw [State.wait_polled s dr h, State.poll_drawn, State.pollStart]; split <;> simp [waitSamples]

theorem State.wait_din : (s.wait dr).1.din = s.din.drop (waitSamples s.waitMode 0) := by
  cases h : s.waitMode
  · simp [State.wait_timed s dr h, waitSamples]
  · rw [State.wait_polled s dr h, State.poll_din, State.pollStart]; split <;> simp [waitSamples]

/-! ### A WAIT to its end -/

/-- `s` after `n` samples. -/
def State.takeSamples : Nat → State → State
  | 0, s => s
  | n + 1, s => State.takeSamples n s.takeSample

/-- Everything `n` samples do. -/
theorem State.takeSamples_eq (n : Nat) (s : State) : State.takeSamples n s = { s with
    din := s.din.drop n, drawn := s.drawn + n,
    trace := s.trace ++ (List.range n).map fun i => .pinSample (s.upcoming i) } := by
  induction n generalizing s with
  | zero => cases s; simp [State.takeSamples]
  | succ n ih =>
    rw [State.takeSamples, ih, List.range_succ_eq_map]
    simp [State.takeSample, State.log, State.upcoming, Nat.add_assoc, Nat.add_comm 1, Function.comp_def]

@[simp] theorem State.takeSamples_upcoming (n k : Nat) : (State.takeSamples n s).upcoming k = s.upcoming (n + k) := by
  rw [State.takeSamples_eq]; simp [State.upcoming, Nat.add_assoc]

theorem map_pinSample_of (f : Nat → Bool) (n : Nat) (h : ∀ i < n, f i = true) :
    (List.range n).map (fun i => Event.pinSample (f i)) = List.replicate n (.pinSample true) := by
  rw [List.eq_replicate_iff]
  refine ⟨by simp, fun e he => ?_⟩
  obtain ⟨i, hi, rfl⟩ := List.mem_map.1 he
  rw [h i (List.mem_range.1 hi)]

/-- The state after a WAIT(dr) that ends after `w` samples of 1: the Sleep, or the poll's samples and the one that reads 0. -/
def State.waited (dr : BitVec 3) (w : Nat) (s : State) : State :=
  match s.waitMode with
  | .timed => s.sleepFor (s.num.eval fun N => convIntervalTable N dr)
  | .polled => (State.takeSamples w s.pollStart).poll.1

/-- Everything a WAIT does that ends after `w` samples of 1 (43_adc_channel.md R176). -/
theorem State.waited_eq (w : Nat) (h : s.WaitEnds s.waitMode 0 w) : s.waited dr w = { s with
    csN := if s.waitMode = .polled ∧ s.pollCs = .asserted then s.csN.map (fun _ => true) else s.csN,
    din := s.din.drop (waitSamples s.waitMode w), drawn := s.drawn + waitSamples s.waitMode w,
    trace := s.trace ++ s.waitEvents dr w } := by
  unfold State.WaitEnds at h
  unfold State.waited State.waitEvents
  cases hm : s.waitMode
  · simp only [waitSamples]; cases s; simp_all [State.sleepFor, State.log]
  · rw [hm] at h
    obtain ⟨h1, h0⟩ := h
    simp only [Nat.zero_add] at h1 h0
    have hu : s.pollStart.upcoming = s.upcoming := by rw [State.pollStart_eq]; rfl
    rw [State.poll_eq _ (by rw [State.takeSamples_upcoming, hu]; exact h0), State.takeSamples_eq, hu,
      map_pinSample_of _ _ h1, State.pollStart_eq]
    have hc : (if s.pollCs = .asserted then s.csN.map (fun _ => false) else s.csN).isSome = s.hasCs := by
      unfold State.hasCs; split <;> simp
    simp only [waitSamples, State.hasCs, hc, true_and, List.tail_drop, Nat.add_assoc]
    congr 1
    · split <;> simp
    · simp

/-- A WAIT that ends at its first sample. -/
theorem State.wait_waited (h : s.WaitEnds s.waitMode 0 0) : s.wait dr = (s.waited dr 0, true) := by
  rw [Prod.ext_iff]
  refine ⟨?_, (State.wait_snd s dr).2 h⟩
  unfold State.waited
  cases hm : s.waitMode
  · rw [State.wait_timed s dr hm]
  · rw [State.wait_polled s dr hm]; rfl

/-- CS_N after a WAIT that has ended: high where POLL_CS is asserted and the wait was POLLED, else as before. -/
theorem State.wait_csN (h : s.WaitEnds s.waitMode 0 0) :
    (s.wait dr).1.csN = if s.waitMode = .polled ∧ s.pollCs = .asserted then s.csN.map (fun _ => true) else s.csN := by
  rw [State.wait_waited s dr h, State.waited_eq s dr 0 h]

/-- The events of a WAIT that ends at once. -/
theorem State.wait_trace (h : s.WaitEnds s.waitMode 0 0) : (s.wait dr).1.trace = s.trace ++ s.waitEvents dr 0 := by
  rw [State.wait_waited s dr h, State.waited_eq s dr 0 h]

/-! ### Steps inside a POLLED wait -/

theorem steps_add (n m : Nat) (s t : State) (h : steps n s = .next t) : steps (n + m) s = steps m t := by
  induction n generalizing s with
  | zero => cases h; rw [Nat.zero_add]
  | succ n ih =>
    rw [steps] at h
    rw [Nat.add_right_comm, steps]
    split at h
    · exact ih _ h
    · cases h
    · cases h

/-- A step inside a POLLED wait whose sample reads 1. -/
theorem step_high (p : Polling) (h1 : s.seq = .polling p) (h2 : s.upcoming 0 = true) : step s = .next s.takeSample := by
  simp [step, State.advance, h1, State.resume, State.poll_waiting _ h2]

/-- A step inside a POLLED wait whose sample reads 0. -/
theorem step_low (p : Polling) (h1 : s.seq = .polling p) (h2 : s.upcoming 0 = false) :
    step s = .next (State.afterWait p s.poll.1) := by
  simp [step, State.advance, h1, State.resume, State.poll_snd, h2]

/-- `n` steps inside a POLLED wait whose samples read 1. -/
theorem steps_high (n : Nat) (s : State) (p : Polling) (h1 : s.seq = .polling p) (h2 : ∀ j < n, s.upcoming j = true) :
    steps n s = .next (State.takeSamples n s) := by
  induction n generalizing s with
  | zero => rfl
  | succ n ih =>
    rw [steps, step_high s p h1 (h2 0 (by omega)), State.takeSamples]
    exact ih _ h1 fun j hj => by rw [State.takeSample_upcoming]; exact h2 (j + 1) (by omega)

/-- The steps of a POLLED wait to its end. -/
theorem steps_low (n : Nat) (s : State) (p : Polling) (h1 : s.seq = .polling p) (h2 : ∀ j < n, s.upcoming j = true)
    (h3 : s.upcoming n = false) : steps (n + 1) s = .next (State.afterWait p (State.takeSamples n s).poll.1) := by
  rw [steps_add n 1 s _ (steps_high n s p h1 h2), steps, step_low _ p (by rw [State.takeSamples_eq]; exact h1)
    (by rw [State.takeSamples_upcoming]; exact h3)]
  rfl

end Sys2Proof.Machine
end

