-- ==== Sys2Proof/Laws/Batch.lean ====
section
/-! SUPPORT. What the two loops of CH_READ_BATCH do, said once (43_adc_channel.md R180). -/

namespace Sys2Proof.Machine

/-! ### The batch buffers -/

theorem State.bcmdAt_setBcmd (s : State) {k : Nat} (hk : k < 16) (c : AdcConfig) (j : Nat) :
    (s.setBcmd k c).bcmdAt j = if j = k then c else s.bcmdAt j := by
  unfold State.bcmdAt State.setBcmd
  by_cases h : j = k
  · subst h; simp [hk]
  · simp [h, Ne.symm h]

theorem State.brawAt_setBraw (s : State) {k : Nat} (hk : k < 17) (r : RawExchange) (j : Nat) :
    (s.setBraw k r).brawAt j = if j = k then r else s.brawAt j := by
  unfold State.brawAt State.setBraw
  by_cases h : j = k
  · subst h; simp [hk]
  · simp [h, Ne.symm h]

theorem State.bcmdAt_congr {s t : State} (h : s.bcmd = t.bcmd) (k : Nat) : s.bcmdAt k = t.bcmdAt k := by
  simp [State.bcmdAt, h]

theorem State.brawAt_congr {s t : State} (h : s.braw = t.braw) (k : Nat) : s.brawAt k = t.brawAt k := by
  simp [State.brawAt, h]

/-! ### Sending one command -/

section
variable (s : State) (k : Nat) (c : AdcConfig)

theorem State.batchSend_eq :
    s.batchSend k c = ((s.setBcmd k c).exchange (encodeConfig c)).setBraw k (s.sampledRaw 0) := by
  have : (s.setBcmd k c).sampledRaw 0 = s.sampledRaw 0 := rfl
  simp [State.batchSend, this]

@[simp] theorem State.batchSend_chan : (s.batchSend k c).chan = s.chan := by simp [State.batchSend_eq]
@[simp] theorem State.batchSend_waitMode : (s.batchSend k c).waitMode = s.waitMode := by simp [State.batchSend_eq]
@[simp] theorem State.batchSend_pull : (s.batchSend k c).pull = s.pull := by simp [State.batchSend_eq]
@[simp] theorem State.batchSend_sclk : (s.batchSend k c).sclk = false := by simp [State.batchSend_eq]
@[simp] theorem State.batchSend_slot : (s.batchSend k c).slot = 32 := by simp [State.batchSend_eq]
@[simp] theorem State.batchSend_csN : (s.batchSend k c).csN = s.csN.map fun _ => true := by simp [State.batchSend_eq]
@[simp] theorem State.batchSend_bres : (s.batchSend k c).bres = s.bres := by simp [State.batchSend_eq]
@[simp] theorem State.batchSend_bn : (s.batchSend k c).bn = s.bn := by simp [State.batchSend_eq]
@[simp] theorem State.batchSend_hostReq : (s.batchSend k c).hostReq = s.hostReq := by simp [State.batchSend_eq]
@[simp] theorem State.batchSend_hostResp : (s.batchSend k c).hostResp = s.hostResp := by simp [State.batchSend_eq]
@[simp] theorem State.batchSend_seq : (s.batchSend k c).seq = s.seq := by simp [State.batchSend_eq]
@[simp] theorem State.batchSend_pollCs : (s.batchSend k c).pollCs = s.pollCs := by simp [State.batchSend_eq]
@[simp] theorem State.batchSend_batchAbort : (s.batchSend k c).batchAbort = s.batchAbort := by simp [State.batchSend_eq]
@[simp] theorem State.batchSend_num : (s.batchSend k c).num = s.num := by simp [State.batchSend_eq]
@[simp] theorem State.batchSend_reals : (s.batchSend k c).reals = s.reals := by simp [State.batchSend_eq]
@[simp] theorem State.batchSend_hasCs : (s.batchSend k c).hasCs = s.hasCs := by simp [State.batchSend_eq]
@[simp] theorem State.batchSend_drawn : (s.batchSend k c).drawn = s.drawn + 32 := by simp [State.batchSend_eq]
@[simp] theorem State.batchSend_din : (s.batchSend k c).din = s.din.drop 32 := by simp [State.batchSend_eq]
@[simp] theorem State.batchSend_upcoming (i : Nat) : (s.batchSend k c).upcoming i = s.upcoming (32 + i) := by
  simp [State.batchSend_eq]
@[simp] theorem State.batchSend_trace :
    (s.batchSend k c).trace = s.trace ++ exchangeEvents s.hasCs (encodeConfig c) s.upcoming := by
  simp only [State.batchSend_eq, State.setBraw_trace, State.exchange_trace, State.setBcmd_trace, State.setBcmd_hasCs]; rfl
@[simp] theorem State.batchSend_rawExchange : (s.batchSend k c).rawExchange = s.sampledRaw 0 :=
  State.exchange_rawExchange (s.setBcmd k c) (encodeConfig c)

theorem State.batchSend_bcmdAt (hk : k < 16) (j : Nat) :
    (s.batchSend k c).bcmdAt j = if j = k then c else s.bcmdAt j := by
  rw [← State.bcmdAt_setBcmd s hk c j, State.batchSend_eq]; exact State.bcmdAt_congr (by simp) j

theorem State.batchSend_brawAt (hk : k < 17) (j : Nat) :
    (s.batchSend k c).brawAt j = if j = k then s.sampledRaw 0 else s.brawAt j := by
  rw [State.batchSend_eq, State.brawAt_setBraw _ hk]; split
  · rfl
  · exact State.brawAt_congr (by simp) j
end

/-! ### The operation does not depend on the sequencer position it runs from -/

section
variable (s : State) (p : Polling)

@[simp] theorem State.batchSend_suspend (k : Nat) (c : AdcConfig) :
    (s.suspend p).batchSend k c = (s.batchSend k c).suspend p := by
  rw [State.batchSend_eq, State.batchSend_eq, State.exchange_eq, State.exchange_eq]; rfl

theorem State.poll_suspend : (s.suspend p).poll = (s.poll.1.suspend p, s.poll.2) := by
  cases h : s.upcoming 0
  · have h' : (s.suspend p).upcoming 0 = false := h
    rw [Prod.ext_iff, State.poll_eq _ h', State.poll_eq _ h, State.poll_snd, State.poll_snd, h, h']; exact ⟨rfl, rfl⟩
  · have h' : (s.suspend p).upcoming 0 = true := h
    rw [State.poll_waiting _ h', State.poll_waiting _ h]; rfl

theorem State.pollStart_suspend : (s.suspend p).pollStart = s.pollStart.suspend p := by
  rw [State.pollStart_eq, State.pollStart_eq]; rfl

theorem State.wait_suspend (dr : BitVec 3) : (s.suspend p).wait dr = ((s.wait dr).1.suspend p, (s.wait dr).2) := by
  cases h : s.waitMode
  · rw [State.wait_timed s dr h, State.wait_timed (s.suspend p) dr h]; rfl
  · rw [State.wait_polled s dr h, State.wait_polled (s.suspend p) dr h, State.pollStart_suspend, State.poll_suspend]

theorem State.batchPair_suspend (n k : Nat) : (s.suspend p).batchPair k n = s.batchPair k n := by
  induction n generalizing k s with
  | zero => rfl
  | succ n ih =>
    rw [State.batchPair, State.batchPair]
    change (if s.batchAbort = .afterAll ∧ verify (s.bcmdAt k) (s.brawAt k).echo = false then _ else _) = _
    split
    · rfl
    · exact ih (s.setBres k _) (k + 1)

theorem State.batchFlush_suspend : (s.suspend p).batchFlush = s.batchFlush := by
  unfold State.batchFlush
  have h : (s.suspend p).exchange probeWord = (s.exchange probeWord).suspend p := by
    rw [State.exchange_eq, State.exchange_eq]; rfl
  rw [h]
  exact State.batchPair_suspend ((s.exchange probeWord).setBraw s.bn (s.exchange probeWord).rawExchange) p s.bn 0

/-- The first loop from a state inside a POLLED wait is that from the state between operations. -/
theorem State.batchFrom_suspend (cs : List AdcConfig) (k : Nat) : (s.suspend p).batchFrom k cs = s.batchFrom k cs := by
  induction cs generalizing k s with
  | nil => exact State.batchFlush_suspend s p
  | cons c rest ih =>
    rw [State.batchFrom, State.batchFrom]
    simp only [State.batchSend_suspend, State.wait_suspend]
    change (if s.batchAbort = .atFault ∧ verify c (s.batchSend k c).rawExchange.echo = false then _ else _) = _
    split
    · rfl
    · split
      · exact ih _ _
      · rfl
end

/-! ### An operation's WAIT to its end -/

/-- The steps after a WAIT's first sample lead to what comes after the wait. -/
theorem State.waitThen_run (s : State) (dr : BitVec 3) (w : Nat) (p : Polling) (f : State → State)
    (h : s.WaitEnds s.waitMode 0 w) (hf : ∀ t, State.afterWait p (t.suspend p) = f t) :
    steps w (s.waitThen dr p f) = .next (f (s.waited dr w)) := by
  unfold State.waitThen
  have hs := State.wait_snd s dr
  cases w with
  | zero => rw [if_pos (hs.2 h), State.wait_waited _ _ h]; rfl
  | succ m =>
    unfold State.WaitEnds at h
    cases hm : s.waitMode
    · rw [hm] at h; cases h
    · rw [hm] at h
      obtain ⟨h1, h0⟩ := h
      simp only [Nat.zero_add] at h1 h0
      have hu : ∀ i, s.pollStart.upcoming i = s.upcoming i := fun i => by rw [State.pollStart_eq]; rfl
      have hp : s.wait dr = (s.pollStart.takeSample, false) := by
        rw [State.wait_polled _ _ hm, State.poll_waiting _ (by rw [hu]; exact h1 0 (by omega))]
      simp only [hp, Bool.false_eq_true, if_false]
      have e : ∀ i, (s.pollStart.takeSample.suspend p).upcoming i = s.upcoming (i + 1) := fun i =>
        (State.takeSample_upcoming _ i).trans (hu (i + 1))
      rw [steps_low m _ p rfl (fun j hj => by rw [e]; exact h1 (j + 1) (by omega)) (by rw [e]; exact h0)]
      have hc : ∀ (n : Nat) (t : State), State.takeSamples n (t.suspend p) = (State.takeSamples n t).suspend p :=
        fun n t => by rw [State.takeSamples_eq, State.takeSamples_eq]; rfl
      rw [hc, State.poll_suspend, hf]
      unfold State.waited
      rw [hm]; rfl

/-! ### The first loop, each wait to its end -/

/-- The state after the first loop has sent the commands `cs` from command `k`, and waited for each, wait `j` seeing `w j`
samples of 1. -/
def State.batchSent : Nat → List AdcConfig → (Nat → Nat) → State → State
  | _, [], _, s => s
  | k, c :: rest, w, s =>
    State.batchSent (k + 1) rest (fun j => w (j + 1)) ((s.batchSend k c).waited c.dataRate (w 0))

theorem batchSteps_succ (w : Nat → Nat) (n : Nat) : batchSteps w (n + 1) = w 0 + batchSteps (fun j => w (j + 1)) n := by
  simp [batchSteps, List.range_succ_eq_map, Function.comp_def]

theorem State.sampledWord_congr {s t : State} {a b : Nat} (h : ∀ i, s.upcoming (a + i) = t.upcoming (b + i)) :
    s.sampledWord a = t.sampledWord b := by
  unfold State.sampledWord; congr 1; exact List.map_congr_left fun i _ => h i

theorem State.sampledRaw_congr {s t : State} {a b : Nat} (h : ∀ i, s.upcoming (a + i) = t.upcoming (b + i)) :
    s.sampledRaw a = t.sampledRaw b := by
  have h2 : s.sampledWord (a + 16) = t.sampledWord (b + 16) :=
    State.sampledWord_congr fun i => by rw [Nat.add_assoc, Nat.add_assoc]; exact h (16 + i)
  unfold State.sampledRaw
  rw [State.sampledWord_congr h, h2]

theorem State.batchAt_add_one (s : State) (w : Nat → Nat) (j : Nat) :
    s.batchAt w (j + 1) = s.batchAt w j + 32 + waitSamples s.waitMode (w j) := rfl

/-- The sample offsets from the second exchange on. -/
theorem State.batchAt_succ (s : State) (w : Nat → Nat) (j : Nat) :
    s.batchAt w (j + 1) = s.batchAt w 1 + s.batchAt (fun i => w (i + 1)) j := by
  induction j with
  | zero => rfl
  | succ j ih => rw [State.batchAt_add_one, ih, State.batchAt_add_one _ _ j, Nat.add_assoc, Nat.add_assoc, Nat.add_assoc]

theorem State.batchAt_one (s : State) (w : Nat → Nat) : s.batchAt w 1 = 32 + waitSamples s.waitMode (w 0) := by
  simp [State.batchAt]

theorem State.batchAt_congr {s t : State} (h : s.waitMode = t.waitMode) (w : Nat → Nat) (j : Nat) :
    s.batchAt w j = t.batchAt w j := by
  induction j with
  | zero => rfl
  | succ j ih => rw [State.batchAt_add_one, State.batchAt_add_one, ih, h]

/-- One command sent and waited for. -/
def State.sentOne (s : State) (k : Nat) (c : AdcConfig) (w : Nat) : State := (s.batchSend k c).waited c.dataRate w

section
variable {s : State} {k : Nat} {c : AdcConfig} {w : Nat → Nat}

theorem State.batchWaits_first {n : Nat} (h : s.BatchWaits w (n + 1)) :
    (s.batchSend k c).WaitEnds (s.batchSend k c).waitMode 0 (w 0) := by
  have h0 := h 0 (by omega)
  unfold State.WaitEnds at *
  rw [State.batchSend_waitMode]
  cases hm : s.waitMode
  · rw [hm] at h0; exact h0
  · rw [hm] at h0
    simpa [State.batchAt, Nat.add_assoc, Nat.add_comm 32] using h0

/-- Everything sending a command and waiting for it does (43_adc_channel.md R165, R176, R180). -/
theorem State.sentOne_eq (h : (s.batchSend k c).WaitEnds (s.batchSend k c).waitMode 0 (w 0)) :
    s.sentOne k c (w 0) = { s.batchSend k c with
      csN := s.csN.map fun _ => true, din := s.din.drop (s.batchAt w 1), drawn := s.drawn + s.batchAt w 1,
      trace := s.trace ++ (exchangeEvents s.hasCs (encodeConfig c) s.upcoming ++ s.waitEvents c.dataRate (w 0)) } := by
  have e1 : ∀ d, (s.batchSend k c).waitEvents d (w 0) = s.waitEvents d (w 0) := fun d => by simp [State.waitEvents]
  rw [State.sentOne, State.waited_eq _ _ _ h, State.batchAt_one]
  simp only [State.batchSend_csN, State.batchSend_waitMode, State.batchSend_pollCs, State.batchSend_din,
    State.batchSend_drawn, State.batchSend_trace, List.drop_drop, Nat.add_assoc, List.append_assoc, e1, Option.map_map,
    Function.comp_def, ite_self]

theorem State.sentOne_upcoming (h : (s.batchSend k c).WaitEnds (s.batchSend k c).waitMode 0 (w 0)) (i : Nat) :
    (s.sentOne k c (w 0)).upcoming i = s.upcoming (s.batchAt w 1 + i) := by
  rw [State.sentOne_eq h]; simp [State.upcoming, Nat.add_assoc]

theorem State.sentOne_waitMode (h : (s.batchSend k c).WaitEnds (s.batchSend k c).waitMode 0 (w 0)) :
    (s.sentOne k c (w 0)).waitMode = s.waitMode := by
  rw [State.sentOne_eq h]; simp

/-- The samples of the exchanges to come, after one. -/
theorem State.sentOne_sampledRaw (h : (s.batchSend k c).WaitEnds (s.batchSend k c).waitMode 0 (w 0)) (j : Nat) :
    (s.sentOne k c (w 0)).sampledRaw ((s.sentOne k c (w 0)).batchAt (fun i => w (i + 1)) j) =
      s.sampledRaw (s.batchAt w (j + 1)) :=
  State.sampledRaw_congr fun i => by
    rw [State.sentOne_upcoming h, State.batchAt_succ s w j, State.batchAt_congr (State.sentOne_waitMode h), Nat.add_assoc]

theorem State.batchWaits_rest {n : Nat} (h : s.BatchWaits w (n + 1)) :
    (s.sentOne k c (w 0)).BatchWaits (fun j => w (j + 1)) n := by
  have h1 := State.batchWaits_first (k := k) (c := c) h
  intro j hj
  have hj := h (j + 1) (by omega)
  unfold State.WaitEnds at *
  rw [State.sentOne_waitMode h1]
  cases hm : s.waitMode
  · rw [hm] at hj; exact hj
  · rw [hm] at hj
    have e : ∀ i, (s.sentOne k c (w 0)).upcoming ((s.sentOne k c (w 0)).batchAt (fun j => w (j + 1)) j + 32 + i) =
        s.upcoming (s.batchAt w (j + 1) + 32 + i) := fun i => by
      rw [State.sentOne_upcoming h1, State.batchAt_succ s w j, State.batchAt_congr (State.sentOne_waitMode h1)]
      congr 1; omega
    exact ⟨fun i hi => by rw [e]; exact hj.1 i hi, by rw [e]; exact hj.2⟩

/-- A batch's first loop, its first command's echo passing: the steps of that command's wait lead to the loop's rest. -/
theorem State.batchFrom_cons_run {rest : List AdcConfig}
    (h : (s.batchSend k c).WaitEnds (s.batchSend k c).waitMode 0 (w 0))
    (hv : ¬(s.batchAbort = .atFault ∧ verify c (s.sampledRaw 0).echo = false)) :
    steps (w 0) (s.batchFrom k (c :: rest)) = .next ((s.sentOne k c (w 0)).batchFrom (k + 1) rest) := by
  rw [State.batchFrom]
  simp only [State.batchSend_rawExchange, if_neg hv]
  exact State.waitThen_run (s.batchSend k c) c.dataRate (w 0) (.batch k rest) (State.batchFrom (k + 1) rest) h
    fun t => State.batchFrom_suspend t _ rest (k + 1)
end

/-- Where each wait ends and no echo stops it, the first loop's steps lead to `batchSent` and then the flush. -/
theorem State.batchFrom_run (cs : List AdcConfig) (k : Nat) (w : Nat → Nat) (s : State) (hw : s.BatchWaits w cs.length)
    (hv : s.batchAbort = .atFault → ∀ j < cs.length,
      verify (cs.getD j zeroConfig) (s.sampledRaw (s.batchAt w j)).echo = true) :
    steps (batchSteps w cs.length) (s.batchFrom k cs) = .next (State.batchSent k cs w s).batchFlush := by
  induction cs generalizing k s w with
  | nil => rfl
  | cons c rest ih =>
    have h0 := State.batchWaits_first (k := k) (c := c) hw
    rw [List.length_cons, batchSteps_succ, steps_add _ _ _ _ (State.batchFrom_cons_run h0 ?_)]
    · refine ih (k + 1) _ _ (State.batchWaits_rest hw) fun ha j hj => ?_
      rw [State.sentOne_sampledRaw h0]
      exact hv (by rw [State.sentOne_eq h0] at ha; simpa using ha) (j + 1) (by simpa using hj)
    · rintro ⟨ha, hf⟩
      have h1 : verify c (s.sampledRaw 0).echo = true := hv ha 0 (by simp)
      rw [h1] at hf
      exact Bool.noConfusion hf

/-- Under AT_FAULT, command `i` being the first whose echo does not verify: the commands before it are sent and waited for,
it is sent, and the fault is raised with no wait after it. -/
theorem State.batchFrom_run_fault (cs : List AdcConfig) (k : Nat) (w : Nat → Nat) (s : State) (i : Nat)
    (hi : i < cs.length) (ha : s.batchAbort = .atFault) (hw : s.BatchWaits w i)
    (hv : ∀ j < i, verify (cs.getD j zeroConfig) (s.sampledRaw (s.batchAt w j)).echo = true)
    (hf : verify (cs.getD i zeroConfig) (s.sampledRaw (s.batchAt w i)).echo = false) :
    steps (batchSteps w i) (s.batchFrom k cs) =
      .next (((State.batchSent k (cs.take i) w s).batchSend (k + i) (cs.getD i zeroConfig)).batchFault
        (s.sampledRaw (s.batchAt w i)).echo) := by
  induction cs generalizing k s w i with
  | nil => simp at hi
  | cons c rest ih =>
    cases i with
    | zero =>
      have hf' : verify c (s.sampledRaw 0).echo = false := hf
      show Host.Outcome.next _ = _
      rw [State.batchFrom, if_pos ⟨by simpa using ha, by simpa using hf'⟩, State.batchSend_rawExchange]
      rfl
    | succ i =>
      have h0 := State.batchWaits_first (k := k) (c := c) hw
      rw [batchSteps_succ, steps_add _ _ _ _ (State.batchFrom_cons_run h0 ?_), ← State.sentOne_sampledRaw h0 i]
      · rw [ih (k + 1) _ _ i (by simpa using hi) (by rw [State.sentOne_eq h0]; simpa using ha) (State.batchWaits_rest hw)
          (fun j hj => by rw [State.sentOne_sampledRaw h0]; simpa using hv (j + 1) (by omega))
          (by rw [State.sentOne_sampledRaw h0]; simpa using hf)]
        rw [List.take_succ_cons, State.batchSent, List.getD_cons_succ, show k + 1 + i = k + (i + 1) by omega]; rfl
      · rintro ⟨_, hf⟩
        have h1 : verify c (s.sampledRaw 0).echo = true := hv 0 (by omega)
        rw [h1] at hf
        exact Bool.noConfusion hf

/-- What the first loop leaves: its effect on every register and on the events. -/
theorem State.batchSent_spec (cs : List AdcConfig) (k : Nat) (w : Nat → Nat) (s : State) (hw : s.BatchWaits w cs.length)
    (hk : k + cs.length ≤ 16) :
    let t := State.batchSent k cs w s
    (∀ i, t.upcoming i = s.upcoming (s.batchAt w cs.length + i)) ∧
    (∀ j (hj : j < cs.length), t.bcmdAt (k + j) = cs[j] ∧ t.brawAt (k + j) = s.sampledRaw (s.batchAt w j)) ∧
    (∀ j, (j < k ∨ k + cs.length ≤ j) → t.bcmdAt j = s.bcmdAt j ∧ t.brawAt j = s.brawAt j) ∧
    t.drawn = s.drawn + s.batchAt w cs.length ∧ t.hasCs = s.hasCs ∧
    t.chan = s.chan ∧ t.waitMode = s.waitMode ∧ t.pull = s.pull ∧ t.bres = s.bres ∧ t.bn = s.bn ∧
    t.hostReq = s.hostReq ∧ t.hostResp = s.hostResp ∧ t.seq = s.seq ∧ t.pollCs = s.pollCs ∧
    t.batchAbort = s.batchAbort ∧ t.num = s.num ∧ t.reals = s.reals ∧ t.din = s.din.drop (s.batchAt w cs.length) ∧
    t.trace = s.trace ++ s.batchEvents cs w := by
  induction cs generalizing k s w with
  | nil => simp [State.batchSent, State.batchAt, State.batchEvents]
  | cons c rest ih =>
    have h0 := State.batchWaits_first (k := k) (c := c) hw
    obtain ⟨i1, i2, i3, i4, i5, i6, i7, i8, i9, i10, i11, i12, i13, i14, i15, i16, i17, i18, i19⟩ :=
      ih (k + 1) _ _ (State.batchWaits_rest (k := k) (c := c) hw) (by simp at hk ⊢; omega)
    simp only [List.length_cons] at hk
    have hb : (s.sentOne k c (w 0)).bcmd = (s.batchSend k c).bcmd := by rw [State.sentOne_eq h0]
    have hr : (s.sentOne k c (w 0)).braw = (s.batchSend k c).braw := by rw [State.sentOne_eq h0]
    have hcs : (s.sentOne k c (w 0)).hasCs = s.hasCs := by rw [State.sentOne_eq h0]; simp [State.hasCs]
    have hat := State.batchAt_congr (State.sentOne_waitMode (k := k) (c := c) h0) fun j => w (j + 1)
    have h1 : ∀ j, s.batchAt w 1 + s.batchAt (fun j => w (j + 1)) j = s.batchAt w (j + 1) := fun j =>
      (State.batchAt_succ s w j).symm
    rw [show State.batchSent k (c :: rest) w s =
      State.batchSent (k + 1) rest (fun j => w (j + 1)) (s.sentOne k c (w 0)) from rfl]
    generalize State.batchSent (k + 1) rest (fun j => w (j + 1)) (s.sentOne k c (w 0)) = t at *
    refine ⟨?_, ?_, ?_, ?_, ?_, ?_, ?_, ?_, ?_, ?_, ?_, ?_, ?_, ?_, ?_, ?_, ?_, ?_, ?_⟩
    · intro i
      rw [i1, State.sentOne_upcoming h0, hat, List.length_cons, ← h1 rest.length, Nat.add_assoc]
    · intro j hj
      cases j with
      | zero =>
        obtain ⟨a, b⟩ := i3 k (.inl (by omega))
        rw [Nat.add_zero, a, b, State.bcmdAt_congr hb, State.brawAt_congr hr, State.batchSend_bcmdAt _ _ _ (by omega),
          State.batchSend_brawAt _ _ _ (by omega)]
        simp [State.batchAt]
      | succ j =>
        rw [show k + (j + 1) = k + 1 + j by omega]
        obtain ⟨a, b⟩ := i2 j (by simpa using hj)
        rw [a, b, State.sentOne_sampledRaw h0]
        exact ⟨by simp, rfl⟩
    · intro j hj
      rw [List.length_cons] at hj
      obtain ⟨a, b⟩ := i3 j (by omega)
      rw [a, b, State.bcmdAt_congr hb, State.brawAt_congr hr, State.batchSend_bcmdAt _ _ _ (by omega), if_neg (by omega),
        State.batchSend_brawAt _ _ _ (by omega), if_neg (by omega)]
      exact ⟨rfl, rfl⟩
    · rw [i4, hat, List.length_cons, ← h1 rest.length, State.sentOne_eq h0, Nat.add_assoc]
    · rw [i5, hcs]
    · rw [i6, State.sentOne_eq h0]; simp
    · rw [i7, State.sentOne_eq h0]; simp
    · rw [i8, State.sentOne_eq h0]; simp
    · rw [i9, State.sentOne_eq h0]; simp
    · rw [i10, State.sentOne_eq h0]; simp
    · rw [i11, State.sentOne_eq h0]; simp
    · rw [i12, State.sentOne_eq h0]; simp
    · rw [i13, State.sentOne_eq h0]; simp
    · rw [i14, State.sentOne_eq h0]; simp
    · rw [i15, State.sentOne_eq h0]; simp
    · rw [i16, State.sentOne_eq h0]; simp
    · rw [i17, State.sentOne_eq h0]; simp
    · rw [i18, hat, List.length_cons, ← h1 rest.length, State.sentOne_eq h0, List.drop_drop]
    · have e1 : (s.sentOne k c (w 0)).trace =
          s.trace ++ (exchangeEvents s.hasCs (encodeConfig c) s.upcoming ++ s.waitEvents c.dataRate (w 0)) := by
        rw [State.sentOne_eq h0]
      have e2 : ∀ d n, (s.sentOne k c (w 0)).waitEvents d n = s.waitEvents d n := fun d n => by
        unfold State.waitEvents; rw [hcs, State.sentOne_eq h0]; simp
      rw [i19, e1, State.batchEvents, State.batchEvents, List.length_cons, List.range_succ_eq_map, List.flatMap_cons,
        List.flatMap_map, List.append_assoc]
      simp only [e2, hcs, hat, State.sentOne_upcoming h0, ← Nat.add_assoc, h1]
      simp [State.batchAt]

/-! ### The flush and the second loop -/

/-- `s` with all of BRES given. -/
def State.withBres (b : Vector Measurement 16) (s : State) : State := { s with bres := b }

section
variable (s : State) (b : Vector Measurement 16)
@[simp] theorem State.withBres_bres : (s.withBres b).bres = b := rfl
@[simp] theorem State.withBres_chan : (s.withBres b).chan = s.chan := rfl
@[simp] theorem State.withBres_waitMode : (s.withBres b).waitMode = s.waitMode := rfl
@[simp] theorem State.withBres_pull : (s.withBres b).pull = s.pull := rfl
@[simp] theorem State.withBres_sclk : (s.withBres b).sclk = s.sclk := rfl
@[simp] theorem State.withBres_dout : (s.withBres b).dout = s.dout := rfl
@[simp] theorem State.withBres_csN : (s.withBres b).csN = s.csN := rfl
@[simp] theorem State.withBres_tx : (s.withBres b).tx = s.tx := rfl
@[simp] theorem State.withBres_rx : (s.withBres b).rx = s.rx := rfl
@[simp] theorem State.withBres_slot : (s.withBres b).slot = s.slot := rfl
@[simp] theorem State.withBres_bcmd : (s.withBres b).bcmd = s.bcmd := rfl
@[simp] theorem State.withBres_braw : (s.withBres b).braw = s.braw := rfl
@[simp] theorem State.withBres_bn : (s.withBres b).bn = s.bn := rfl
@[simp] theorem State.withBres_hostReq : (s.withBres b).hostReq = s.hostReq := rfl
@[simp] theorem State.withBres_hostResp : (s.withBres b).hostResp = s.hostResp := rfl
@[simp] theorem State.withBres_seq : (s.withBres b).seq = s.seq := rfl
@[simp] theorem State.withBres_pollCs : (s.withBres b).pollCs = s.pollCs := rfl
@[simp] theorem State.withBres_batchAbort : (s.withBres b).batchAbort = s.batchAbort := rfl
@[simp] theorem State.withBres_num : (s.withBres b).num = s.num := rfl
@[simp] theorem State.withBres_reals : (s.withBres b).reals = s.reals := rfl
@[simp] theorem State.withBres_din : (s.withBres b).din = s.din := rfl
@[simp] theorem State.withBres_drawn : (s.withBres b).drawn = s.drawn := rfl
@[simp] theorem State.withBres_trace : (s.withBres b).trace = s.trace := rfl
@[simp] theorem State.withBres_hasCs : (s.withBres b).hasCs = s.hasCs := rfl
@[simp] theorem State.withBres_upcoming (i : Nat) : (s.withBres b).upcoming i = s.upcoming i := rfl
@[simp] theorem State.withBres_bcmdAt (i : Nat) : (s.withBres b).bcmdAt i = s.bcmdAt i := rfl
@[simp] theorem State.withBres_brawAt (i : Nat) : (s.withBres b).brawAt i = s.brawAt i := rfl
end

/-- A latch that exists, at 1: only whether it exists matters. -/
theorem State.csN_map_congr {s t : State} (h : s.hasCs = t.hasCs) :
    s.csN.map (fun _ => true) = t.csN.map (fun _ => true) := by
  unfold State.hasCs at h
  cases h1 : s.csN <;> cases h2 : t.csN <;> simp_all

/-- A batch whose echoes from `k` on all verify ends with its measurements. -/
theorem State.batchPair_ok (n k : Nat) (s : State) (hk : k + n ≤ 16)
    (hv : s.batchAbort = .afterAll → ∀ j, k ≤ j → j < k + n → verify (s.bcmdAt j) (s.brawAt j).echo = true) :
    ∃ b : Vector Measurement 16,
      s.batchPair k n = (s.withBres b).finishIdle (.measList ((s.withBres b).bresUpTo s.bn)) ∧
      (∀ j, (j < k ∨ k + n ≤ j) → b.toList[j]? = s.bres.toList[j]?) ∧
      ∀ j, k ≤ j → j < k + n → b.toList[j]? = some (interpret s.num (s.bcmdAt j) (seq16 (s.brawAt (j + 1)).data)) := by
  induction n generalizing k s with
  | zero => exact ⟨s.bres, rfl, fun _ _ => rfl, fun j h1 h2 => by omega⟩
  | succ n ih =>
    rw [State.batchPair, if_neg]
    · obtain ⟨b, e, h1, h2⟩ := ih (k + 1) (s.setBres k (interpret s.num (s.bcmdAt k) (seq16 (s.brawAt (k + 1)).data)))
        (by omega) (fun ha j hj1 hj2 => hv ha j (by omega) (by omega))
      refine ⟨b, e, ?_, ?_⟩
      · intro j hj
        rw [h1 j (by omega)]
        simp [show k ≠ j by omega]
      · intro j hj1 hj2
        by_cases hjk : j = k
        · subst hjk
          rw [h1 j (by omega)]
          simp [show j < 16 by omega]
        · exact h2 j (by omega) (by omega)
    · rintro ⟨ha, hf⟩
      have := hv ha k (by omega) (by omega)
      simp [this] at hf

/-- Under AFTER_ALL, the first echo from `k` on that does not verify gives the fault. -/
theorem State.batchPair_fault (n k : Nat) (s : State) (ha : s.batchAbort = .afterAll) (i : Nat) (hki : k ≤ i)
    (hi : i < k + n) (hn : k + n ≤ 16) (hv : ∀ j, k ≤ j → j < i → verify (s.bcmdAt j) (s.brawAt j).echo = true)
    (hf : verify (s.bcmdAt i) (s.brawAt i).echo = false) :
    ∃ b : Vector Measurement 16, s.batchPair k n = (s.withBres b).batchFault (s.brawAt i).echo ∧
      (∀ j, (j < k ∨ i < j) → b.toList[j]? = s.bres.toList[j]?) ∧
      ∀ j, k ≤ j → j ≤ i → b.toList[j]? = some (interpret s.num (s.bcmdAt j) (seq16 (s.brawAt (j + 1)).data)) := by
  induction n generalizing k s with
  | zero => omega
  | succ n ih =>
    by_cases hik : i = k
    · subst hik
      refine ⟨(s.bres.setIfInBounds i (interpret s.num (s.bcmdAt i) (seq16 (s.brawAt (i + 1)).data))),
        by rw [State.batchPair, if_pos ⟨ha, hf⟩]; rfl, ?_, ?_⟩
      · intro j hj; simp [show i ≠ j by omega]
      · intro j h1 h2
        have : j = i := by omega
        subst this
        simp [show j < 16 by omega]
    · rw [State.batchPair, if_neg]
      · obtain ⟨b, e, h1, h2⟩ := ih (k + 1) (s.setBres k (interpret s.num (s.bcmdAt k) (seq16 (s.brawAt (k + 1)).data))) ha
          (by omega) (by omega) (by omega) (fun j h1 h2 => hv j (by omega) h2) hf
        refine ⟨b, e, ?_, ?_⟩
        · intro j hj
          rw [h1 j (by omega)]
          simp [show k ≠ j by omega]
        · intro j hj1 hj2
          by_cases hjk : j = k
          · subst hjk
            rw [h1 j (by omega)]
            simp [show j < 16 by omega]
          · exact h2 j (by omega) (by omega)
      · rintro ⟨_, h⟩
        have := hv k (Nat.le_refl k) (by omega)
        simp [this] at h

end Sys2Proof.Machine
end

