-- ==== Sys2Proof/Laws/Binary64.lean ====
section
/-! SUPPORT. Lemmas of the rounding and the order of Machine/Binary64.lean (00_scope.md R13). -/

namespace Sys2Proof

/-- The nearest whole number: within half, and even on a tie. -/
theorem roundHalfEven_spec (num den : Nat) (hd : 0 < den) :
    2 * ((roundHalfEven num den * den : Int) - num).natAbs ≤ den ∧
    (2 * ((roundHalfEven num den * den : Int) - num).natAbs = den → roundHalfEven num den % 2 = 0) := by
  have h1 := Nat.div_add_mod num den
  have h2 := Nat.mod_lt num hd
  unfold roundHalfEven
  simp only
  generalize num / den = q at *
  generalize num % den = r at *
  have h3 : (num : Int) = den * q + r := by rw [← h1]; push_cast; ring
  have e0 : ((q : Int) * den - num) = -(r : Int) := by rw [h3]; ring
  have e1 : (((q + 1 : Nat) : Int) * den - num) = den - r := by rw [h3]; push_cast; ring
  split
  · rw [e0]; omega
  · split
    · rw [e1]; omega
    · rcases Nat.mod_two_eq_zero_or_one q with h | h
      · rw [h, Nat.add_zero, e0]; omega
      · rw [h, e1]; omega

theorem roundHalfEven_bounds (num den : Nat) :
    num / den ≤ roundHalfEven num den ∧ roundHalfEven num den ≤ num / den + 1 := by
  unfold roundHalfEven
  simp only
  split
  · omega
  · split <;> omega

/-- Rounding is symmetric in sign. -/
theorem F64.round_not (neg : Bool) (num den : Nat) : F64.round (!neg) num den = (F64.round neg num den).neg := by
  unfold F64.round; simp only
  split <;> split <;> rfl

theorem F64.round_isNan (neg : Bool) (num den : Nat) : (F64.round neg num den).isNan = false := by
  unfold F64.round; simp only
  split <;> split <;> rfl

theorem F64.ofRat_isNan (num : Int) (den : Nat) : (F64.ofRat num den).isNan = false := F64.round_isNan _ _ _

theorem F64.isNan_of_isFinite {x : F64} (h : x.isFinite = true) : x.isNan = false := by
  cases x <;> simp_all [F64.isFinite, F64.isNan]

theorem F64.lt_iff (x y : F64) : F64.lt x y = true ↔ x.isNan = false ∧ y.isNan = false ∧ x.key < y.key := by
  unfold F64.lt; simp [and_assoc]

theorem F64.le_iff (x y : F64) : F64.le x y = true ↔ x.isNan = false ∧ y.isNan = false ∧ x.key ≤ y.key := by
  unfold F64.le; simp [and_assoc]

/-- The order is total away from NaN. -/
theorem F64.lt_of_not_le {x y : F64} (hx : x.isNan = false) (hy : y.isNan = false) (h : F64.le x y = false) :
    F64.lt y x = true := by
  rw [F64.lt_iff]
  refine ⟨hy, hx, ?_⟩
  by_contra hc
  rw [(F64.le_iff x y).2 ⟨hx, hy, by omega⟩] at h
  cases h

theorem F64.lt_of_le {x y : F64} (h : F64.le x y = true) : F64.lt y x = false := by
  rw [← Bool.not_eq_true, F64.lt_iff]
  have := ((F64.le_iff x y).1 h).2.2
  omega

/-- Rounding a value binary64 has gives that value. -/
theorem F64.round_exact (neg : Bool) (m0 e0 den : Nat) (hm : m0 < 2 ^ 53) (he : e0 ≤ 2044) (hd : 0 < den) :
    ∃ m e, F64.round neg (m0 * 2 ^ e0 * den) den = .fin neg m e ∧ m * 2 ^ e = m0 * 2 ^ e0 := by
  unfold F64.round
  simp only [Nat.mul_div_cancel _ hd]
  have hle : Nat.log2 (m0 * 2 ^ e0) - 52 ≤ e0 := by
    by_cases h0 : m0 = 0
    · subst h0; simp
    · have : m0 * 2 ^ e0 < 2 ^ (53 + e0) := by rw [pow_add]; exact Nat.mul_lt_mul_of_pos_right hm (by positivity)
      have := (Nat.log2_lt (by positivity)).2 this
      omega
  generalize Nat.log2 (m0 * 2 ^ e0) - 52 = e at *
  have hr : roundHalfEven (m0 * 2 ^ e0 * den) (den * 2 ^ e) = m0 * 2 ^ (e0 - e) := by
    have h1 : m0 * 2 ^ e0 * den = (m0 * 2 ^ (e0 - e)) * (den * 2 ^ e) := by
      have : 2 ^ e0 = 2 ^ (e0 - e) * 2 ^ e := by rw [← pow_add]; congr 1; omega
      rw [this]; ring
    have hp : 0 < den * 2 ^ e := by positivity
    unfold roundHalfEven
    simp only
    rw [h1, Nat.mul_mod_left, Nat.mul_div_cancel _ hp, if_pos (by omega)]
  rw [hr]
  have hk : m0 * 2 ^ (e0 - e) * 2 ^ e = m0 * 2 ^ e0 := by rw [mul_assoc, ← pow_add]; congr 2; omega
  split
  · rename_i h
    rw [if_pos (by omega)]
    refine ⟨_, _, rfl, ?_⟩
    rw [← hk, h]; ring
  · rw [if_pos (by omega)]
    exact ⟨_, _, rfl, hk⟩

end Sys2Proof
end

