-- ==== Sys2Proof/Laws/ExactReal.lean ====
section
/-! SUPPORT. The datapath EXACT as data is the datapath on the reals (00_scope.md R13): its arithmetic always, its order
on every pair the block may ask for. -/

namespace Sys2Proof

/-! ### Arithmetic -/

@[simp] theorem Exact.toReal_rat (q : ℚ) : (Exact.rat q).toReal = (q : ℝ) := rfl

@[simp] theorem Exact.toReal_plus (x y : Exact) : (x.plus y).toReal = x.toReal + y.toReal := by
  unfold Exact.plus; split <;> simp [Exact.toReal, Exact.valueAt]

@[simp] theorem Exact.toReal_times (x y : Exact) : (x.times y).toReal = x.toReal * y.toReal := by
  unfold Exact.times; split <;> simp [Exact.toReal, Exact.valueAt]

@[simp] theorem Exact.toReal_quot (x y : Exact) : (x.quot y).toReal = x.toReal / y.toReal := by
  unfold Exact.quot; split <;> simp [Exact.toReal, Exact.valueAt]

@[simp] theorem Exact.toReal_negate (x : Exact) : x.negate.toReal = -x.toReal := by simp [Exact.negate]

@[simp] theorem Exact.toReal_minus (x y : Exact) : (x.minus y).toReal = x.toReal - y.toReal := by
  simp [Exact.minus, sub_eq_add_neg]

@[simp] theorem Exact.toReal_expOf (x : Exact) : x.expOf.toReal = Real.exp x.toReal := by
  unfold Exact.expOf; split
  · rename_i h; simp [h]
  · rfl

/-! ### Bounds -/

theorem roundDown_le (p : Nat) (q : ℚ) : roundDown p q ≤ q := by
  unfold roundDown
  have hp : (0 : ℚ) < ((2 ^ p : Nat) : ℚ) := by positivity
  rw [div_le_iff₀ hp]; exact Int.floor_le _

theorem le_roundUp (p : Nat) (q : ℚ) : q ≤ roundUp p q := by
  unfold roundUp
  have hp : (0 : ℚ) < ((2 ^ p : Nat) : ℚ) := by positivity
  rw [le_div_iff₀ hp]; exact Int.le_ceil _

theorem roundDown_nonneg (p : Nat) {q : ℚ} (h : 0 ≤ q) : 0 ≤ roundDown p q := by
  unfold roundDown
  have : (0 : Int) ≤ ⌊q * ((2 ^ p : Nat) : ℚ)⌋ := Int.floor_nonneg.2 (by positivity)
  have : (0 : ℚ) ≤ (⌊q * ((2 ^ p : Nat) : ℚ)⌋ : ℚ) := by exact_mod_cast this
  positivity

/-- Squaring with rounding down stays below the power. -/
theorem squareTimes_roundDown (p k : Nat) (q : ℚ) (x : ℝ) (h0 : 0 ≤ q) (h : (q : ℝ) ≤ x) :
    0 ≤ squareTimes (roundDown p) k q ∧ ((squareTimes (roundDown p) k q : ℚ) : ℝ) ≤ x ^ 2 ^ k := by
  induction k generalizing q x with
  | zero => exact ⟨h0, by simpa [squareTimes] using h⟩
  | succ k ih =>
    have h1 : ((roundDown p (q * q) : ℚ) : ℝ) ≤ x * x := by
      have a : ((roundDown p (q * q) : ℚ) : ℝ) ≤ ((q * q : ℚ) : ℝ) := by exact_mod_cast roundDown_le p (q * q)
      have b : (0 : ℝ) ≤ (q : ℝ) := by exact_mod_cast h0
      push_cast at a
      exact a.trans (mul_le_mul h h b (b.trans h))
    have := ih (roundDown p (q * q)) (x * x) (roundDown_nonneg p (by positivity)) h1
    rw [squareTimes, show 2 ^ (k + 1) = 2 * 2 ^ k from pow_succ' 2 k, pow_mul, sq]
    exact this

/-- Squaring with rounding up stays above the power. -/
theorem squareTimes_roundUp (p k : Nat) (q : ℚ) (x : ℝ) (h0 : 0 ≤ x) (h : x ≤ (q : ℝ)) :
    x ^ 2 ^ k ≤ ((squareTimes (roundUp p) k q : ℚ) : ℝ) := by
  induction k generalizing q x with
  | zero => simpa [squareTimes] using h
  | succ k ih =>
    have h1 : x * x ≤ ((roundUp p (q * q) : ℚ) : ℝ) := by
      have a : ((q * q : ℚ) : ℝ) ≤ ((roundUp p (q * q) : ℚ) : ℝ) := by exact_mod_cast le_roundUp p (q * q)
      push_cast at a
      exact (mul_le_mul h h h0 (h0.trans h)).trans a
    rw [squareTimes, show 2 ^ (k + 1) = 2 * 2 ^ k from pow_succ' 2 k, pow_mul, sq]
    exact ih _ _ (by positivity) h1

/-- The argument's halvings bring it below 1/2. -/
theorem abs_div_halvings (n : Nat) (x : ℚ) : |x / ((2 ^ halvings n x : Nat) : ℚ)| ≤ 1 / 2 := by
  have hp : (0 : ℚ) < ((2 ^ halvings n x : Nat) : ℚ) := by positivity
  rw [abs_div, abs_of_pos hp, div_le_iff₀ hp]
  have h1 : |x| ≤ (⌈|x|⌉.toNat : ℚ) := by
    refine (Int.le_ceil _).trans ?_
    exact_mod_cast Int.self_le_toNat _
  have h2 : ⌈|x|⌉.toNat ≤ 2 ^ (Nat.log2 ⌈|x|⌉.toNat + 1) := Nat.le_of_lt Nat.lt_log2_self
  have h3 : 2 * 2 ^ (Nat.log2 ⌈|x|⌉.toNat + 1) ≤ 2 ^ halvings n x := by
    rw [← pow_succ']; exact Nat.pow_le_pow_right (by omega) (by unfold halvings; omega)
  have h4 : ((⌈|x|⌉.toNat : Nat) : ℚ) * 2 ≤ ((2 ^ halvings n x : Nat) : ℚ) := by
    exact_mod_cast (by omega : ⌈|x|⌉.toNat * 2 ≤ 2 ^ halvings n x)
  linarith

theorem exp_eq_pow (x : ℝ) (k : Nat) : Real.exp x = Real.exp (x / ((2 ^ k : Nat) : ℝ)) ^ 2 ^ k := by
  rw [← Real.exp_nat_mul]; congr 1
  have : ((2 ^ k : Nat) : ℝ) ≠ 0 := by positivity
  field_simp

theorem expBelow_le (n : Nat) (x : ℚ) : ((expBelow n x : ℚ) : ℝ) ≤ Real.exp x := by
  have h := abs_le.1 (abs_div_halvings n x)
  rw [exp_eq_pow (x : ℝ) (halvings n x)]
  refine (squareTimes_roundDown _ _ _ _ (by linarith) ?_).2
  push_cast
  rw [add_comm]; exact Real.add_one_le_exp _

theorem le_expAbove (n : Nat) (x : ℚ) : Real.exp x ≤ ((expAbove n x : ℚ) : ℝ) := by
  have h := abs_le.1 (abs_div_halvings n x)
  rw [exp_eq_pow (x : ℝ) (halvings n x)]
  refine squareTimes_roundUp _ _ _ _ (Real.exp_pos _).le ?_
  have h2 : ((x / ((2 ^ halvings n x : Nat) : ℚ) : ℚ) : ℝ) ≤ 1 / 2 := by
    have := (Rat.cast_le (K := ℝ)).2 h.2
    simpa using this
  push_cast at h2 ⊢
  generalize (x : ℝ) / 2 ^ halvings n x = y at *
  rw [le_div_iff₀ (by linarith)]
  have h3 := Real.add_one_le_exp (-y)
  have h4 : Real.exp y * Real.exp (-y) = 1 := by rw [← Real.exp_add]; simp
  nlinarith [Real.exp_pos y]

/-- `q` is within the bounds `a`. -/
def Within (a : ℚ × ℚ) (x : ℝ) : Prop := (a.1 : ℝ) ≤ x ∧ x ≤ (a.2 : ℝ)

theorem mul_between {a b x y : ℝ} (h1 : a ≤ x) (h2 : x ≤ b) :
    min (a * y) (b * y) ≤ x * y ∧ x * y ≤ max (a * y) (b * y) := by
  rcases le_total 0 y with h | h
  · exact ⟨min_le_of_left_le (mul_le_mul_of_nonneg_right h1 h), le_max_of_le_right (mul_le_mul_of_nonneg_right h2 h)⟩
  · exact ⟨min_le_of_right_le (mul_le_mul_of_nonpos_right h2 h), le_max_of_le_left (mul_le_mul_of_nonpos_right h1 h)⟩

theorem within_mul {a b : ℚ × ℚ} {x y : ℝ} (hx : Within a x) (hy : Within b y) : Within (mulEnclosure a b) (x * y) := by
  have m := mul_between (y := y) hx.1 hx.2
  have m1 := mul_between (y := (a.1 : ℝ)) hy.1 hy.2
  have m2 := mul_between (y := (a.2 : ℝ)) hy.1 hy.2
  simp only [mul_comm _ (a.1 : ℝ)] at m1
  simp only [mul_comm _ (a.2 : ℝ)] at m2
  constructor
  · simp only [mulEnclosure]; push_cast
    exact (le_min (min_le_of_left_le m1.1) (min_le_of_right_le m2.1)).trans m.1
  · simp only [mulEnclosure]; push_cast
    exact m.2.trans (max_le (le_max_of_le_left m1.2) (le_max_of_le_right m2.2))

theorem within_div {a b c : ℚ × ℚ} {x y : ℝ} (hx : Within a x) (hy : Within b y) (h : divEnclosure a b = some c) :
    Within c (x / y) := by
  unfold divEnclosure at h
  split at h
  · rename_i hb
    cases h
    rw [div_eq_mul_inv]
    refine within_mul hx ⟨?_, ?_⟩
    · push_cast; simp only [one_mul]
      rcases hb with hb | hb
      · have : (0 : ℝ) < (b.1 : ℝ) := by exact_mod_cast hb
        exact inv_anti₀ (this.trans_le hy.1) hy.2
      · have : (b.2 : ℝ) < 0 := by exact_mod_cast hb
        exact (inv_le_inv_of_neg this (hy.2.trans_lt this)).2 hy.2
    · push_cast; simp only [one_div]
      rcases hb with hb | hb
      · have : (0 : ℝ) < (b.1 : ℝ) := by exact_mod_cast hb
        exact inv_anti₀ this hy.1
      · have : (b.2 : ℝ) < 0 := by exact_mod_cast hb
        exact (inv_le_inv_of_neg (hy.2.trans_lt this) ((hy.1.trans hy.2).trans_lt this)).2 hy.1
  · cases h

/-- The bounds are bounds. -/
theorem Exact.enclose_spec (n : Nat) (x : Exact) (a : ℚ × ℚ) (h : x.enclose n = some a) : Within a x.toReal := by
  induction x generalizing a with
  | rat q => cases h; exact ⟨le_refl _, le_refl _⟩
  | free => cases h
  | add x y ihx ihy =>
    simp only [Exact.enclose, Option.bind_eq_some_iff, Option.map_eq_some_iff] at h
    obtain ⟨b, hb, c, hc, rfl⟩ := h
    have h1 := ihx _ hb; have h2 := ihy _ hc
    unfold Within at *
    simp only [Exact.toReal, Exact.valueAt] at *; push_cast
    exact ⟨by linarith, by linarith⟩
  | mul x y ihx ihy =>
    simp only [Exact.enclose, Option.bind_eq_some_iff, Option.map_eq_some_iff] at h
    obtain ⟨b, hb, c, hc, rfl⟩ := h
    exact within_mul (ihx _ hb) (ihy _ hc)
  | div x y ihx ihy =>
    simp only [Exact.enclose, Option.bind_eq_some_iff] at h
    obtain ⟨b, hb, c, hc, hd⟩ := h
    exact within_div (ihx _ hb) (ihy _ hc) hd
  | exp x ih =>
    simp only [Exact.enclose, Option.map_eq_some_iff] at h
    obtain ⟨b, hb, rfl⟩ := h
    have hx := ih _ hb
    exact ⟨(expBelow_le n b.1).trans (Real.exp_le_exp.2 hx.1), (Real.exp_le_exp.2 hx.2).trans (le_expAbove n b.2)⟩

/-! ### Order -/

theorem Exact.orderAt_spec (n : Nat) (x y : Exact) (b : Bool) (h : Exact.orderAt n x y = some b) :
    b = true ↔ x.toReal < y.toReal := by
  simp only [Exact.orderAt, Option.bind_eq_some_iff] at h
  obtain ⟨a, ha, c, hc, h⟩ := h
  have h1 := Exact.enclose_spec n x a ha
  have h2 := Exact.enclose_spec n y c hc
  split at h
  · rename_i hlt
    cases h
    have : (a.2 : ℝ) < (c.1 : ℝ) := by exact_mod_cast hlt
    simp only [true_iff]; exact (h1.2.trans_lt this).trans_le h2.1
  · split at h
    · rename_i hle
      cases h
      have : (c.2 : ℝ) ≤ (a.1 : ℝ) := by exact_mod_cast hle
      simp only [Bool.false_eq_true, false_iff, not_lt]; exact (h2.2.trans this).trans h1.1
    · cases h

/-- On every pair the block may ask for, `less` is the order of the reals (00_scope.md R13). -/
theorem Exact.less_iff {x y : Exact} (h : Exact.comparable x y = true) : Exact.less x y = true ↔ x.toReal < y.toReal := by
  unfold Exact.less
  split
  · simp
  · split
    · rename_i he; simp [he]
    · cases hb : Exact.order? x y with
      | none => exact Config.realLine.orders x y h
      | some b =>
        unfold Exact.order? at hb
        obtain ⟨n, _, hn⟩ := List.exists_of_findSome?_eq_some hb
        exact Exact.orderAt_spec n x y b hn

/-! ### Which values are plain, which are simple -/

theorem RealOperand.plain_value (r : RealOperand) : r.value.plain = true := by cases r <;> rfl

theorem Exact.plain_plus {x y : Exact} (hx : x.plain = true) (hy : y.plain = true) : (x.plus y).plain = true := by
  unfold Exact.plus; split
  · rfl
  · simp [Exact.plain, hx, hy]

theorem Exact.plain_times {x y : Exact} (hx : x.plain = true) (hy : y.plain = true) : (x.times y).plain = true := by
  unfold Exact.times; split
  · rfl
  · simp [Exact.plain, hx, hy]

theorem Exact.plain_quot {x y : Exact} (hx : x.plain = true) (hy : y.plain = true) : (x.quot y).plain = true := by
  unfold Exact.quot; split
  · rfl
  · simp [Exact.plain, hx, hy]

theorem Exact.plain_negate {x : Exact} (hx : x.plain = true) : x.negate.plain = true := Exact.plain_times rfl hx

theorem Exact.plain_minus {x y : Exact} (hx : x.plain = true) (hy : y.plain = true) : (x.minus y).plain = true :=
  Exact.plain_plus hx (Exact.plain_negate hy)

theorem Exact.simple_plus_left {x y : Exact} (hx : x.plain = true) (hy : y.simple = true) : (x.plus y).simple = true := by
  unfold Exact.plus; split
  · rfl
  · simp [Exact.simple, hx, hy]

theorem Exact.simple_plus_right {x y : Exact} (hx : x.simple = true) (hy : y.plain = true) : (x.plus y).simple = true := by
  unfold Exact.plus; split
  · rfl
  · simp [Exact.simple, hx, hy]

theorem Exact.simple_times_left {x y : Exact} (hx : x.plain = true) (hy : y.simple = true) : (x.times y).simple = true := by
  unfold Exact.times; split
  · rfl
  · simp [Exact.simple, hx, hy]

theorem Exact.simple_expOf {x : Exact} (hx : x.plain = true) : x.expOf.simple = true := by
  unfold Exact.expOf; split
  · rfl
  · exact hx

theorem Exact.comparable_left {x y : Exact} (hx : x.plain = true) (hy : y.simple = true) : Exact.comparable x y = true := by
  simp [Exact.comparable, hx, hy]

theorem Exact.comparable_right {x y : Exact} (hx : x.simple = true) (hy : y.plain = true) : Exact.comparable x y = true := by
  simp [Exact.comparable, hx, hy]

end Sys2Proof
end

