-- ==== Sys2Proof/Laws/Num.lean ====
section
/-! SUPPORT. The datapaths of 00_scope.md R13, operation by operation: BINARY64_RNE on F64, EXACT on the reals and as the
machine's data; and that each of the block's functions on EXACT's data is that function on the reals. -/

namespace Sys2Proof

@[simp] theorem Num.binary64_rat : Num.binary64.rat = F64.ofRat := rfl
@[simp] theorem Num.binary64_neg : Num.binary64.neg = F64.neg := rfl
@[simp] theorem Num.binary64_add : Num.binary64.add = F64.add := rfl
@[simp] theorem Num.binary64_sub : Num.binary64.sub = F64.sub := rfl
@[simp] theorem Num.binary64_mul : Num.binary64.mul = F64.mul := rfl
@[simp] theorem Num.binary64_div : Num.binary64.div = F64.div := rfl
@[simp] theorem Num.binary64_lt : Num.binary64.lt = F64.lt := rfl
@[simp] theorem Num.binary64_le : Num.binary64.le = F64.le := rfl
@[simp] theorem Num.binary64_exp : Num.binary64.exp = F64.exp := rfl
@[simp] theorem Num.binary64_int (k : Int) : Num.binary64.int k = F64.ofRat k 1 := by
  rw [Num.int, Num.binary64_rat]
@[simp] theorem Num.binary64_dec (d : Dec) : Num.binary64.dec d = F64.ofRat d.mant (10 ^ d.scale) := by
  rw [Num.dec, Num.binary64_rat]

@[simp] theorem Num.exact_neg (x : ℝ) : Num.exact.neg x = -x := rfl
@[simp] theorem Num.exact_add (x y : ℝ) : Num.exact.add x y = x + y := rfl
@[simp] theorem Num.exact_sub (x y : ℝ) : Num.exact.sub x y = x - y := rfl
@[simp] theorem Num.exact_mul (x y : ℝ) : Num.exact.mul x y = x * y := rfl
@[simp] theorem Num.exact_div (x y : ℝ) : Num.exact.div x y = x / y := rfl
@[simp] theorem Num.exact_exp (x : ℝ) : Num.exact.exp x = Real.exp x := rfl
@[simp] theorem Num.exact_int (k : Int) : Num.exact.int k = (k : ℝ) := by simp [Num.int, Num.exact]
@[simp] theorem Num.exact_dec (d : Dec) : Num.exact.dec d = (d.mant : ℝ) / (10 : ℝ) ^ d.scale := by
  simp [Num.dec, Num.exact]
@[simp] theorem Num.exact_lt (x y : ℝ) : Num.exact.lt x y = true ↔ x < y := by simp [Num.exact]
@[simp] theorem Num.exact_le (x y : ℝ) : Num.exact.le x y = true ↔ x ≤ y := by simp [Num.exact]

theorem Num.exactData_int (k : Int) : Num.exactData.int k = .rat k := by simp [Num.int, Num.exactData]
theorem Num.exactData_dec (d : Dec) : Num.exactData.dec d = .rat ((d.mant : ℚ) / ((10 ^ d.scale : Nat) : ℚ)) := rfl

/-! ### EXACT's data is the reals: arithmetic -/

@[simp] theorem Num.toReal_neg (x : Exact) : (Num.exactData.neg x).toReal = Num.exact.neg x.toReal := Exact.toReal_negate x
@[simp] theorem Num.toReal_add (x y : Exact) : (Num.exactData.add x y).toReal = Num.exact.add x.toReal y.toReal :=
  Exact.toReal_plus x y
@[simp] theorem Num.toReal_sub (x y : Exact) : (Num.exactData.sub x y).toReal = Num.exact.sub x.toReal y.toReal :=
  Exact.toReal_minus x y
@[simp] theorem Num.toReal_mul (x y : Exact) : (Num.exactData.mul x y).toReal = Num.exact.mul x.toReal y.toReal :=
  Exact.toReal_times x y
@[simp] theorem Num.toReal_div (x y : Exact) : (Num.exactData.div x y).toReal = Num.exact.div x.toReal y.toReal :=
  Exact.toReal_quot x y
@[simp] theorem Num.toReal_exp (x : Exact) : (Num.exactData.exp x).toReal = Num.exact.exp x.toReal := Exact.toReal_expOf x
@[simp] theorem Num.toReal_int (k : Int) : (Num.exactData.int k).toReal = Num.exact.int k := by
  rw [Num.exactData_int, Num.exact_int, Exact.toReal_rat]; simp
@[simp] theorem Num.toReal_dec (d : Dec) : (Num.exactData.dec d).toReal = Num.exact.dec d := by
  rw [Num.exactData_dec, Num.exact_dec, Exact.toReal_rat]; push_cast; rfl

/-! ### EXACT's data is the reals: order, on every pair the block may ask for -/

theorem Num.exactData_lt {x y : Exact} (h : Exact.comparable x y = true) :
    Num.exactData.lt x y = Num.exact.lt x.toReal y.toReal := by
  rw [Bool.eq_iff_iff, Num.exact_lt]; exact Exact.less_iff h

theorem Num.exactData_le {x y : Exact} (h : Exact.comparable y x = true) :
    Num.exactData.le x y = Num.exact.le x.toReal y.toReal := by
  rw [Bool.eq_iff_iff, Num.exact_le]
  show (!Exact.less y x) = true ↔ _
  rw [Bool.not_eq_true', ← Bool.not_eq_true, Exact.less_iff h, not_lt]

theorem Num.exactData_lt_rat (p q : ℚ) : Num.exactData.lt (.rat p) (.rat q) = decide (p < q) := rfl

theorem Num.exactData_le_rat (p q : ℚ) : Num.exactData.le (.rat p) (.rat q) = decide (p ≤ q) := by
  show (!decide (q < p)) = _
  rw [← decide_not]; congr 1; exact propext not_lt

namespace Machine

/-! ### The block's functions -/

variable (x y : Exact)

@[simp] theorem toReal_tcDecode (b : BitSeq) :
    (tcDecode Num.exactData b x).toReal = tcDecode Num.exact b x.toReal := by
  unfold tcDecode; split <;> simp only [Num.toReal_mul, Num.toReal_neg, Num.toReal_int]

@[simp] theorem toReal_lsbTable (g : BitVec 3) : (lsbTable Num.exactData g).toReal = lsbTable Num.exact g := by
  unfold lsbTable; simp only [Num.toReal_div, Num.toReal_dec, Num.toReal_int]

@[simp] theorem toReal_convIntervalTable (d : BitVec 3) :
    (convIntervalTable Num.exactData d).toReal = convIntervalTable Num.exact d := by
  unfold convIntervalTable; simp only [Num.toReal_div, Num.toReal_int]

@[simp] theorem toReal_interpretValue (c : AdcConfig) (d : BitSeq) :
    (interpretValue Num.exactData c d).toReal = interpretValue Num.exact c d := by
  unfold interpretValue
  split
  · rw [toReal_tcDecode]; unfold tempLsb; rw [Num.toReal_dec]
  · rw [toReal_tcDecode, toReal_lsbTable]

@[simp] theorem toReal_polyFrom (cs : List Dec) (acc p : Exact) :
    (polyFrom Num.exactData x cs acc p).toReal = polyFrom Num.exact x.toReal cs acc.toReal p.toReal := by
  induction cs generalizing acc p with
  | nil => rfl
  | cons c cs ih => rw [polyFrom, polyFrom, ih]; simp only [Num.toReal_add, Num.toReal_mul, Num.toReal_dec]

@[simp] theorem toReal_poly (cs : List Dec) : (poly Num.exactData cs x).toReal = poly Num.exact cs x.toReal := by
  unfold poly; rw [toReal_polyFrom, Num.toReal_int, Num.toReal_int]

@[simp] theorem toReal_cjMillivolts : (cjMillivolts Num.exactData x).toReal = cjMillivolts Num.exact x.toReal := by
  unfold cjMillivolts gaussian
  simp only [Num.toReal_add, toReal_poly, Num.toReal_mul, Num.toReal_exp, Num.toReal_sub, Num.toReal_dec]

@[simp] theorem toReal_combinedMv :
    (combinedMv Num.exactData x y).toReal = combinedMv Num.exact x.toReal y.toReal := by
  unfold combinedMv; simp only [Num.toReal_add, toReal_cjMillivolts, Num.toReal_mul, Num.toReal_int]

theorem takeWhile_congr {β : Type} (p q : β → Bool) (l : List β) (h : ∀ b ∈ l, p b = q b) :
    l.takeWhile p = l.takeWhile q := by
  induction l with
  | nil => rfl
  | cons b l ih =>
    rw [List.takeWhile_cons, List.takeWhile_cons, h b List.mem_cons_self,
      ih fun c hc => h c (List.mem_cons_of_mem b hc)]

/-- The search of BRACKET, in a table of rationals. -/
theorem bracket_exactData (A : Nat → Exact) (hA : ∀ i, (A i).plain = true) (h : x.simple = true) :
    bracket Num.exactData A x = bracket Num.exact (fun i => (A i).toReal) x.toReal := by
  unfold bracket
  congr 1
  exact takeWhile_congr _ _ _ fun j _ => Num.exactData_le (Exact.comparable_right h (hA _))

/-! ### Which of the block's values are plain, which are simple -/

theorem plain_dec (d : Dec) : (Num.exactData.dec d).plain = true := rfl
theorem plain_int (k : Int) : (Num.exactData.int k).plain = true := rfl

theorem plain_polyFrom {x : Exact} (h : x.plain = true) (cs : List Dec) {acc p : Exact} (ha : acc.plain = true)
    (hp : p.plain = true) : (polyFrom Num.exactData x cs acc p).plain = true := by
  induction cs generalizing acc p with
  | nil => exact ha
  | cons c cs ih => exact ih (Exact.plain_plus ha (Exact.plain_times (plain_dec c) hp)) (Exact.plain_times hp h)

/-- CJ_MV of an operand has one exponential, of a plain argument (45_cold_junction.md R222). -/
theorem simple_cjMillivolts {x : Exact} (h : x.plain = true) : (cjMillivolts Num.exactData x).simple = true := by
  have hu := Exact.plain_minus h (plain_dec cjA2)
  exact Exact.simple_plus_left (plain_polyFrom h cjC (plain_int 0) (plain_int 1))
    (Exact.simple_times_left (plain_dec cjA0)
      (Exact.simple_expOf (Exact.plain_times (plain_dec cjA1) (Exact.plain_times hu hu))))

/-- So has the combined voltage (45_cold_junction.md R225). -/
theorem simple_combinedMv {x y : Exact} (hx : x.plain = true) (hy : y.plain = true) :
    (combinedMv Num.exactData x y).simple = true :=
  Exact.simple_plus_right (simple_cjMillivolts hx) (Exact.plain_times hy (plain_int 1000))

/-- What a REAL operand's pattern stands for is plain (30_encoding.md R92; log entry 29). -/
theorem plain_realOf (s : State) (p : BitVec 64) : (s.realOf p).plain = true := by
  unfold State.realOf; split
  · exact RealOperand.plain_value _
  · rfl

end Machine

end Sys2Proof
end

