-- ==== Sys2Proof/Laws/Operands.lean ====
section
/-! SUPPORT. What each operand check of 30_encoding.md R92 admits and refuses. -/

namespace Sys2Proof.Machine

theorem widOk_eq_true (w : BitVec 6) : widOk w = true ↔ 1 ≤ w.toNat ∧ w.toNat ≤ 32 := by
  unfold widOk; rw [decide_eq_true_iff]; rfl

theorem widOk_eq_false (w : BitVec 6) : widOk w = false ↔ w.toNat = 0 ∨ 32 < w.toNat := by
  unfold widOk; rw [decide_eq_false_iff_not]; unfold Config.bitseqMax; omega

theorem seqOk_eq_true (b : BitSeq) : seqOk b = true ↔ 1 ≤ b.length ∧ b.length ≤ 32 := by
  unfold seqOk; rw [decide_eq_true_iff]; rfl

theorem seqOk_eq_false (b : BitSeq) : seqOk b = false ↔ b.length = 0 ∨ 32 < b.length := by
  unfold seqOk; rw [decide_eq_false_iff_not]; unfold Config.bitseqMax; omega

theorem seq16Ok_eq_true (b : BitSeq) : seq16Ok b = true ↔ b.length = 16 := by
  unfold seq16Ok; rw [decide_eq_true_iff]

theorem seq16Ok_eq_false (b : BitSeq) : seq16Ok b = false ↔ b.length ≠ 16 := by
  unfold seq16Ok; rw [decide_eq_false_iff_not]

theorem pullOk_eq_true (p : BitVec 2) : pullOk p = true ↔ p ≠ 3#2 := by
  unfold pullOk; rw [decide_eq_true_iff]

theorem pullOk_eq_false (p : BitVec 2) : pullOk p = false ↔ p = 3#2 := by
  unfold pullOk; rw [decide_eq_false_iff_not, not_not]

theorem listOk_eq_true (l : List AdcConfig) : listOk l = true ↔ l.length ≤ 16 := by
  unfold listOk; rw [decide_eq_true_iff]; rfl

theorem listOk_eq_false (l : List AdcConfig) : listOk l = false ↔ 16 < l.length := by
  unfold listOk; rw [decide_eq_false_iff_not]; unfold Config.nBatchMax; omega

/-- The check of a REAL is that its value is finite. -/
theorem realOk_eq (x : BitVec 64) : realOk x = (F64.ofBits x).isFinite := by
  unfold realOk F64.ofBits
  by_cases h : x.toNat / 2 ^ 52 % 2048 = 2047
  · simp only [h, if_true]
    split <;> rfl
  · simp only [h, if_false]
    split <;> exact decide_eq_true h

end Sys2Proof.Machine
end

