-- ==== Sys2Proof/Laws/PerInstr.lean ====
section
/-! SUPPORT. Per-instruction statements: the length of every operation's request record (30_encoding.md R91, R92). -/

namespace Sys2Proof

theorem length_seqField (fill s : BitSeq) (h : fill.length = 32) : (seqField fill s).length = 38 := by
  unfold seqField
  rw [List.length_append, length_toBits, List.length_take, List.length_append, h]; omega

@[simp] theorem length_configField (c : AdcConfig) : (cfgField c).length = 14 := by simp [cfgField, flagBits, codeBits]

@[simp] theorem length_wordField {n : Nat} (x : BitVec n) : (wordField x).length = n := by simp [wordField]

@[simp] theorem length_modeField (m : WaitMode) : (modeField m).length = 1 := by cases m <;> rfl

@[simp] theorem length_listField (cs : List AdcConfig) : (listField cs).length = 5 + 14 * cs.length := by
  unfold listField
  rw [List.length_append, length_toBits]
  congr 1
  induction cs with
  | nil => rfl
  | cons c cs ih => rw [List.flatMap_cons, List.length_append, ih, length_configField, List.length_cons]; omega

end Sys2Proof

namespace Sys2Proof.Laws

/-- The number of bits of the request record: 5 of OP and the widths of the operand fields (30_encoding.md R91, R92). -/
def EncodeLength.bits : Instr → Nat
  | .intToBits _ _ => 5 + 64 + 6
  | .bitsToInt _ => 5 + 38
  | .cfgEncode _ => 5 + 14
  | .cfgDecode _ => 5 + 38
  | .lsbSize _ => 5 + 3
  | .convInterval _ => 5 + 3
  | .tcDecode _ _ => 5 + 38 + 64
  | .interpret _ _ => 5 + 14 + 38
  | .chInit _ _ => 5 + 1 + 2
  | .chExchange _ => 5 + 38
  | .chVerify _ _ => 5 + 14 + 38
  | .chAwait _ => 5 + 3
  | .chReadBatch cs => 5 + 5 + 14 * cs.length
  | .tkT2mv _ => 5 + 64
  | .tkMv2t _ => 5 + 64
  | .cjMv _ => 5 + 64
  | .cjLinearize _ _ => 5 + 64 + 64
  | .tkGetTemp _ _ => 5 + 64 + 64

/-- The encoder writes a record of the length the table gives the operation, whatever the payload bits R92 ignores. -/
def EncodeLength.Statement (i : Instr) : Prop :=
  ∀ fill : BitSeq, fill.length = 32 → (encodeWith fill i).length = EncodeLength.bits i

theorem EncodeLength.intToBits (v : BitVec 64) (w : BitVec 6) : EncodeLength.Statement (.intToBits v w) := by
  intro fill _; simp [EncodeLength.bits, encodeWith, Instr.operandFields]

theorem EncodeLength.bitsToInt (b : BitSeq) : EncodeLength.Statement (.bitsToInt b) := by
  intro fill h; simp [EncodeLength.bits, encodeWith, Instr.operandFields, length_seqField fill _ h]

theorem EncodeLength.cfgEncode (c : AdcConfig) : EncodeLength.Statement (.cfgEncode c) := by
  intro fill _; simp [EncodeLength.bits, encodeWith, Instr.operandFields]

theorem EncodeLength.cfgDecode (b : BitSeq) : EncodeLength.Statement (.cfgDecode b) := by
  intro fill h; simp [EncodeLength.bits, encodeWith, Instr.operandFields, length_seqField fill _ h]

theorem EncodeLength.lsbSize (g : BitVec 3) : EncodeLength.Statement (.lsbSize g) := by
  intro fill _; simp [EncodeLength.bits, encodeWith, Instr.operandFields]

theorem EncodeLength.convInterval (d : BitVec 3) : EncodeLength.Statement (.convInterval d) := by
  intro fill _; simp [EncodeLength.bits, encodeWith, Instr.operandFields]

theorem EncodeLength.tcDecode (b : BitSeq) (x : BitVec 64) : EncodeLength.Statement (.tcDecode b x) := by
  intro fill h; simp [EncodeLength.bits, encodeWith, Instr.operandFields, length_seqField fill _ h]

theorem EncodeLength.interpret (c : AdcConfig) (d : BitSeq) : EncodeLength.Statement (.interpret c d) := by
  intro fill h; simp [EncodeLength.bits, encodeWith, Instr.operandFields, length_seqField fill _ h]

theorem EncodeLength.chInit (m : WaitMode) (p : BitVec 2) : EncodeLength.Statement (.chInit m p) := by
  intro fill _; simp [EncodeLength.bits, encodeWith, Instr.operandFields]

theorem EncodeLength.chExchange (b : BitSeq) : EncodeLength.Statement (.chExchange b) := by
  intro fill h; simp [EncodeLength.bits, encodeWith, Instr.operandFields, length_seqField fill _ h]

theorem EncodeLength.chVerify (c : AdcConfig) (e : BitSeq) : EncodeLength.Statement (.chVerify c e) := by
  intro fill h; simp [EncodeLength.bits, encodeWith, Instr.operandFields, length_seqField fill _ h]

theorem EncodeLength.chAwait (d : BitVec 3) : EncodeLength.Statement (.chAwait d) := by
  intro fill _; simp [EncodeLength.bits, encodeWith, Instr.operandFields]

theorem EncodeLength.chReadBatch (l : List AdcConfig) : EncodeLength.Statement (.chReadBatch l) := by
  intro fill _; simp [EncodeLength.bits, encodeWith, Instr.operandFields]; omega

theorem EncodeLength.tkT2mv (x : BitVec 64) : EncodeLength.Statement (.tkT2mv x) := by
  intro fill _; simp [EncodeLength.bits, encodeWith, Instr.operandFields]

theorem EncodeLength.tkMv2t (x : BitVec 64) : EncodeLength.Statement (.tkMv2t x) := by
  intro fill _; simp [EncodeLength.bits, encodeWith, Instr.operandFields]

theorem EncodeLength.cjMv (x : BitVec 64) : EncodeLength.Statement (.cjMv x) := by
  intro fill _; simp [EncodeLength.bits, encodeWith, Instr.operandFields]

theorem EncodeLength.cjLinearize (x y : BitVec 64) : EncodeLength.Statement (.cjLinearize x y) := by
  intro fill _; simp [EncodeLength.bits, encodeWith, Instr.operandFields]

theorem EncodeLength.tkGetTemp (x y : BitVec 64) : EncodeLength.Statement (.tkGetTemp x y) := by
  intro fill _; simp [EncodeLength.bits, encodeWith, Instr.operandFields]

end Sys2Proof.Laws
end

