-- ==== Sys2Proof/Laws/Record.lean ====
section
/-! SUPPORT. The bits of sequences and words (00_scope.md R10, R11), and what each record reader of 30_encoding.md R92 reads
from the field the encoder writes. -/

namespace Sys2Proof

/-- Element `j` of `seq_n(v)` is bit `n-1-j` of `v`. -/
theorem getElem?_toBits (n v j : Nat) (h : j < n) : (toBits n v)[j]? = some (v.testBit (n - 1 - j)) := by
  induction n generalizing j with
  | zero => omega
  | succ n ih =>
    cases j with
    | zero => simp [toBits]
    | succ j => rw [toBits, List.getElem?_cons_succ, ih j (by omega)]; congr 2; omega

/-- Bit `i` of `uint(s)` is element `n-1-i` of `s`. -/
theorem testBit_uint (s : BitSeq) (i : Nat) :
    (uint s).testBit i = if i < s.length then s.getD (s.length - 1 - i) false else false := by
  split
  · rename_i h
    have h2 := getElem?_toBits s.length (uint s) (s.length - 1 - i) (by omega)
    rw [toBits_uint, show s.length - 1 - (s.length - 1 - i) = i by omega] at h2
    rw [List.getD_eq_getElem?_getD, h2]; rfl
  · exact Nat.testBit_lt_two_pow (Nat.lt_of_lt_of_le (uint_lt s) (Nat.pow_le_pow_right (by omega) (by omega)))

/-- Bit `i` of `word(s)`. -/
theorem getLsbD_word16 (l : BitSeq) (i : Nat) (hi : i < 16) (hl : l.length = 16) :
    (word16 l).getLsbD i = l.getD (15 - i) false := by
  unfold word16
  rw [BitVec.getLsbD_ofNat, testBit_uint, hl]; simp [hi]

theorem word16_seq16 (w : Word16) : word16 (seq16 w) = w := by
  unfold word16 seq16
  rw [uint_toBits, Nat.mod_eq_of_lt w.isLt, BitVec.ofNat_toNat, BitVec.setWidth_eq]

theorem seq16_word16 (b : BitSeq) (h : b.length = 16) : seq16 (word16 b) = b := by
  unfold seq16 word16
  have h1 := uint_lt b
  have h2 := toBits_uint b
  rw [h] at h1 h2
  rw [BitVec.toNat_ofNat, Nat.mod_eq_of_lt h1, h2]

/-- `W[lo+2:lo]` as a bit vector. -/
theorem field3_eq (w : Word16) (lo : Nat) : field3 w lo = w.extractLsb' lo 3 := by
  apply BitVec.eq_of_getLsbD_eq
  intro i hi
  simp only [field3, BitVec.getLsbD_ofNat, BitVec.getLsbD_extractLsb', hi, decide_true, Bool.true_and,
    Nat.testBit_shiftRight]
  rfl

/-! ### Readers -/

theorem readSeq_seqField (fill b rest : BitSeq) (hf : fill.length = 32) (h : b.length ≤ 32) :
    readSeq (seqField fill b ++ rest) = some (b, rest) := by
  have hl : ((b ++ fill).take 32).length = 32 := by rw [List.length_take, List.length_append, hf]; omega
  have hr : readNat 6 (seqField fill b ++ rest) = some (b.length, (b ++ fill).take 32 ++ rest) := by
    unfold seqField; rw [List.append_assoc, readNat_toBits, Nat.mod_eq_of_lt (by omega)]
  rw [readSeq, hr, Option.bind_some]
  simp only [readNat_append _ _ hl, Option.map_some]
  simp only [Option.some.injEq, Prod.mk.injEq, and_true]
  have h3 := toBits_uint ((b ++ fill).take 32)
  rw [hl] at h3
  rw [seqOfField, h3, List.take_append_of_le_length (by rw [hl]; exact h), List.take_take, Nat.min_eq_left h,
    List.take_left' rfl]

theorem readNat_wordField {n : Nat} (x : BitVec n) (rest : BitSeq) :
    readNat n (wordField x ++ rest) = some (x.toNat, rest) := by
  unfold wordField; rw [readNat_toBits, Nat.mod_eq_of_lt x.isLt]

theorem readWord64_wordField (x : BitVec 64) (rest : BitSeq) : readWord64 (wordField x ++ rest) = some (x, rest) := by
  simp [readWord64, readNat_wordField]

theorem readCode_wordField (x : BitVec 3) (rest : BitSeq) : readCode (wordField x ++ rest) = some (x, rest) := by
  simp [readCode, readNat_wordField]

theorem readMode_modeField (m : WaitMode) (rest : BitSeq) : readMode (modeField m ++ rest) = some (m, rest) := by
  cases m <;> rfl

theorem length_cfgField (c : AdcConfig) : (cfgField c).length = 14 := by simp [cfgField, flagBits, codeBits]

theorem code_of_testBits (v k : Nat) (m : BitVec 3) (h : ∀ i < 3, v.testBit (k + i) = m.getLsbD i) :
    BitVec.ofNat 3 (v >>> k) = m := by
  apply BitVec.eq_of_getLsbD_eq
  intro i hi
  have := h i hi
  simp only [BitVec.getLsbD_ofNat, hi, decide_true, Bool.true_and, Nat.testBit_shiftRight, this]

theorem cfgOfField_cfgField (c : AdcConfig) : cfgOfField (uint (cfgField c)) = c := by
  obtain ⟨a, m, g, b, d, t, p, o⟩ := c
  have e : ∀ x : BitVec 3, codeBits x = [x.getLsbD 2, x.getLsbD 1, x.getLsbD 0] := fun x => rfl
  unfold cfgOfField
  rw [AdcConfig.mk.injEq]
  refine ⟨?_, code_of_testBits _ _ _ ?_, code_of_testBits _ _ _ ?_, ?_, code_of_testBits _ _ _ ?_, ?_, ?_, ?_⟩
  all_goals try (intro i hi; interval_cases i)
  all_goals (rw [testBit_uint]; simp [cfgField, flagBits, e])

theorem readCfg_cfgField (c : AdcConfig) (rest : BitSeq) : readCfg (cfgField c ++ rest) = some (c, rest) := by
  rw [readCfg, readNat_append _ _ (length_cfgField c)]; simp [cfgOfField_cfgField]

theorem readCfgs_flatMap (cs : List AdcConfig) (rest : BitSeq) :
    readCfgs cs.length (cs.flatMap cfgField ++ rest) = some (cs, rest) := by
  induction cs with
  | nil => rfl
  | cons c cs ih => simp [readCfgs, readCfg_cfgField, ih]

theorem readList_listField (cs : List AdcConfig) (rest : BitSeq) (h : cs.length < 32) :
    readList (listField cs ++ rest) = some (cs, rest) := by
  unfold readList listField
  rw [List.append_assoc, readNat_toBits, Nat.mod_eq_of_lt (by omega)]; simp [readCfgs_flatMap]

end Sys2Proof
end

