-- ==== Sys2Proof/Laws/Respond.lean ====
section
/-! SUPPORT. A response alone (60_exceptions.md R246), and the first steps of CH_INIT and CH_READ_BATCH, said once. -/

namespace Sys2Proof.Machine

/-- A response changes no register. -/
theorem State.onlyResponds_respond (s : State) (r : Response) : s.OnlyResponds (s.respond r) r :=
  ⟨⟨rfl, rfl, rfl, rfl, rfl, rfl, rfl, rfl, rfl, rfl, rfl, rfl, rfl, rfl, rfl, rfl, rfl, rfl, rfl⟩, rfl, rfl, rfl, rfl⟩

/-- RESET_HOLD in either datapath (00_scope.md R9). -/
theorem resetHold_eval (k : NumKind) : (k.eval fun N => resetHold N) = k.ratio 30 1000 := by
  cases k
  · simp only [NumKind.eval, NumKind.ratio, resetHold, Num.binary64_dec]; norm_num
  · simp only [NumKind.eval, NumKind.ratio, resetHold, Num.exactData_dec]; norm_num

/-- RESET_HOLD is above RESET_MIN (00_scope.md R9, 43_adc_channel.md R170). -/
theorem resetMin_lt_resetHold : Num.exact.lt (Num.exact.dec resetMin) (resetHold Num.exact) = true := by
  unfold resetHold resetMin
  rw [Num.exact_lt, Num.exact_dec, Num.exact_dec]; norm_num

theorem pullOf_code (p : BitVec 2) (h : p ≠ 3#2) : (pullOf p).code = p := by
  revert p; decide

/-- CH_INIT up to its flush is an exchange of the probe word from the idle bus (43_adc_channel.md R170). -/
theorem State.initFlush_eq (m : WaitMode) (p : Pull) (s : State) :
    s.initFlush m p = ({ s with
      chan := .uninit, waitMode := m, pull := p, csN := s.csN.map fun _ => true, sclk := false,
      trace := s.trace ++ (csEvents s.hasCs true ++
        [.pinWrite .sclk false, .sleep (s.num.ratio 30 1000), .sleepDone]) } : State).exchange probeWord := by
  unfold State.initFlush
  congr 1
  cases hc : s.csN <;>
    simp [State.writeCsN, State.hasCs, hc, State.writeSclk, State.sleepFor, State.log, State.setChan, State.setModePull,
      csEvents, resetHold_eval]

theorem State.readBatch_eq (cs : List AdcConfig) (s : State) (h : 1 ≤ cs.length) :
    s.readBatch cs = State.batchFrom 0 cs ((s.setBn cs.length).setChan .exch) := by
  cases cs with
  | nil => simp at h
  | cons c r => rfl

end Sys2Proof.Machine
end

