-- ==== Sys2Proof/Laws/Step.lean ====
section
/-! SUPPORT. Everything a step can do to the host port, the parameters and the event sequence, said once: it goes on with
events that are no response, and then ends in one response or stops in a POLLED wait (10_state.md R34, 20_memory.md R80). -/

namespace Sys2Proof.Machine

/-- `t` comes after `s` in one operation: more events, none of them a response; the host port and the parameters kept. -/
structure Grows (s t : State) : Prop where
  trace : ∃ es : List Event, es.all (fun e => !e.isResponse) = true ∧ t.trace = s.trace ++ es
  hostReq : t.hostReq = s.hostReq
  hostResp : t.hostResp = s.hostResp
  hasCs : t.hasCs = s.hasCs
  pollCs : t.pollCs = s.pollCs
  batchAbort : t.batchAbort = s.batchAbort
  num : t.num = s.num
  reals : t.reals = s.reals

theorem Grows.refl (s : State) : Grows s s := ⟨⟨[], rfl, by simp⟩, rfl, rfl, rfl, rfl, rfl, rfl, rfl⟩

theorem Grows.trans {s t u : State} (h : Grows s t) (k : Grows t u) : Grows s u := by
  obtain ⟨⟨e1, a1, b1⟩, r1, p1, c1, q1, t1, n1, v1⟩ := h
  obtain ⟨⟨e2, a2, b2⟩, r2, p2, c2, q2, t2, n2, v2⟩ := k
  exact ⟨⟨e1 ++ e2, by simp [List.all_append, a1, a2], by rw [b2, b1, List.append_assoc]⟩, r2.trans r1, p2.trans p1,
    c2.trans c1, q2.trans q1, t2.trans t1, n2.trans n1, v2.trans v1⟩

theorem Grows.setChan (s : State) (c : ChanState) : Grows s (s.setChan c) := ⟨⟨[], rfl, by simp⟩, rfl, rfl, rfl, rfl, rfl, rfl, rfl⟩

theorem Grows.setBn (s : State) (n : Nat) : Grows s (s.setBn n) := ⟨⟨[], rfl, by simp⟩, rfl, rfl, rfl, rfl, rfl, rfl, rfl⟩

theorem Grows.setBcmd (s : State) (k : Nat) (c : AdcConfig) : Grows s (s.setBcmd k c) :=
  ⟨⟨[], rfl, by simp⟩, rfl, rfl, rfl, rfl, rfl, rfl, rfl⟩

theorem Grows.setBraw (s : State) (k : Nat) (r : RawExchange) : Grows s (s.setBraw k r) :=
  ⟨⟨[], rfl, by simp⟩, rfl, rfl, rfl, rfl, rfl, rfl, rfl⟩

theorem Grows.setBres (s : State) (k : Nat) (m : Measurement) : Grows s (s.setBres k m) :=
  ⟨⟨[], rfl, by simp⟩, rfl, rfl, rfl, rfl, rfl, rfl, rfl⟩

theorem Grows.exchange (s : State) (c : Word16) : Grows s (s.exchange c) := by
  refine ⟨⟨exchangeEvents s.hasCs c s.upcoming, ?_, by simp⟩, by simp, by simp, by simp, by simp, by simp, by simp, by simp⟩
  cases s.hasCs <;> simp [exchangeEvents, csEvents, slotEvents, Event.isResponse]

theorem Grows.writeCsN (s : State) (b : Bool) : Grows s (s.writeCsN b) := by
  refine ⟨⟨csEvents s.hasCs b, ?_, ?_⟩, by simp, by simp, by simp, by simp, by simp, by simp, by simp⟩
  · cases s.hasCs <;> simp [csEvents, Event.isResponse]
  · cases h : s.hasCs <;> simp [csEvents, State.writeCsN, h]

theorem Grows.takeSample (s : State) : Grows s s.takeSample :=
  ⟨⟨[.pinSample (s.upcoming 0)], rfl, by simp⟩, rfl, rfl, rfl, rfl, rfl, rfl, rfl⟩

theorem Grows.poll (s : State) : Grows s s.poll.1 := by
  unfold State.poll
  split
  · exact Grows.takeSample s
  · split
    · exact (Grows.takeSample s).trans (Grows.writeCsN _ _)
    · exact Grows.takeSample s

theorem Grows.wait (s : State) (d : BitVec 3) : Grows s (s.wait d).1 := by
  unfold State.wait
  split
  · exact ⟨⟨[.sleep (s.num.eval fun N => convIntervalTable N d), .sleepDone], rfl, by simp [State.sleepFor]⟩, rfl, rfl, rfl,
      rfl, rfl, rfl, rfl⟩
  · split
    · exact (Grows.writeCsN _ _).trans (Grows.poll _)
    · exact Grows.poll _

theorem Grows.batchSend (s : State) (k : Nat) (c : AdcConfig) : Grows s (s.batchSend k c) := by
  rw [State.batchSend_eq]
  exact ((Grows.setBcmd s k c).trans (Grows.exchange _ _)).trans (Grows.setBraw _ _ _)

theorem Grows.initFlush (s : State) (m : WaitMode) (p : Pull) : Grows s (s.initFlush m p) := by
  rw [State.initFlush_eq]
  refine Grows.trans ?_ (Grows.exchange _ _)
  refine ⟨⟨csEvents s.hasCs true ++ [.pinWrite .sclk false, .sleep (s.num.ratio 30 1000), .sleepDone], ?_, rfl⟩, rfl, rfl, ?_,
    rfl, rfl, rfl, rfl⟩
  · cases s.hasCs <;> simp [csEvents, Event.isResponse]
  · cases h : s.csN <;> simp [State.hasCs, h]

/-- From `s` the operation ends: in a response to the request, or in a POLLED wait. -/
def Ends (s t : State) : Prop :=
  (∃ u r, Grows s u ∧ t = u.respond r) ∨ ∃ u p, Grows s u ∧ t = u.suspend p

theorem Ends.of {s t u : State} (h : Grows s t) (k : Ends t u) : Ends s u := by
  rcases k with ⟨v, r, hv, rfl⟩ | ⟨v, p, hv, rfl⟩
  · exact .inl ⟨v, r, h.trans hv, rfl⟩
  · exact .inr ⟨v, p, h.trans hv, rfl⟩

theorem Ends.respond (s : State) (r : Response) : Ends s (s.respond r) := .inl ⟨s, r, Grows.refl s, rfl⟩

theorem Ends.finishIdle (s : State) (p : Payload) : Ends s (s.finishIdle p) :=
  Ends.of (Grows.setChan s _) (Ends.respond _ _)

theorem Ends.batchFault (s : State) (e : Word16) : Ends s (s.batchFault e) :=
  Ends.of (Grows.setChan s _) (Ends.respond _ _)

theorem Ends.batchPair (n k : Nat) (s : State) : Ends s (s.batchPair k n) := by
  induction n generalizing k s with
  | zero => exact Ends.finishIdle _ _
  | succ n ih =>
    rw [State.batchPair]
    split
    · exact Ends.of (Grows.setBres s _ _) (Ends.batchFault _ _)
    · exact Ends.of (Grows.setBres s _ _) (ih _ _)

theorem Ends.batchFlush (s : State) : Ends s s.batchFlush := by
  unfold State.batchFlush
  exact Ends.of ((Grows.exchange s _).trans (Grows.setBraw _ _ _)) (Ends.batchPair _ _ _)

theorem Ends.batchFrom (cs : List AdcConfig) (k : Nat) (s : State) : Ends s (s.batchFrom k cs) := by
  induction cs generalizing k s with
  | nil => exact Ends.batchFlush s
  | cons c rest ih =>
    rw [State.batchFrom]
    split
    · exact Ends.of (Grows.batchSend _ _ _) (Ends.batchFault _ _)
    · split
      · exact Ends.of ((Grows.batchSend _ _ _).trans (Grows.wait _ _)) (ih _ _)
      · exact .inr ⟨_, _, (Grows.batchSend _ _ _).trans (Grows.wait _ _), rfl⟩

theorem Ends.waitThen (s : State) (d : BitVec 3) (p : Polling) (f : State → State) (hf : ∀ t, Ends t (f t)) :
    Ends s (s.waitThen d p f) := by
  unfold State.waitThen
  split
  · exact Ends.of (Grows.wait _ _) (hf _)
  · exact .inr ⟨_, _, Grows.wait _ _, rfl⟩

theorem Ends.whenIdle (s : State) (f : State → State) (hf : ∀ t, Ends t (f t)) : Ends s (s.whenIdle f) := by
  unfold State.whenIdle
  split
  · exact hf _
  · exact Ends.respond _ _

theorem Ends.answerReal (s : State) (r : Option Value) : Ends s (s.answerReal r) := by
  cases r <;> exact Ends.respond _ _

theorem Ends.checked (b : Bool) (f : State → State) (hf : ∀ t, Ends t (f t)) (s t : State)
    (h : checked b f s = .next t) : Ends s t := by
  unfold Machine.checked at h
  cases h
  split
  · exact hf _
  · exact Ends.respond _ _

/-- What every operation does to the host port, the parameters and the event sequence. -/
theorem Ends.exec (i : Instr) (s t : State) (h : exec i s = .next t) : Ends s t := by
  cases i with
  | chInit m p =>
    rw [Machine.exec, execChInit] at h
    refine Ends.checked _ _ (fun t => Ends.of (Grows.initFlush t m (pullOf p)) ?_) s t h
    unfold State.initVerify
    split
    · exact Ends.waitThen _ _ _ _ fun t => Ends.finishIdle t _
    · exact Ends.respond _ _
  | chExchange b =>
    rw [Machine.exec, execChExchange] at h
    exact Ends.checked _ _ (fun t => Ends.whenIdle _ _ fun t =>
      Ends.of ((Grows.setChan t .exch).trans (Grows.exchange _ _)) (Ends.finishIdle _ _)) s t h
  | chVerify c e =>
    refine Ends.checked _ _ (fun t => ?_) s t h
    unfold State.verifyEcho; split <;> exact Ends.respond _ _
  | chAwait d =>
    exact Ends.checked _ _ (fun t => Ends.whenIdle _ _ fun t =>
      Ends.of (Grows.setChan t _) (Ends.waitThen _ _ _ _ fun t => Ends.finishIdle t _)) s t h
  | chReadBatch l =>
    refine Ends.checked _ _ (fun t => Ends.whenIdle _ _ fun t => ?_) s t h
    cases l with
    | nil => exact Ends.of (Grows.setBn t _) (Ends.respond _ _)
    | cons c r => exact Ends.of ((Grows.setBn t _).trans (Grows.setChan _ _)) (Ends.batchFrom _ _ _)
  | tkT2mv x => exact Ends.checked _ _ (fun t => Ends.answerReal _ _) s t h
  | tkMv2t x => exact Ends.checked _ _ (fun t => Ends.answerReal _ _) s t h
  | cjLinearize x y => exact Ends.checked _ _ (fun t => Ends.answerReal _ _) s t h
  | tkGetTemp x y => exact Ends.checked _ _ (fun t => Ends.answerReal _ _) s t h
  | intToBits v w => exact Ends.checked _ _ (fun t => Ends.respond _ _) s t h
  | bitsToInt b => exact Ends.checked _ _ (fun t => Ends.respond _ _) s t h
  | cfgEncode c => exact Ends.checked _ _ (fun t => Ends.respond _ _) s t h
  | cfgDecode b => exact Ends.checked _ _ (fun t => Ends.respond _ _) s t h
  | lsbSize g => exact Ends.checked _ _ (fun t => Ends.respond _ _) s t h
  | convInterval d => exact Ends.checked _ _ (fun t => Ends.respond _ _) s t h
  | tcDecode b x => exact Ends.checked _ _ (fun t => Ends.respond _ _) s t h
  | interpret c d => exact Ends.checked _ _ (fun t => Ends.respond _ _) s t h
  | cjMv x => exact Ends.checked _ _ (fun t => Ends.respond _ _) s t h

/-- What a step does to the host port, the parameters and the event sequence: nothing with no request outstanding, one
sample of a POLLED wait that reads 1, or the running operation's end. -/
theorem Ends.step (s t : State) (h : step s = .next t) :
    (t = s ∧ s.seq = .ready ∧ s.hostReq = none) ∨ (t = s.takeSample ∧ s.upcoming 0 = true ∧ ∃ p, s.seq = .polling p) ∨
      Ends s t := by
  unfold Machine.step State.advance at h
  split at h
  · rename_i p hp
    cases h
    unfold State.resume
    rw [State.poll_snd]
    cases hu : s.upcoming 0
    · right; right
      simp only [Bool.not_false, if_true]
      refine Ends.of (Grows.poll _) ?_
      cases p
      · exact Ends.finishIdle _ _
      · exact Ends.finishIdle _ _
      · exact Ends.batchFrom _ _ _
    · right; left
      rw [State.poll_waiting s hu]
      exact ⟨rfl, rfl, p, hp⟩
  · rename_i hs
    split at h
    · rename_i hn; cases h; exact .inl ⟨rfl, hs, hn⟩
    · unfold State.serve at h
      split at h
      · exact .inr (.inr (Ends.exec _ _ _ h))
      · cases h; exact .inr (.inr (Ends.respond _ _))
      · cases h

end Sys2Proof.Machine
end

