-- ==== Sys2Proof/Laws/TypeK.lean ====
section
/-! SUPPORT. What the search of BRACKET finds (44_typek_table.md R202), and the tables and functions of the
type-K mathematics in each datapath (R205, R206; 45_cold_junction.md R225). -/

namespace Sys2Proof.Machine

theorem length_takeWhile_range (n : Nat) (p : Nat → Bool) :
    ((List.range n).takeWhile p).length ≤ n ∧ (∀ j < ((List.range n).takeWhile p).length, p j = true) ∧
    (((List.range n).takeWhile p).length < n → p ((List.range n).takeWhile p).length = false) := by
  have gen : ∀ (l : List Nat), (l.takeWhile p).length ≤ l.length ∧
      (∀ j (h : j < l.length), j < (l.takeWhile p).length → p l[j] = true) ∧
      (∀ (h : (l.takeWhile p).length < l.length), p (l[(l.takeWhile p).length]) = false) := by
    intro l
    induction l with
    | nil => simp
    | cons a l ih =>
      obtain ⟨h1, h2, h3⟩ := ih
      cases hp : p a
      · simp [hp]
      · simp only [List.takeWhile_cons, hp, if_true, List.length_cons]
        refine ⟨by omega, ?_, ?_⟩
        · intro j hj hj2
          cases j with
          | zero => simpa using hp
          | succ j => exact h2 j (by omega) (by omega)
        · intro h; exact h3 (by omega)
  obtain ⟨h1, h2, h3⟩ := gen (List.range n)
  simp only [List.length_range] at h1 h2 h3
  refine ⟨h1, fun j hj => ?_, fun h => ?_⟩
  · have := h2 j (by omega) hj; simpa using this
  · have := h3 h; simpa using this

/-- The index BRACKET answers: at most 163, every entry up to it at most `x`, and the next one, if inside, above `x`. -/
theorem bracket_spec {α : Type} (N : Num α) (A : Nat → α) (x : α) :
    bracket N A x ≤ 163 ∧ (∀ j < bracket N A x, N.le (A (j + 1)) x = true) ∧
    (bracket N A x < 163 → N.le (A (bracket N A x + 1)) x = false) :=
  length_takeWhile_range 163 fun j => N.le (A (j + 1)) x

theorem tkT_binary64 (i : Nat) : tkT Num.binary64 i = F64.ofRat (tkTInt i) 1 := by unfold tkT; rw [Num.binary64_int]

theorem tkV_binary64 (i : Nat) : tkV Num.binary64 i = F64.ofRat (tkVMicro.getD i 0) (10 ^ 3) := by
  unfold tkV; rw [Num.binary64_dec]

/-! ### The tables and the functions under EXACT -/

theorem tkT_exactData (i : Nat) : tkT Num.exactData i = .rat (tkTInt i) := by unfold tkT; rw [Num.exactData_int]

theorem tkV_exactData (i : Nat) : tkV Num.exactData i = .rat (tkVMicro.getD i 0 / 1000) := by
  unfold tkV; rw [Num.exactData_dec]; norm_num

theorem tkT_exact (i : Nat) : tkT Num.exact i = (tkTInt i : ℝ) := by unfold tkT; rw [Num.exact_int]

theorem tkV_exact (i : Nat) : tkV Num.exact i = (tkVMicro.getD i 0 : ℝ) / 1000 := by
  unfold tkV; rw [Num.exact_dec]; norm_num

theorem toReal_tkT (i : Nat) : (tkT Num.exactData i).toReal = tkT Num.exact i := by unfold tkT; rw [Num.toReal_int]

theorem toReal_tkV (i : Nat) : (tkV Num.exactData i).toReal = tkV Num.exact i := by unfold tkV; rw [Num.toReal_dec]

theorem plain_tkT (i : Nat) : (tkT Num.exactData i).plain = true := rfl

theorem plain_tkV (i : Nat) : (tkV Num.exactData i).plain = true := rfl

/-- TK_T2MV's function on EXACT's data is that on the reals. -/
theorem t2mv_exactData (x : Exact) (h : x.simple = true) :
    (t2mv Num.exactData x).map Exact.toReal = t2mv Num.exact x.toReal := by
  unfold t2mv
  rw [Num.exactData_le (Exact.comparable_right h (plain_int _)), Num.exactData_lt (Exact.comparable_right h (plain_int _)),
    Num.toReal_int, Num.toReal_int, bracket_exactData _ _ plain_tkT h]
  simp only [toReal_tkT]
  split
  · simp only [Option.map_some, t2mvOn, Num.toReal_add, Num.toReal_div, Num.toReal_mul, Num.toReal_sub, Num.toReal_int,
      toReal_tkT, toReal_tkV]
  · rfl

/-- What TK_T2MV answers for a plain operand is plain. -/
theorem plain_t2mv {x m : Exact} (h : x.plain = true) (hm : t2mv Num.exactData x = some m) : m.plain = true := by
  unfold t2mv at hm
  split at hm
  · cases hm
    exact Exact.plain_plus (plain_tkV _) (Exact.plain_quot (Exact.plain_times (Exact.plain_minus h (plain_tkT _))
      (Exact.plain_minus (plain_tkV _) (plain_tkV _))) (plain_int 10))
  · cases hm

/-- TK_MV2T's function on EXACT's data is that on the reals. -/
theorem mv2t_exactData (x : Exact) (h : x.simple = true) :
    (mv2t Num.exactData x).map Exact.toReal = mv2t Num.exact x.toReal := by
  unfold mv2t
  rw [Num.exactData_le (Exact.comparable_right h (plain_dec _)), Num.exactData_lt (Exact.comparable_right h (plain_dec _)),
    Num.toReal_dec, Num.toReal_dec, bracket_exactData _ _ plain_tkV h]
  simp only [toReal_tkV]
  split
  · simp only [Option.map_some, mv2tOn, Num.toReal_add, Num.toReal_div, Num.toReal_mul, Num.toReal_sub, Num.toReal_int,
      toReal_tkT, toReal_tkV]
  · rfl

/-- TK_GET_TEMP's function on EXACT's data is that on the reals. -/
theorem getTemperature_exactData (x y : Exact) (hx : x.plain = true) (hy : y.plain = true) :
    (getTemperature Num.exactData x y).map Exact.toReal = getTemperature Num.exact x.toReal y.toReal := by
  have h := t2mv_exactData x (x.simple_of_plain hx)
  unfold getTemperature
  rw [← h]
  cases hm : t2mv Num.exactData x with
  | none => rfl
  | some m =>
    rw [Option.bind_some, Option.map_some, Option.bind_some,
      mv2t_exactData (Num.exactData.add m y) (Exact.simple_of_plain _ (Exact.plain_plus (plain_t2mv hx hm) hy)),
      Num.toReal_add]

/-- SELECT on EXACT's data is that on the reals. -/
theorem selectRange_exactData (e : Exact) (h : e.simple = true) :
    selectRange Num.exactData e = selectRange Num.exact e.toReal := by
  unfold selectRange
  rw [Num.exactData_lt (Exact.comparable_right h (plain_int _)), Num.exactData_lt (Exact.comparable_right h (plain_dec _)),
    Num.toReal_int, Num.toReal_dec]

/-- CJ_LINEARIZE's function on EXACT's data is that on the reals. -/
theorem linearize_exactData (x y : Exact) (hx : x.plain = true) (hy : y.plain = true) :
    (linearize Num.exactData x y).map Exact.toReal = linearize Num.exact x.toReal y.toReal := by
  have h := simple_combinedMv hx hy
  have h2 := Num.exactData_le (Exact.comparable_right h (plain_dec invLimit2))
  have hs := selectRange_exactData _ h
  rw [Num.toReal_dec, toReal_combinedMv] at h2
  rw [toReal_combinedMv] at hs
  unfold linearize
  simp only [h2, hs]
  split
  · rfl
  · rw [Option.map_some, toReal_poly, toReal_combinedMv]

end Sys2Proof.Machine
end

