-- ==== Sys2Proof/Machine/Assembler.lean ====
section
/-! DEFINITION. The spec's assembler syntax for a request (30_encoding.md R102, R103): a mnemonic, then its operands,
comma-separated. It has no effect on the machine (decision D42); it says which operation a line of text stands for. -/

namespace Sys2Proof.Machine

/-! ### Text -/

/-- The opening and closing brace of a CFG operand. -/
def braceOpen : Char := Char.ofNat 123

/-- See `braceOpen`. -/
def braceClose : Char := Char.ofNat 125

/-- Split at the commas outside every bracket; `cur` is the part being read, reversed. -/
def splitTop : List Char → Nat → List Char → List (List Char)
  | [], _, cur => [cur.reverse]
  | c :: cs, depth, cur =>
    if c = ',' ∧ depth = 0 then cur.reverse :: splitTop cs 0 []
    else if c = braceOpen ∨ c = '[' then splitTop cs (depth + 1) (c :: cur)
    else if c = braceClose ∨ c = ']' then splitTop cs (depth - 1) (c :: cur)
    else splitTop cs depth (c :: cur)

/-- The text between an opening and a closing character. -/
def inside (o c : Char) (t : List Char) : Option (List Char) :=
  match t with
  | [] => none
  | x :: r => if x = o ∧ r.getLast? = some c then some r.dropLast else none

/-- The value of a digit, decimal or hexadecimal. -/
def digit (c : Char) : Option Nat :=
  if '0' ≤ c ∧ c ≤ '9' then some (c.toNat - 48)
  else if 'a' ≤ c ∧ c ≤ 'f' then some (c.toNat - 87)
  else if 'A' ≤ c ∧ c ≤ 'F' then some (c.toNat - 55)
  else none

/-- Digits in base `b`, after the number `acc`. -/
def digitsFrom (b : Nat) : List Char → Nat → Option Nat
  | [], acc => some acc
  | c :: cs, acc => (digit c).bind fun d => if d < b then digitsFrom b cs (acc * b + d) else none

/-- A non-empty string of digits in base `b`. -/
def digits (b : Nat) (t : List Char) : Option Nat := if t.isEmpty then none else digitsFrom b t 0

/-! ### Operands -/

/-- A U or WID operand: a decimal or `0x` hexadecimal integer, below 2^n (30_encoding.md R102). -/
def asmInt (n : Nat) (t : List Char) : Option (BitVec n) :=
  (match t with
    | '0' :: 'x' :: r => digits 16 r
    | r => digits 10 r).bind fun v => if v < 2 ^ n then some (BitVec.ofNat n v) else none

/-- Binary digits. -/
def binaryDigits : List Char → Option BitSeq
  | [] => some []
  | c :: cs =>
    if c = '0' then (binaryDigits cs).map (false :: ·)
    else if c = '1' then (binaryDigits cs).map (true :: ·)
    else none

/-- A SEQ operand: `0b` and its digits, s_0 first; PROBE is not admitted here (30_encoding.md R102, R103). -/
def asmSeq (t : List Char) : Option BitSeq :=
  match t with
  | '0' :: 'b' :: r => binaryDigits r
  | _ => none

/-- A flag of a CFG operand. -/
def asmFlag (t : List Char) : Option Bool := if t = ['0'] then some false else if t = ['1'] then some true else none

/-- A CODE3 operand, 0..7 (30_encoding.md R102). -/
def asmCode (t : List Char) : Option (BitVec 3) := (digits 10 t).bind fun v => if v < 8 then some (BitVec.ofNat 3 v) else none

/-- The value of the one field named `name` among `name=value` fields. -/
def fieldNamed (name : String) (fields : List (List Char)) : Option (List Char) :=
  match fields.filter fun f => f.takeWhile (· ≠ '=') = name.toList with
  | [f] => some (f.drop (name.toList.length + 1))
  | _ => none

/-- A CFG operand: its eight fields by name, each exactly once, or the shorthand PROBE (30_encoding.md R102, R103). -/
def asmCfg (t : List Char) : Option AdcConfig :=
  if t = "PROBE".toList then some probe
  else (inside braceOpen braceClose t).bind fun body =>
    let fs := splitTop body 0 []
    if fs.length ≠ 8 then none
    else
      ((fieldNamed "ss" fs).bind asmFlag).bind fun ss => ((fieldNamed "mux" fs).bind asmCode).bind fun mux =>
      ((fieldNamed "gain" fs).bind asmCode).bind fun gain => ((fieldNamed "ssm" fs).bind asmFlag).bind fun ssm =>
      ((fieldNamed "dr" fs).bind asmCode).bind fun dr => ((fieldNamed "ts" fs).bind asmFlag).bind fun ts =>
      ((fieldNamed "pu" fs).bind asmFlag).bind fun pu => ((fieldNamed "op" fs).bind asmFlag).map fun op =>
      ⟨ss, mux, gain, ssm, dr, ts, pu, op⟩

/-- A LIST operand (30_encoding.md R102). -/
def asmList (t : List Char) : Option (List AdcConfig) :=
  (inside '[' ']' t).bind fun body => if body.isEmpty then some [] else (splitTop body 0 []).mapM asmCfg

/-- A decimal exponent: nothing, or `e`, an optional sign and digits. -/
def asmExponent (t : List Char) : Option Int :=
  match t with
  | [] => some 0
  | 'e' :: '-' :: r => (digits 10 r).map fun n => -(n : Int)
  | 'e' :: r => (digits 10 r).map fun n => (n : Int)
  | _ => none

/-- An unsigned decimal literal as a mantissa and a number of decimal places. -/
def asmDecimal (t : List Char) : Option (Nat × Int) :=
  let whole := t.takeWhile Char.isDigit
  let rest := t.dropWhile Char.isDigit
  match rest with
  | '.' :: r =>
    let frac := r.takeWhile Char.isDigit
    if frac.isEmpty then none
    else (digits 10 (whole ++ frac)).bind fun m => (asmExponent (r.dropWhile Char.isDigit)).map fun e =>
      (m, (frac.length : Int) - e)
  | r => (digits 10 whole).bind fun m => (asmExponent r).map fun e => (m, -e)

/-- A REAL operand: a decimal literal, which stands for its binary64 value (30_encoding.md R102, 00_scope.md R13). -/
def asmReal (t : List Char) : Option (BitVec 64) :=
  let neg := t.head? = some '-'
  let body := if neg then t.drop 1 else t
  (asmDecimal body).map fun (m, places) =>
    (F64.round neg (F64.one * (m * 10 ^ (-places).toNat)) (10 ^ places.toNat)).toBits false 0

/-- A MODE operand (30_encoding.md R102). -/
def asmMode (t : List Char) : Option WaitMode :=
  if t = "TIMED".toList then some .timed else if t = "POLLED".toList then some .polled else none

/-- A PULLC operand (30_encoding.md R102). -/
def asmPull (t : List Char) : Option (BitVec 2) :=
  if t = "NONE".toList then some 0 else if t = "UP".toList then some 1 else if t = "DOWN".toList then some 2 else none

/-! ### Lines -/

/-- An operation of one operand. -/
def line1 {α : Type} (p : List Char → Option α) (f : α → Instr) (args : List (List Char)) : Option Instr :=
  match args with
  | [a] => (p a).map f
  | _ => none

/-- An operation of two operands. -/
def line2 {α β : Type} (p : List Char → Option α) (q : List Char → Option β) (f : α → β → Instr)
    (args : List (List Char)) : Option Instr :=
  match args with
  | [a, b] => (p a).bind fun x => (q b).map fun y => f x y
  | _ => none

/-- The mnemonics of 30_encoding.md R91, each with the reader of its operands (R102). -/
def asmLines : List (String × (List (List Char) → Option Instr)) := [
  ("INT_TO_BITS", line2 (asmInt 64) (asmInt 6) .intToBits),
  ("BITS_TO_INT", line1 asmSeq .bitsToInt),
  ("CFG_ENCODE", line1 asmCfg .cfgEncode),
  ("CFG_DECODE", line1 asmSeq .cfgDecode),
  ("LSB_SIZE", line1 asmCode .lsbSize),
  ("CONV_INTERVAL", line1 asmCode .convInterval),
  ("TC_DECODE", line2 asmSeq asmReal .tcDecode),
  ("INTERPRET", line2 asmCfg asmSeq .interpret),
  ("CH_INIT", line2 asmMode asmPull .chInit),
  ("CH_EXCHANGE", line1 asmSeq .chExchange),
  ("CH_VERIFY", line2 asmCfg asmSeq .chVerify),
  ("CH_AWAIT", line1 asmCode .chAwait),
  ("CH_READ_BATCH", line1 asmList .chReadBatch),
  ("TK_T2MV", line1 asmReal .tkT2mv),
  ("TK_MV2T", line1 asmReal .tkMv2t),
  ("CJ_MV", line1 asmReal .cjMv),
  ("CJ_LINEARIZE", line2 asmReal asmReal .cjLinearize),
  ("TK_GET_TEMP", line2 asmReal asmReal .tkGetTemp)]

/-- The operation a line of assembler text stands for (30_encoding.md R102). Spaces around operands do not count. -/
def assemble (line : List Char) : Option Instr :=
  let name := line.takeWhile (· ≠ ' ')
  let args := splitTop ((line.drop name.length).filter (· ≠ ' ')) 0 []
  (asmLines.find? fun p => p.1.toList = name).bind fun p => p.2 args

end Sys2Proof.Machine
end

