-- ==== Sys2Proof/Tests/Slice0.lean ====
section
/-! SUPPORT. Tests: ill-formed operations, decoding of words written out from 30_encoding.md, single steps with the results
of 95_test_vectors.md, and for each statement with hypotheses a case that meets them. -/

namespace Sys2Proof.Tests

open Sys2Proof.Machine

set_option Elab.async false

/-! ### Helpers -/

/-- A string of binary digits; other characters do not count. -/
def bin (t : String) : BitSeq := t.toList.filterMap fun c => if c = '0' then some false else if c = '1' then some true else none

/-- The operation decoded from exactly these bits. -/
def decoded (bits : BitSeq) : Option Instr :=
  match decode bits with
  | .ok (i, []) => some i
  | _ => none

/-- These bits carry no operation. -/
def illegal (bits : BitSeq) : Bool :=
  match decode bits with
  | .error .illegalOperation => true
  | _ => false

/-- These bits end before their record does. -/
def cutShort (bits : BitSeq) : Bool :=
  match decode bits with
  | .error .truncated => true
  | _ => false

/-- A block without CS_N after reset, whose next samples are `levels`. -/
def fresh (levels : List Bool) : State := { State.reset with csN := none, din := levels }

/-- The same after a successful CH_INIT in the mode `m`. -/
def ready (m : WaitMode) (levels : List Bool) : State := { fresh levels with chan := .idle, waitMode := m }

/-- The same with CS_N. -/
def readyCs (m : WaitMode) (levels : List Bool) : State := { ready m levels with csN := some true }

/-- The state a step leaves where a request is outstanding. -/
def after (s : State) (bits : BitSeq) : Option State :=
  match step (s.placeRequest bits) with
  | .next t => some t
  | _ => none

/-- The response to an operation, one step after it is issued. -/
def response (s : State) (i : Instr) : Option Response := (after s (encode i)).bind (·.hostResp)

/-- A binary64 result by its pattern. -/
def real (pattern : BitVec 64) : Option Response := some (.ok (.real (.b64 (F64.ofBits pattern))))

/-- A block whose datapath is EXACT, the given patterns standing for the given real numbers, the others for their binary64. -/
def exactly (reals : List (BitVec 64 × RealOperand)) : State := { fresh [] with num := .exact, reals := reals }

/-- A rational result of EXACT. -/
def rational (q : ℚ) : Option Response := some (.ok (.real (.exact (.rat q))))

/-- A real result of EXACT lies strictly between two rationals. -/
def between (a b : ℚ) : Option Response → Bool
  | some (.ok (.real (.exact e))) => ((e.enclose 128).map fun c => decide (a < c.1 ∧ c.2 < b)).getD false
  | _ => false

/-- A fault response. -/
def faulted (f : HostFault) : Option Response := some (.fault f)

/-- The state a step or `exec` answers. -/
def next? : Out → Option State
  | .next t => some t
  | _ => none

/-- Configurations of 95_test_vectors.md. -/
def c1 : AdcConfig := ⟨true, 0, 2, true, 4, false, true, true⟩
/-- See `c1`. -/
def c2 : AdcConfig := ⟨true, 3, 7, true, 7, false, true, true⟩
/-- See `c1`. -/
def ones : AdcConfig := ⟨true, 7, 7, true, 7, true, true, true⟩
/-- REF_DEV of 95_test_vectors.md with a given PEND. -/
def refDev (pend : Word16) : RefDevice := ⟨pend, none⟩

/-! ### Operand checks: an ill-formed operation for each (30_encoding.md R92, 60_exceptions.md R242) -/

theorem test_wid_zero_refused : (Instr.intToBits 5 0).wellFormed = false := by decide
theorem test_wid_33_refused : (Instr.intToBits 5 33).wellFormed = false := by decide
theorem test_wid_bounds_admitted : (Instr.intToBits 5 1).wellFormed = true ∧ (Instr.intToBits 5 32).wellFormed = true := by
  decide
theorem test_seq_empty_refused : (Instr.bitsToInt []).wellFormed = false := by decide
theorem test_seq_33_refused : (Instr.bitsToInt (List.replicate 33 true)).wellFormed = false := by decide +kernel
theorem test_tc_seq_empty_refused : (Instr.tcDecode [] 0x3FF0000000000000).wellFormed = false := by decide +kernel
theorem test_tc_nan_refused : (Instr.tcDecode [true] 0x7FF8000000000000).wellFormed = false := by decide +kernel
theorem test_cfg_decode_15_refused : (Instr.cfgDecode (List.replicate 15 true)).wellFormed = false := by decide
theorem test_interpret_14_refused : (Instr.interpret c1 (List.replicate 14 true)).wellFormed = false := by decide
theorem test_exchange_17_refused : (Instr.chExchange (List.replicate 17 true)).wellFormed = false := by decide +kernel
theorem test_verify_15_refused : (Instr.chVerify c1 (List.replicate 15 true)).wellFormed = false := by decide
theorem test_pullc_3_refused : (Instr.chInit .timed 3).wellFormed = false := by decide
theorem test_list_17_refused : (Instr.chReadBatch (List.replicate 17 c1)).wellFormed = false := by decide +kernel
theorem test_list_16_admitted : (Instr.chReadBatch (List.replicate 16 c1)).wellFormed = true := by decide +kernel
theorem test_t2mv_infinity_refused : (Instr.tkT2mv 0x7FF0000000000000).wellFormed = false := by decide +kernel
theorem test_mv2t_nan_refused : (Instr.tkMv2t 0x7FF8000000000000).wellFormed = false := by decide +kernel
theorem test_cj_mv_minus_infinity_refused : (Instr.cjMv 0xFFF0000000000000).wellFormed = false := by decide +kernel
theorem test_linearize_second_nan_refused : (Instr.cjLinearize 0 0xFFF0000000000001).wellFormed = false := by decide +kernel
theorem test_get_temp_first_nan_refused : (Instr.tkGetTemp 0x7FF0000000000001 0).wellFormed = false := by decide +kernel

/-! ### Decoding: one word per constructor, written out from 30_encoding.md R91, R92 and 95_test_vectors.md §3 -/

theorem test_decode_int_to_bits :   -- P4 step 9
    decoded (bin "00001" ++ toBits 64 5 ++ bin "000000") = some (.intToBits 5 0) := by decide +kernel
theorem test_decode_bits_to_int :   -- P2 step 8
    decoded (bin "00010 010000 0100 0000 0000 0000 0000 0000 0000 0000") = some (.bitsToInt (bin "0100000000000000")) := by
  decide +kernel
theorem test_decode_cfg_encode : decoded (bin "00011 1 000 010 1 100 0 1 1") = some (.cfgEncode c1) := by   -- P2 step 2
  decide +kernel
theorem test_decode_cfg_decode :
    decoded (bin "00100 010000 1000 0101 1011 1011 1111 1111 1111 1111") = some (.cfgDecode (bin "1000010110111011")) := by
  decide +kernel
theorem test_decode_lsb_size : decoded (bin "00101 110") = some (.lsbSize 6) := by decide +kernel
theorem test_decode_conv_interval : decoded (bin "00110 011") = some (.convInterval 3) := by decide +kernel
theorem test_decode_tc_decode :
    decoded (bin "00111 000100 1011 0000000000000000000000000000" ++ toBits 64 0x3FF0000000000000) =
      some (.tcDecode (bin "1011") 0x3FF0000000000000) := by decide +kernel
theorem test_decode_interpret :   -- P2 step 7
    decoded (bin "01000 10000101100011 010000 0100 0000 0000 0000 0000000000000000") =
      some (.interpret c1 (bin "0100000000000000")) := by decide +kernel
theorem test_decode_ch_init : decoded (bin "01001 0 01") = some (.chInit .timed 1) ∧   -- P1 step 1, P2 step 1, P3 step 1
    decoded (bin "01001 1 00") = some (.chInit .polled 0) ∧ decoded (bin "01001 0 10") = some (.chInit .timed 2) := by
  decide +kernel
theorem test_decode_ch_exchange :   -- P2 step 3
    decoded (bin "01010 010000 10000101100010110000000000000000") = some (.chExchange (bin "1000010110001011")) := by
  decide +kernel
theorem test_decode_ch_verify :   -- P2 step 6
    decoded (bin "01011 10000101100011 010000 1000 0101 1000 1011 0000000000000000") =
      some (.chVerify c1 (bin "1000010110001011")) := by decide +kernel
theorem test_decode_ch_await : decoded (bin "01100 100") = some (.chAwait 4) := by decide +kernel   -- P2 step 4
theorem test_decode_ch_read_batch :   -- P1 step 2
    decoded (bin "01101 00010 10000101100011 10111111111011") = some (.chReadBatch [c1, c2]) := by decide +kernel
theorem test_decode_tk_t2mv : decoded (bin "01110" ++ toBits 64 0x4095680000000000) = some (.tkT2mv 0x4095680000000000) := by
  decide +kernel   -- P4 step 7
theorem test_decode_tk_mv2t : decoded (bin "01111" ++ toBits 64 0x3FD96872B020C49C) = some (.tkMv2t 0x3FD96872B020C49C) := by
  decide +kernel
theorem test_decode_cj_mv : decoded (bin "10000" ++ toBits 64 0x4039000000000000) = some (.cjMv 0x4039000000000000) := by
  decide +kernel
theorem test_decode_cj_linearize :   -- P3 step 3
    decoded (bin "10001" ++ toBits 64 0x4039000000000000 ++ toBits 64 0x3F60624DD2F1A9FC) =
      some (.cjLinearize 0x4039000000000000 0x3F60624DD2F1A9FC) := by decide +kernel
theorem test_decode_tk_get_temp :   -- P3 step 4
    decoded (bin "10010" ++ toBits 64 0x4039000000000000 ++ toBits 64 0x4000000000000000) =
      some (.tkGetTemp 0x4039000000000000 0x4000000000000000) := by decide +kernel

theorem test_decode_unassigned : illegal (bin "00000") = true ∧ illegal (bin "10011") = true ∧ illegal (bin "11111") = true ∧
    illegal (bin "10011 111 1") = true := by decide +kernel
theorem test_decode_cut_short : cutShort [] = true ∧ cutShort (bin "0000") = true ∧ cutShort (bin "01001 0 0") = true ∧
    cutShort (bin "01101 00010 10000101100011") = true := by decide +kernel
theorem test_table_words_decode :
    (∀ w : Nat, w < 32 → (decodeTableWord 8 w).isSome = decide (1 ≤ w ∧ w ≤ 18)) ∧
    decodeTableWord 8 0x29 = some (.chInit .polled 0) ∧ decodeTableWord 8 0x85 = some (.lsbSize 4) := by decide +kernel

/-! ### Single steps, results from 95_test_vectors.md §2 and §3 -/

theorem test_int_to_bits : response (fresh []) (.intToBits 0x1F 4) = some (.ok (.seq (bin "1111"))) ∧
    response (fresh []) (.intToBits 5 4) = some (.ok (.seq (bin "0101"))) := by decide +kernel
theorem test_int_to_bits_malformed : response (fresh []) (.intToBits 5 0) = faulted .malformedInput := by decide +kernel
theorem test_bits_to_int : response (fresh []) (.bitsToInt (bin "1011")) = some (.ok (.u 11)) ∧
    response (fresh []) (.bitsToInt (List.replicate 32 true)) = some (.ok (.u 4294967295)) := by decide +kernel
theorem test_cfg_encode : response (fresh []) (.cfgEncode c1) = some (.ok (.seq (toBits 16 0x858B))) ∧
    response (fresh []) (.cfgEncode zeroConfig) = some (.ok (.seq (toBits 16 0x0001))) ∧
    response (fresh []) (.cfgEncode ones) = some (.ok (.seq (toBits 16 0xFFFB))) ∧
    response (fresh []) (.cfgEncode c2) = some (.ok (.seq (toBits 16 0xBFEB))) := by decide +kernel
theorem test_cfg_decode : response (fresh []) (.cfgDecode (toBits 16 0x3E5A)) =
      some (.ok (.cfg ⟨false, 3, 7, false, 2, true, true, true⟩)) ∧
    response (fresh []) (.cfgDecode (toBits 16 0x8583)) = some (.ok (.cfg ⟨true, 0, 2, true, 4, false, false, true⟩)) ∧
    response (fresh []) (.cfgDecode (toBits 16 0x0005)) = some (.ok (.cfg zeroConfig)) := by decide +kernel
theorem test_lsb_size : response (fresh []) (.lsbSize 0) = real 0x3F289374BC6A7EFA ∧
    response (fresh []) (.lsbSize 5) = real 0x3EE0624DD2F1A9FC ∧ response (fresh []) (.lsbSize 7) = real 0x3EE0624DD2F1A9FC ∧
    response (exactly []) (.lsbSize 7) = rational 7.8125e-6 := by decide +kernel
theorem test_conv_interval : response (fresh []) (.convInterval 0) = real 0x3FC0000000000000 ∧
    response (fresh []) (.convInterval 6) = real 0x3F613F0E8D344724 ∧
    response (fresh []) (.convInterval 7) = real 0x3F530D190130D190 ∧
    response (exactly []) (.convInterval 7) = rational (1 / 860) := by decide +kernel
theorem test_tc_decode : response (fresh []) (.tcDecode (bin "1011") 0x3FF0000000000000) = real 0xC014000000000000 ∧
    response (fresh []) (.tcDecode (toBits 16 0x8000) 0x3FB999999999999A) = real 0xC0A999999999999A := by decide +kernel
theorem test_tc_decode_minus_zero : response (fresh []) (.tcDecode (bin "1011") 0) = real 0x8000000000000000 ∧
    response (exactly []) (.tcDecode (bin "1011") 0) = rational 0 := by decide +kernel
theorem test_interpret_voltage :
    response (fresh []) (.interpret defaultConfig (toBits 16 0x7FFF)) =
      some (.ok (.meas ⟨.voltage, .b64 (F64.ofBits 0x4000622D0E560419)⟩)) ∧
    response (fresh []) (.interpret defaultConfig (toBits 16 0x8000)) =
      some (.ok (.meas ⟨.voltage, .b64 (F64.ofBits 0xC000624DD2F1A9FC)⟩)) := by decide +kernel
theorem test_interpret_temperature :   -- -50.0, and d_14, d_15 ignored
    response (fresh []) (.interpret { defaultConfig with tempSensor := true } (toBits 16 0xE700)) =
      some (.ok (.meas ⟨.temperature, .b64 (F64.ofBits 0xC049000000000000)⟩)) ∧
    response (fresh []) (.interpret { defaultConfig with tempSensor := true } (toBits 16 0x0003)) =
      some (.ok (.meas ⟨.temperature, .b64 (F64.ofBits 0)⟩)) ∧
    response (exactly []) (.interpret { defaultConfig with tempSensor := true } (toBits 16 0xFFFC)) =
      some (.ok (.meas ⟨.temperature, .exact (.rat (-0.03125))⟩)) := by decide +kernel

/-- P1 step 1, with CS_N: the response, the events, the state. -/
theorem test_ch_init :
    let o := after { fresh ((refDev 0).answer 0x85BB) with csN := some true } (bin "01001 0 01")
    o.map (fun t => (t.hostResp, t.chan, t.waitMode, t.pull)) = some (some (.ok .nothing), .idle, .timed, .up) ∧
    o.map (fun t => (t.sclk, t.dout, t.csN, (t.trace.filter Event.isBus).length)) = some (false, true, some true, 132) ∧
    o.map (fun t => t.trace.filter Event.isSleep) =
      some [.sleep (.b64 (F64.ofRat 30 1000)), .sleep (.b64 (F64.ofBits 0x3F70624DD2F1A9FC))] := by decide +kernel
/-- P4 step 2: the device is absent. -/
theorem test_ch_init_absent_device :
    ((after (fresh (List.replicate 32 false)) (bin "01001 0 00")).map fun t =>
        (t.hostResp, t.chan, t.waitMode, t.pull, t.trace.filter Event.isSleep)) =
      some (some (.fault (.connectionFault 0)), .uninit, .timed, .none, [.sleep (.b64 (F64.ofRat 30 1000))]) := by decide +kernel
/-- P2 step 3: RAW 0x858B0C80, 128 bus events. -/
theorem test_ch_exchange :
    ((after (ready .polled ((refDev 0x0C80).answer 0x858B)) (encode (.chExchange (toBits 16 0x858B)))).map fun t =>
        (t.hostResp, t.chan, t.dout, (t.trace.filter Event.isBus).length)) =
      some (some (.ok (.raw ⟨0x858B, 0x0C80⟩)), .idle, true, 128) := by decide +kernel
theorem test_ch_exchange_not_initialized :   -- P4 step 1; a malformed operand comes first
    response (fresh []) (.chExchange (toBits 16 0x858B)) = faulted .notInitialized ∧
    response (fresh []) (.chExchange (toBits 15 0)) = faulted .malformedInput := by decide +kernel
theorem test_ch_verify : response (fresh []) (.chVerify probe (toBits 16 0x05BB)) = some (.ok .nothing) ∧
    response (fresh []) (.chVerify probe (toBits 16 0x85BF)) = some (.ok .nothing) ∧
    response (fresh []) (.chVerify zeroConfig (toBits 16 0x8005)) = some (.ok .nothing) := by decide +kernel
theorem test_ch_verify_mismatch :
    response (fresh []) (.chVerify probe (toBits 16 0x85AB)) = faulted (.connectionFault 8) ∧
    response (fresh []) (.chVerify defaultConfig (toBits 16 0x0D8B)) = faulted (.connectionFault 7) ∧
    response (fresh []) (.chVerify probe (toBits 16 0xFFFF)) = faulted (.connectionFault 16) := by decide +kernel
theorem test_ch_await_timed :
    ((after (ready .timed []) (bin "01100 111")).map fun t => (t.hostResp, t.chan, t.trace)) =
      some (some (.ok .nothing), .idle,
        [.sleep (.b64 (F64.ofBits 0x3F530D190130D190)), .sleepDone, .respond (.ok .nothing)]) := by decide +kernel
/-- The first of the draws 1, 1, 0: no answer yet. -/
theorem test_ch_await_polled :
    ((after (ready .polled [true, true, false]) (bin "01100 011")).map fun t => (t.hostResp, t.chan, t.seq)) =
      some (none, .exch, .polling .await) := by decide +kernel
/-- P1 step 2. -/
theorem test_ch_read_batch :
    let o := after (readyCs .timed ((refDev 0x0C80).script
        [(0x858B, 0x4000, false), (0xBFEB, 0xFF00, false), (0x85BB, 0x0C80, false)]))
      (bin "01101 00010 10000101100011 10111111111011")
    o.bind (fun t => t.hostResp) = some (.ok (.measList
      [⟨.voltage, .b64 (F64.ofBits 0x3FF0624DD2F1A9FC)⟩, ⟨.voltage, .b64 (F64.ofBits 0xBF60624DD2F1A9FC)⟩])) ∧
    o.map (fun t => (t.chan, t.bn, t.din, (t.trace.filter Event.isBus).length)) = some (.idle, 2, [], 390) ∧
    o.map (fun t => t.trace.filter Event.isSleep) =
      some [.sleep (.b64 (F64.ofBits 0x3F80000000000000)), .sleep (.b64 (F64.ofBits 0x3F530D190130D190))] := by decide +kernel
/-- P4 step 5 under AT_FAULT: one exchange, no wait, no result. -/
theorem test_ch_read_batch_at_fault :
    let s := { ready .timed (RefDevice.answer ⟨0x0C80, some 0x0D8B⟩ 0x058B) with batchAbort := .atFault }
    ((after s (encode (.chReadBatch [defaultConfig, c1]))).map fun t =>
        (t.hostResp, t.chan, (t.trace.filter Event.isBus).length, t.trace.filter Event.isSleep)) =
      some (some (.fault (.connectionFault 7)), .idle, 128, []) := by decide +kernel
theorem test_tk_t2mv : response (fresh []) (.tkT2mv 0x4039000000000000) = real 0x3FF0020C49BA5E36 ∧
    response (fresh []) (.tkT2mv 0x4024000000000000) = real 0x3FD96872B020C49C ∧
    response (exactly []) (.tkT2mv 0x4039000000000000) = rational 1.0005 := by decide +kernel
theorem test_tk_t2mv_out_of_range :   -- 1370.0
    response (fresh []) (.tkT2mv 0x4095680000000000) = faulted .outOfRange := by decide +kernel
theorem test_tk_mv2t : response (fresh []) (.tkMv2t 0x3FD96872B020C49C) = real 0x4024000000000000 ∧   -- 0.397 gives 10.0
    response (fresh []) (.tkMv2t (F64.toBits false 0 (F64.ofRat 20644 1000))) = real 0x407F400000000000 ∧
    response (exactly [(0x3FD96872B020C49C, .rat 0.1985)]) (.tkMv2t 0x3FD96872B020C49C) = rational 5 := by decide +kernel
theorem test_tk_mv2t_out_of_range :
    response (fresh []) (.tkMv2t (F64.toBits false 0 (F64.ofRat 54819 1000))) = faulted .outOfRange ∧
    response (exactly [(1, .rat 54.819)]) (.tkMv2t 1) = faulted .outOfRange := by decide +kernel
theorem test_cj_mv : response (fresh []) (.cjMv 0) = real 0x3E20F50E5C800000 ∧
    response (fresh []) (.cjMv 0x4039000000000000) = real 0x3FF000FE208F1146 := by decide +kernel
theorem test_cj_mv_exact :   -- CJ_MV 0.0 and 10.0, to the 15 digits given
    between 1.974083758474815e-9 1.974083758474825e-9 (response (exactly []) (.cjMv 0)) = true ∧
    between 0.3968619077591255 0.3968619077591265 (response (exactly []) (.cjMv 0x4024000000000000)) = true := by
  decide +kernel
theorem test_cj_linearize :   -- P3 step 3
    response (fresh []) (.cjLinearize 0x4039000000000000 0x3F60624DD2F1A9FC) = real 0x4052653912E8D168 ∧
    between 73.58160851226935 73.58160851226945 (response (exactly [(0x3F60624DD2F1A9FC, .rat 0.002)])
      (.cjLinearize 0x4039000000000000 0x3F60624DD2F1A9FC)) = true := by decide +kernel
theorem test_cj_linearize_out_of_range :   -- P4 step 8
    response (fresh []) (.cjLinearize 0 0x3FAC1A048E043A21) = faulted .outOfRange ∧
    response (exactly [(0x3FAC1A048E043A21, .rat 0.054886)]) (.cjLinearize 0 0x3FAC1A048E043A21) = faulted .outOfRange := by
  decide +kernel
theorem test_tk_get_temp :   -- P3 step 4
    response (fresh []) (.tkGetTemp 0x4039000000000000 0x4000000000000000) = real 0x4052660000000000 ∧
    response (exactly []) (.tkGetTemp 0x4039000000000000 0) = rational 25 := by decide +kernel
theorem test_tk_get_temp_out_of_range :   -- 1370.0, -1.0: the first stage
    response (fresh []) (.tkGetTemp 0x4095680000000000 0xBFF0000000000000) = faulted .outOfRange := by decide +kernel

/-! ### Response records, text, reset -/

theorem test_response_record_batch :   -- P1 step 2
    (Response.ok (.measList [⟨.voltage, .b64 (F64.ofBits 0x3FF0624DD2F1A9FC)⟩,
      ⟨.voltage, .b64 (F64.ofBits 0xBF60624DD2F1A9FC)⟩])).bits 0 =
      bin "000 00000 00010 0" ++ toBits 64 0x3FF0624DD2F1A9FC ++ bin "0" ++ toBits 64 0xBF60624DD2F1A9FC := by decide +kernel
theorem test_response_record_seq :   -- P2 step 2
    (Response.ok (.seq (toBits 16 0x858B))).bits 0 = bin "00000000 010000" ++ toBits 32 0x858B0000 := by decide +kernel
theorem test_response_record_fields :   -- U, CFG, REAL, MEAS (P2 step 7) and RAW (P2 step 3)
    (Response.ok (.u 16384)).bits 0 = toBits 72 16384 ∧
    (Response.ok (.cfg c2)).bits 0 = bin "00000000 1 011 111 1 111 0 1 1" ∧
    (Response.ok (.real (.b64 (F64.ofBits 0x4024000000000000)))).bits 0 = toBits 72 0x4024000000000000 ∧
    (Response.ok (.meas ⟨.voltage, .b64 (F64.ofBits 0x3FF0624DD2F1A9FC)⟩)).bits 0 =
      bin "000000000" ++ toBits 64 0x3FF0624DD2F1A9FC ∧
    (Response.ok (.raw ⟨0x858B, 0x0C80⟩)).bits 0 = toBits 40 0x858B0C80 := by decide +kernel
theorem test_response_record_fault : (Response.fault (.connectionFault 7)).bits 0 = toBits 8 0x27 ∧   -- 95 notation
    (Response.fault .notInitialized).bits 0 = toBits 8 0xA0 := by decide +kernel
theorem test_assemble_init : assemble "CH_INIT TIMED, UP".toList = some (.chInit .timed 1) := by decide +kernel
theorem test_assemble_batch : assemble "CH_READ_BATCH [PROBE, PROBE]".toList = some (.chReadBatch [probe, probe]) := by
  decide +kernel
theorem test_assemble_real : assemble "TC_DECODE 0b0101, -0.5".toList = some (.tcDecode (bin "0101") 0xBFE0000000000000) := by
  decide +kernel
theorem test_reset_uninitialized : State.reset.chan = .uninit ∧ State.reset.hostReq = none := by decide

/-! ### Witnesses: for each statement with hypotheses, cases that meet them all -/

/-- A block without CS_N inside the POLLED wait of a CH_AWAIT. -/
def waiting (levels : List Bool) : State :=
  { ready .polled levels with chan := .exch, seq := .polling .await, hostReq := some (encode (.chAwait 3)) }

/-- A block inside the POLLED wait of command `k` of a batch, `rest` to come, BATCH_ABORT `a`. -/
def batching (a : BatchAbort) (k : Nat) (rest : List AdcConfig) (levels : List Bool) : State :=
  { waiting levels with seq := .polling (.batch k rest), batchAbort := a, bn := k + 1 + rest.length }

/-- REF_DEV's levels for a batch of commands, each echoed, `w j` samples of 1 and a 0 after command `j` where the mode is
POLLED. -/
def batchLevels (m : WaitMode) (w : Nat → Nat) (cs : List AdcConfig) : List Bool :=
  (List.range cs.length).flatMap (fun j => (refDev 0x4000).answer (encodeConfig (cs.getD j zeroConfig)) ++
    match m with
    | .timed => []
    | .polled => List.replicate (w j) true ++ [false]) ++ (refDev 0).answer probeWord

/-- The echoes of a batch's first `n` commands verify, as a check. -/
def batchVerifies (s : State) (w : Nat → Nat) (cs : List AdcConfig) (n : Nat) : Bool :=
  (List.range n).all fun j => verify (cs.getD j zeroConfig) (s.sampledWord (s.batchAt w j))

/-- A wait's end, as a check. -/
def waitEnds (s : State) (m : WaitMode) (n w : Nat) : Bool :=
  match m with
  | .timed => w == 0
  | .polled => (List.range w).all (fun i => s.upcoming (n + i)) && !s.upcoming (n + w)

theorem waitEnds_of {s : State} {m : WaitMode} {n w : Nat} (h : waitEnds s m n w = true) : s.WaitEnds m n w := by
  cases m
  · simpa [waitEnds, State.WaitEnds] using h
  · simpa [waitEnds, State.WaitEnds] using h

theorem batchWaits_of {s : State} {w : Nat → Nat} {n : Nat}
    (h : (List.range n).all (fun j => waitEnds s s.waitMode (s.batchAt w j + 32) (w j)) = true) : s.BatchWaits w n :=
  fun j hj => waitEnds_of (List.all_eq_true.1 h j (List.mem_range.2 hj))

theorem test_witness_round_trip : (List.replicate 32 true).length = 32 ∧
    (Instr.cjLinearize 0 0x3FF0000000000000).wellFormed = true ∧
    (Instr.tcDecode (bin "1") 0).wellFormed = true ∧ (Instr.chReadBatch (List.replicate 16 c2)).wellFormed = true := by
  decide +kernel

/-- P[27..0] of a SEQ of length 4 all ones: ignored. -/
theorem test_seq_payload_ignored : decoded (bin "00010 000100 1011 1111111111111111111111111111") =
    some (.bitsToInt (bin "1011")) := by decide +kernel

theorem test_witness_unassigned : ∀ q ∈ [bin "00000", bin "10011", bin "11111 0101"],
    let s := (fresh []).placeRequest q
    s.seq = .ready ∧ s.hostReq = some q ∧ 5 ≤ q.length ∧ (uint (q.take 5) = 0 ∨ 0x13 ≤ uint (q.take 5)) := by
  decide +kernel

theorem test_witness_step_runs : let s := (fresh []).placeRequest (bin "00101 011")
    s.seq = .ready ∧ s.hostReq = some (bin "00101 011") ∧ decode (bin "00101 011") = .ok (.lsbSize 3, []) :=
  ⟨rfl, rfl, rfl⟩

theorem test_witness_no_new_request : ((fresh []).seq = .ready ∧ (fresh []).hostReq = none) ∧
    ((waiting [true]).seq = .polling .await ∧ (waiting [true]).upcoming 0 = true) ∧
    ((waiting [false]).seq = .polling .await ∧ (waiting [false]).upcoming 0 = false) := by decide +kernel

theorem test_witness_table_word : decodeTableWord 8 0x05 = some (.lsbSize 0) ∧
    decodeTableWord 8 0x0D = some (.chReadBatch []) := by decide +kernel

theorem test_witness_issue : ((fresh []).placeRequest []).hostReq.isSome = true ∧ (fresh []).hostReq = none := by
  decide

theorem test_witness_answered : ∃ t, ((fresh []).placeRequest (bin "00101 011")).hostReq = some (bin "00101 011") ∧
    step ((fresh []).placeRequest (bin "00101 011")) = .next t := ⟨_, rfl, rfl⟩

theorem test_witness_not_answered : ∃ t, (waiting [true]).hostReq = some (encode (.chAwait 3)) ∧
    step (waiting [true]) = .next t ∧ t.hostReq = some (encode (.chAwait 3)) := ⟨_, rfl, rfl, rfl⟩

theorem test_witness_truncated : let s := (fresh []).placeRequest (bin "01100")
    s.seq = .ready ∧ s.hostReq = some (bin "01100") ∧ decode (bin "01100") = .error .truncated := ⟨rfl, rfl, rfl⟩

theorem test_witness_malformed : (Instr.chInit .polled 3).wellFormed = false ∧ (Instr.cfgEncode c1).wellFormed = true ∧
    (fresh []).hostResp = none ∧ (next? (exec (.cfgEncode c1) (fresh []))).isSome = true := by decide +kernel

theorem test_witness_not_idle : (fresh []).chan ≠ .idle ∧ (waiting []).chan ≠ .idle ∧ (toBits 16 0x858B).length = 16 ∧
    ([] : List AdcConfig).length ≤ 16 ∧ (List.replicate 16 c1).length ≤ 16 := by decide

theorem test_witness_widths : (1 ≤ (1#6).toNat ∧ (1#6).toNat ≤ 32) ∧ (1 ≤ (32#6).toNat ∧ (32#6).toNat ≤ 32) ∧
    (0#6).toNat = 0 ∧ 32 < (33#6).toNat := by decide

theorem test_witness_lengths : (1 ≤ [true].length ∧ [true].length ≤ 32) ∧
    (1 ≤ (toBits 32 1).length ∧ (toBits 32 1).length ≤ 32) ∧ ([] : BitSeq).length = 0 ∧ 32 < (toBits 33 1).length := by
  decide

theorem test_witness_codec : 1 ≤ 32 ∧ 32 ≤ 32 ∧ (4294967295 : Nat) < 2 ^ 32 ∧ (0 : Nat) < 2 ^ 1 := by decide

theorem test_witness_sixteen : (toBits 16 0x85BB).length = 16 ∧ (toBits 15 0).length ≠ 16 ∧ (toBits 17 0).length ≠ 16 := by
  decide

theorem test_witness_gain_rate : (0 : Nat) < 5 ∧ (4 : Nat) < 5 ∧ (0 : Nat) < 7 ∧ (6 : Nat) < 7 := by decide

/-- 2.5 is a tie and rounds to 2; 7/3 does not tie; just below 2^53 units, where the spacing doubles, a tie rounds up to it;
the largest that rounds to a finite value, and the smallest that does not. -/
theorem test_witness_rounding : F64.round false 5 2 = .fin false 2 0 ∧ F64.round true 7 3 = .fin true 2 0 ∧
    F64.round false (2 ^ 54 - 1) 2 = .fin false (2 ^ 52) 1 ∧
    F64.round false ((2 ^ 54 - 1) * 2 ^ 2044 - 1) 1 = .fin false (2 ^ 53 - 1) 2045 ∧
    F64.round true ((2 ^ 54 - 1) * 2 ^ 2044) 1 = .inf true := by decide +kernel

/-- What the rounding is compared with, 3 for the tie 5/2, is a value of the format; two that are as near exist. -/
theorem test_witness_nearest : (F64.fin false 3 0).wf = true ∧ (3 : Nat) * 2 ^ 0 ≠ 2 * 2 ^ 0 ∧
    ((3 * 2 ^ 0 * 2 : Int) - 5).natAbs = ((2 * 2 ^ 0 * 2 : Int) - 5).natAbs := by decide +kernel

/-- 1 + 2^-53 ties to 1; 2^-1074 * 2^-1074 underflows; 1 / 3. -/
theorem test_witness_arithmetic :
    F64.add (F64.ofRat 1 1) (F64.ofRat 1 (2 ^ 53)) = F64.ofRat 1 1 ∧ F64.sub (F64.ofRat 1 1) (F64.ofRat 1 1) = .fin false 0 0 ∧
    F64.mul (.fin true 1 0) (.fin false 1 0) = .fin true 0 0 ∧
    F64.div (F64.ofRat 1 1) (F64.ofRat 3 1) = F64.ofBits 0x3FD5555555555555 := by decide +kernel

theorem test_witness_signs : (F64.fin false 1 0).toRat + (F64.fin false 1 0).toRat ≠ 0 ∧
    (F64.fin false 1 0).toRat + (F64.fin true 1 0).toRat = 0 ∧ (F64.fin false 1 0).toRat - (F64.fin true 1 0).toRat ≠ 0 ∧
    (F64.fin false 1 0).toRat - (F64.fin false 1 0).toRat = 0 ∧ (F64.fin false 0 0).toRat * (F64.fin false 1 0).toRat = 0 ∧
    (F64.fin false 0 0).toRat = 0 ∧ (F64.fin true 1 0).toRat ≠ 0 := by
  have h : (0 : ℚ) < ((2 : ℚ) ^ 1074)⁻¹ := by positivity
  simp only [F64.toRat, F64.units, signed, div_eq_mul_inv]
  generalize ((2 : ℚ) ^ 1074)⁻¹ = u at *
  have h0 := h.ne'
  refine ⟨?_, ?_, ?_, ?_, ?_, ?_, ?_⟩ <;> simp <;> linarith

theorem test_witness_tc_decode :
    ([[false], [true], toBits 32 0x7FFFFFFF, toBits 32 0x80000000].all fun b : BitSeq =>
      decide (1 ≤ b.length ∧ b.length ≤ 32)) = true ∧
    (F64.ofBits 0xBFE0000000000000).isFinite = true ∧ ([] : BitSeq).length = 0 ∧ 32 < (toBits 33 0).length ∧
    (F64.ofBits 0x7FF0000000000000).isFinite = false := by decide +kernel

/-- Every premise on NUM. -/
theorem test_witness_num : (fresh []).num = .binary64 ∧ (exactly []).num = .exact ∧
    (exactly [(1, .free 0)]).num = .exact := ⟨rfl, rfl, rfl⟩

theorem test_witness_interpret : ({ c1 with tempSensor := true } : AdcConfig).tempSensor = true ∧ c1.tempSensor = false ∧
    (toBits 16 0xE700).length = 16 ∧ (toBits 14 0).length ≠ 16 := by decide

theorem test_witness_ref_device : (refDev 0x1234).badEcho = none ∧
    (fresh ((refDev 0x1234).answer 0x058B ++ [true])).din = (refDev 0x1234).answer 0x058B ++ [true] ∧
    (fresh ((refDev 0x1234).answer 0x058B ++ (((refDev 0x1234).after 0x4000).answer 0x85BB ++ []))).din =
      (refDev 0x1234).answer 0x058B ++ (((refDev 0x1234).after 0x4000).answer 0x85BB ++ []) := ⟨rfl, rfl, rfl⟩

theorem test_witness_exchange : (ready .timed []).chan = .idle ∧ (fresh []).chan ≠ .idle := by decide

theorem test_witness_verify : verify probe (word16 (toBits 16 0x05BB)) = true ∧ verify probe (word16 (toBits 16 0x85B9)) = false ∧
    (toBits 16 0x85B9).length = 16 := by decide +kernel

theorem test_witness_init_succeeds :
    (∀ p : BitVec 2, p = 0 ∨ p = 1 ∨ p = 2 → p ≠ 3#2) ∧
    verify probe ((fresh ((refDev 0).answer probeWord ++ [true, true, false])).sampledWord 0) = true ∧
    (fresh ((refDev 0).answer probeWord)).WaitEnds .timed 32 0 ∧
    (fresh ((refDev 0).answer probeWord ++ [false])).WaitEnds .polled 32 0 ∧
    (fresh ((refDev 0).answer probeWord ++ [true, true, false])).WaitEnds .polled 32 2 :=
  ⟨by decide +kernel, by decide +kernel, waitEnds_of (by decide +kernel), waitEnds_of (by decide +kernel),
    waitEnds_of (by decide +kernel)⟩

theorem test_witness_init_faults : (2#2 : BitVec 2) ≠ 3#2 ∧
    verify probe ((fresh (List.replicate 32 false)).sampledWord 0) = false ∧
    verify probe ((fresh (List.replicate 32 true)).sampledWord 0) = false := by decide +kernel

theorem test_witness_await :
    ((ready .timed []).chan = .idle ∧ (ready .timed []).WaitEnds (ready .timed []).waitMode 0 0) ∧
    ((ready .polled [false]).chan = .idle ∧ (ready .polled [false]).WaitEnds (ready .polled [false]).waitMode 0 0) ∧
    (ready .polled [true, true, false]).WaitEnds (ready .polled [true, true, false]).waitMode 0 2 :=
  ⟨⟨rfl, waitEnds_of (by decide +kernel)⟩, ⟨rfl, waitEnds_of (by decide +kernel)⟩, waitEnds_of (by decide +kernel)⟩

theorem test_witness_await_waits : (ready .polled [true]).chan = .idle ∧ (ready .polled [true]).waitMode = .polled ∧
    (ready .polled [true]).upcoming 0 = true := by decide +kernel

theorem test_witness_init_and_batch_wait :
    let s := ready .polled ((refDev 0).answer probeWord ++ [true])
    let t := { ready .polled ((refDev 0).answer (encodeConfig c1) ++ [true]) with batchAbort := .atFault }
    (verify probe (s.sampledWord 0) = true ∧ s.upcoming 32 = true) ∧
    (t.chan = .idle ∧ t.waitMode = .polled ∧ (List.replicate 15 c2).length ≤ 15 ∧
      (t.batchAbort = .atFault → verify c1 (t.sampledWord 0) = true) ∧ t.upcoming 32 = true) := by decide +kernel

theorem test_witness_wait_ended : (waiting [false]).seq = .polling .await ∧ (waiting [false]).upcoming 0 = false ∧
    ({ waiting [false] with chan := .uninit, seq := .polling .init } : State).seq = .polling .init := by decide +kernel

/-- Inside a batch's wait that ends: the next command's echo fails under AT_FAULT, passes, is the sixteenth. -/
theorem test_witness_wait_ended_next :
    let s := batching .atFault 14 [c1] (false :: List.replicate 32 false)
    let t := batching .atFault 0 [c1, c2] (false :: (refDev 0).answer (encodeConfig c1))
    (s.seq = .polling (.batch 14 [c1]) ∧ s.upcoming 0 = false ∧ 14 + 1 < 16 ∧ s.batchAbort = .atFault ∧
      verify c1 (s.sampledWord 1) = false) ∧
    (t.seq = .polling (.batch 0 [c1, c2]) ∧ t.upcoming 0 = false ∧ t.waitMode = .polled ∧
      (t.batchAbort = .atFault → verify c1 (t.sampledWord 1) = true)) := by decide +kernel

/-- The last wait of a batch ends: all of its echoes verify, under AFTER_ALL (16 commands) or not checked again, under
AT_FAULT; or, under AFTER_ALL, the first or the last does not. -/
theorem test_witness_wait_ended_last :
    let good := Vector.replicate 17 (⟨0x058B, 0⟩ : RawExchange)
    let bad := good.setIfInBounds 15 ⟨0, 0⟩
    let s := fun v => { batching .afterAll 15 [] [false] with bcmd := Vector.replicate 16 defaultConfig, braw := v }
    ((s good).seq = .polling (.batch 15 []) ∧ (s good).upcoming 0 = false ∧ (s good).bn ≤ 16 ∧
      ∀ j < (s good).bn, verify ((s good).bcmdAt j) ((s good).brawAt j).echo = true) ∧
    (batching .atFault 3 [] [false]).batchAbort ≠ .afterAll ∧
    (15 < (s bad).bn ∧ (s bad).batchAbort = .afterAll ∧
      (∀ j < 15, verify ((s bad).bcmdAt j) ((s bad).brawAt j).echo = true) ∧
      verify ((s bad).bcmdAt 15) ((s bad).brawAt 15).echo = false) ∧
    (let t := { batching .afterAll 0 [] [false] with bcmd := Vector.replicate 16 defaultConfig }
     0 < t.bn ∧ verify (t.bcmdAt 0) (t.brawAt 0).echo = false) := by decide +kernel

theorem test_witness_polled_wait : (waiting [true, true, false]).seq = .polling .await ∧
    (∀ j < 2, (waiting [true, true, false]).upcoming j = true) ∧ (waiting [true, true, false]).upcoming 2 = false := by
  decide +kernel

theorem test_witness_batch_timed : let s := readyCs .timed (batchLevels .timed (fun _ => 0) (List.replicate 16 c1))
    s.chan = .idle ∧ (List.replicate 16 c1).length ≤ 16 ∧ s.BatchWaits (fun _ => 0) 16 ∧
    batchVerifies s (fun _ => 0) (List.replicate 16 c1) 16 = true :=
  ⟨rfl, by decide, batchWaits_of (by decide +kernel), by decide +kernel⟩

theorem test_witness_batch_polled : let s := readyCs .polled (batchLevels .polled (fun j => 2 - j) [c1, c2, c1])
    s.chan = .idle ∧ 1 ≤ [c1, c2, c1].length ∧ s.BatchWaits (fun j => 2 - j) 3 ∧
    batchVerifies s (fun j => 2 - j) [c1, c2, c1] 3 = true :=
  ⟨rfl, by decide, batchWaits_of (by decide +kernel), by decide +kernel⟩

/-- The device echoes 0x858B throughout: of c1, c1, c2 the last is the first whose echo does not verify. -/
theorem test_witness_batch_fault (a : BatchAbort) :
    let s := { ready .polled ((List.range 3).flatMap fun j =>
      RefDevice.answer ⟨0, some 0x858B⟩ 0 ++ List.replicate (j + 1) true ++ [false]) with batchAbort := a }
    s.chan = .idle ∧ s.batchAbort = a ∧ s.BatchWaits (fun j => j + 1) 3 ∧ batchVerifies s (fun j => j + 1) [c1, c1, c2] 2 = true ∧
    verify ([c1, c1, c2].getD 2 zeroConfig) (s.sampledWord (s.batchAt (fun j => j + 1) 2)) = false := by
  cases a <;> exact ⟨rfl, rfl, batchWaits_of (by decide +kernel), by decide +kernel, by decide +kernel⟩

theorem test_witness_batch_fault_at_first : let s := ready .timed (List.replicate 64 false)
    s.chan = .idle ∧ s.batchAbort = .afterAll ∧ s.BatchWaits (fun _ => 0) 1 ∧ s.BatchWaits (fun _ => 0) 0 ∧
    verify ([c1].getD 0 zeroConfig) (s.sampledWord (s.batchAt (fun _ => 0) 0)) = false :=
  ⟨rfl, rfl, batchWaits_of (by decide +kernel), batchWaits_of (by decide +kernel), by decide +kernel⟩

theorem test_witness_mode_changes :
    let s := (fresh (List.replicate 32 false)).placeRequest (bin "01001 1 01")
    (next? (step s)).map (fun t => (t.waitMode, t.pull)) = some (.polled, .up) ∧ s.waitMode = .timed ∧ s.pull = .none := by
  decide +kernel

theorem test_witness_bracket_real : ∃ A : Nat → ℝ, (∀ i < 164, A i < A (i + 1)) ∧
    (A 0 ≤ 0 ∧ (0 : ℝ) < A 164) ∧ (A 0 ≤ 163 ∧ (163 : ℝ) < A 164) ∧ A 0 ≤ 0 ∧ (0 : ℝ) < A (0 + 1) :=
  ⟨fun i => (i : ℝ), fun i _ => by push_cast; linarith, ⟨by simp, by norm_num⟩, ⟨by simp, by norm_num⟩, by simp, by norm_num⟩

theorem test_witness_bracket_binary64 : (∀ i < 164, F64.lt (tkT Num.binary64 i) (tkT Num.binary64 (i + 1)) = true) ∧
    F64.le (tkT Num.binary64 0) (F64.ofRat (-270) 1) = true ∧ F64.lt (F64.ofRat 1360 1) (tkT Num.binary64 164) = true ∧
    F64.le (tkT Num.binary64 163) (F64.ofRat 1360 1) = true := by decide +kernel

/-- -270.0, the largest value below 1370, 1370.0 and -270.001 (0xC070E004189374BC). -/
theorem test_witness_t2mv_domain :
    ([0xC070E00000000000, 0x409567FFFFFFFFFF].all fun x : BitVec 64 => (F64.ofBits x).isFinite &&
      F64.le (F64.ofRat (-270) 1) (F64.ofBits x) && F64.lt (F64.ofBits x) (F64.ofRat 1370 1)) = true ∧
    ([0x4095680000000000, 0xC070E004189374BC].all fun x : BitVec 64 => (F64.ofBits x).isFinite &&
      !(F64.le (F64.ofRat (-270) 1) (F64.ofBits x) && F64.lt (F64.ofBits x) (F64.ofRat 1370 1))) = true ∧
    (F64.ofBits 0x7FF8000000000000).isFinite = false := by decide +kernel

/-- The two bounds of the domain, as the patterns of their literals. -/
theorem test_witness_mv2t_domain :
    let lo := F64.toBits false 0 (F64.ofRat (-6458) 1000)
    let hi := F64.toBits false 0 (F64.ofRat 54819 1000)
    (F64.ofBits lo).isFinite = true ∧ (F64.ofBits hi).isFinite = true ∧
    (F64.le (F64.ofRat (-6458) 1000) (F64.ofBits lo) = true ∧ F64.lt (F64.ofBits lo) (F64.ofRat 54819 1000) = true) ∧
    ¬(F64.le (F64.ofRat (-6458) 1000) (F64.ofBits hi) = true ∧ F64.lt (F64.ofBits hi) (F64.ofRat 54819 1000) = true) := by
  decide +kernel

/-- Under EXACT, -270.0 and 1370.0 as their binary64 values: each side of the domain is met. -/
theorem test_witness_t2mv_exact :
    let s := exactly []
    ([0xC070E00000000000, 0x4095680000000000].all fun x : BitVec 64 => (F64.ofBits x).isFinite) = true ∧
    (-270 ≤ s.operand 0xC070E00000000000 ∧ s.operand 0xC070E00000000000 < 1370) ∧
    ¬(-270 ≤ s.operand 0x4095680000000000 ∧ s.operand 0x4095680000000000 < 1370) := by
  have e1 : (exactly []).realOf 0xC070E00000000000 = .rat (-270) := by decide +kernel
  have e2 : (exactly []).realOf 0x4095680000000000 = .rat 1370 := by decide +kernel
  refine ⟨by decide +kernel, ?_, ?_⟩
  · unfold State.operand; rw [e1, Exact.toReal_rat]; norm_num
  · unfold State.operand; rw [e2, Exact.toReal_rat]; norm_num

/-- 44_typek_table.md R205: 1370 is out of range under EXACT, whatever the operand is written as. -/
theorem test_t2mv_exact_upper_bound (h : (Exact.free 0).toReal = 1370) : t2mv Num.exactData (.free 0) = none := by
  have e := t2mv_exactData (.free 0) rfl
  have n : t2mv Num.exact 1370 = none := by
    unfold t2mv; rw [if_neg]; rw [Bool.and_eq_true, Num.exact_lt, Num.exact_int]; norm_num
  rw [h, n, Option.map_eq_none_iff] at e
  exact e

/-- Under EXACT, 1 standing for 0.1985 and 2 for 54.819: each side of the domain is met. -/
theorem test_witness_mv2t_exact :
    let s := exactly [(1, .rat 0.1985), (2, .rat 54.819)]
    ([1, 2].all fun x : BitVec 64 => (F64.ofBits x).isFinite) = true ∧
    (-6.458 ≤ s.operand 1 ∧ s.operand 1 < 54.819) ∧ ¬(-6.458 ≤ s.operand 2 ∧ s.operand 2 < 54.819) := by
  refine ⟨by decide +kernel, ⟨?_, ?_⟩, ?_⟩ <;>
    simp [exactly, State.operand, State.realOf, List.lookup, RealOperand.value] <;> norm_num

theorem test_witness_inverse : (-270 : ℝ) ≤ -270 ∧ (-270 : ℝ) < 1370 ∧ (-270 : ℝ) ≤ 1369 ∧ (1369 : ℝ) < 1370 := by norm_num

theorem test_witness_cj_mv : (F64.ofBits 0xC070E00000000000).isFinite = true ∧ (F64.ofBits 0xFFF8000000000000).isFinite = false := by
  decide +kernel

theorem test_witness_select_exact : (-1 : ℝ) < 0 ∧ ((0 : ℝ) ≤ 0 ∧ (0 : ℝ) < 20.644) ∧ (20.644 : ℝ) ≤ 20.644 := by norm_num

theorem test_witness_select : F64.lt (F64.ofBits 0x8000000000000001) (F64.ofRat 0 1) = true ∧
    (F64.le (F64.ofRat 0 1) (F64.ofRat 0 1) = true ∧ F64.lt (F64.ofRat 0 1) (F64.ofRat 20644 1000) = true) ∧
    F64.le (F64.ofRat 20644 1000) (F64.ofRat 20644 1000) = true := by decide +kernel

/-- CJ_LINEARIZE 25.0, 0.002 is in range, 0.0, 0.054886 is not. -/
theorem test_witness_linearize :
    F64.le (F64.ofRat 54886 1000) (F64.add (cjMillivolts Num.binary64 (F64.ofBits 0x4039000000000000))
      (F64.mul (F64.ofBits 0x3F60624DD2F1A9FC) (F64.ofRat 1000 1))) = false ∧
    F64.le (F64.ofRat 54886 1000) (F64.add (cjMillivolts Num.binary64 (F64.ofBits 0))
      (F64.mul (F64.ofBits 0x3FAC1A048E043A21) (F64.ofRat 1000 1))) = true ∧
    (F64.ofBits 0x3FAC1A048E043A21).isFinite = true ∧ (F64.ofBits 0x7FF0000000000000).isFinite = false := by decide +kernel

/-- Under EXACT, 1 standing for 0.054886: CJ_LINEARIZE 0.0, 0.0 is in range and 0.0, 0.054886 is not. -/
theorem test_witness_linearize_exact :
    let s := exactly [(1, .rat 0.054886)]
    ((F64.ofBits 0).isFinite = true ∧ (F64.ofBits 1).isFinite = true) ∧
    cjMillivolts Num.exact (s.operand 0) + s.operand 0 * 1000 < 54.886 ∧
    54.886 ≤ cjMillivolts Num.exact (s.operand 0) + s.operand 1 * 1000 := by
  intro s
  have h1 : Exact.less (combinedMv Num.exactData (s.realOf 0) (s.realOf 0)) (.rat 54.886) = true := by decide +kernel
  have h2 : Exact.less (combinedMv Num.exactData (s.realOf 0) (s.realOf 1)) (.rat 54.886) = false := by decide +kernel
  have d : ∀ x y, Exact.comparable (combinedMv Num.exactData (s.realOf x) (s.realOf y)) (.rat 54.886) = true := fun x y =>
    Exact.comparable_right (simple_combinedMv (plain_realOf s x) (plain_realOf s y)) rfl
  have c : ((Exact.rat 54.886).toReal : ℝ) = 54.886 := by rw [Exact.toReal_rat]; norm_num
  have e : ∀ x y, cjMillivolts Num.exact (s.operand x) + s.operand y * 1000 =
      (combinedMv Num.exactData (s.realOf x) (s.realOf y)).toReal := fun x y => by
    rw [toReal_combinedMv]; simp [combinedMv, State.operand]
  rw [e, e, ← c]
  refine ⟨by decide +kernel, (Exact.less_iff (d 0 0)).1 h1, ?_⟩
  rw [← not_lt, ← Exact.less_iff (d 0 1), h2]; simp

/-- 45_cold_junction.md R225: an operand that makes the combined voltage exactly 54.886 mV is out of range under EXACT. -/
theorem test_linearize_exact_upper_bound (t : ℚ)
    (h : (Exact.free 0).toReal = (54.886 - cjMillivolts Num.exact t) / 1000) :
    linearize Num.exactData (.rat t) (.free 0) = none := by
  have e := linearize_exactData (.rat t) (.free 0) rfl rfl
  have c : combinedMv Num.exact (t : ℝ) ((54.886 - cjMillivolts Num.exact t) / 1000) = 54.886 := by
    unfold combinedMv; simp only [Num.exact_add, Num.exact_mul, Num.exact_int]; push_cast; ring
  have n : linearize Num.exact (t : ℝ) ((54.886 - cjMillivolts Num.exact t) / 1000) = none := by
    unfold linearize; simp only [c]
    rw [if_pos]; simp only [Num.exact_le, Num.exact_dec, invLimit2]; norm_num
  rw [h, Exact.toReal_rat, n, Option.map_eq_none_iff] at e
  exact e

/-- Under EXACT, 1 standing for 54.819: both stages of TK_GET_TEMP in range (25.0, 0.0), the first out of range (1370.0), the
second (0.0, 54.819). -/
theorem test_witness_get_temp_exact :
    let s := exactly [(1, .rat 54.819)]
    ([0x4039000000000000, 0x4095680000000000, 0, 1].all fun x : BitVec 64 => (F64.ofBits x).isFinite) = true ∧
    (t2mv Num.exact (s.operand 0x4039000000000000) = some 1.0005 ∧ mv2t Num.exact (1.0005 + s.operand 0) = some 25) ∧
    t2mv Num.exact (s.operand 0x4095680000000000) = none ∧
    (t2mv Num.exact (s.operand 0) = some 0 ∧ mv2t Num.exact (0 + s.operand 1) = none) := by
  intro s
  have r25 : s.realOf 0x4039000000000000 = .rat 25 := by decide +kernel
  have r1370 : s.realOf 0x4095680000000000 = .rat 1370 := by decide +kernel
  have r0 : s.realOf 0 = .rat 0 := by decide +kernel
  have r1 : s.realOf 1 = .rat 54.819 := by decide +kernel
  have a := t2mv_exactData (.rat 25) rfl
  have b := mv2t_exactData (.rat 1.0005) rfl
  have c := t2mv_exactData (.rat 1370) rfl
  have d := t2mv_exactData (.rat 0) rfl
  have e := mv2t_exactData (.rat 54.819) rfl
  rw [show t2mv Num.exactData (.rat 25) = some (.rat 1.0005) by decide +kernel] at a
  rw [show mv2t Num.exactData (.rat 1.0005) = some (.rat 25) by decide +kernel] at b
  rw [show t2mv Num.exactData (.rat 1370) = none by decide +kernel] at c
  rw [show t2mv Num.exactData (.rat 0) = some (.rat 0) by decide +kernel] at d
  rw [show mv2t Num.exactData (.rat 54.819) = none by decide +kernel] at e
  unfold State.operand
  simp only [r25, r1370, r0, r1, ← a, ← c, ← d]
  refine ⟨by decide +kernel, ⟨?_, ?_⟩, rfl, ?_, ?_⟩
  · rw [Option.map_some, Exact.toReal_rat]; norm_num
  · rw [Exact.toReal_rat] at b ⊢
    rw [show (1.0005 + ((0 : ℚ) : ℝ)) = ((1.0005 : ℚ) : ℝ) by norm_num, ← b]; simp
  · simp
  · rw [Exact.toReal_rat] at e ⊢
    rw [zero_add, ← e]; rfl

/-- Both stages of TK_GET_TEMP in range (25.0, 1.0), the first out of range (1370.0), the second (0.0, 54.819). -/
theorem test_witness_get_temp :
    ((t2mv Num.binary64 (F64.ofRat 25 1)).bind fun m => mv2t Num.binary64 (F64.add m (F64.ofRat 1 1))).isSome = true ∧
    t2mv Num.binary64 (F64.ofRat 1370 1) = none ∧
    ((t2mv Num.binary64 (F64.ofRat 0 1)).map fun m => mv2t Num.binary64 (F64.add m (F64.ofRat 54819 1000))) = some none := by
  decide +kernel

theorem test_witness_inv_ready : ((fresh []).issue (bin "00101 011")).Inv ∧
    ∃ t, step ((fresh []).issue (bin "00101 011")) = .next t :=
  ⟨⟨by decide, by decide, rfl, fun _ => rfl, by decide, by decide⟩, _, rfl⟩

theorem test_witness_inv_polling : (waiting [true]).Inv ∧ ∃ t, step (waiting [true]) = .next t :=
  ⟨⟨by decide, by decide, rfl, fun _ => rfl, rfl, rfl, rfl, rfl⟩, _, rfl⟩

theorem test_witness_reachable : Reachable State.reset ∧ Reachable (State.reset.issue (bin "00101 011")) ∧
    Reachable { State.resetWith .asserted .atFault .exact with reals := [(1, .free 0)] } :=
  ⟨.reset .deasserted .afterAll .binary64, .issue _ (.reset .deasserted .afterAll .binary64), .denote _ (.reset _ _ _)⟩

end Sys2Proof.Tests
end

section
/-! PROOFS. Requests (30_encoding.md R90 to R94): the decoder reads back what the encoder writes, and an unassigned OP is
answered with IllegalOperation alone. -/

namespace Sys2Proof

/-! ### The checks of R92 bound the lengths a field can hold -/

theorem length_le_of_seqOk {b : BitSeq} (h : Machine.seqOk b = true) : b.length ≤ 32 := (of_decide_eq_true h).2

theorem length_le_of_seq16Ok {b : BitSeq} (h : Machine.seq16Ok b = true) : b.length ≤ 32 :=
  (of_decide_eq_true h).trans_le (by decide)

theorem length_lt_of_listOk {cs : List AdcConfig} (h : Machine.listOk cs = true) : cs.length < 32 :=
  (of_decide_eq_true h).trans_lt (by decide)

/-! ### Round trip -/

theorem Instr.opcode_lt (i : Instr) : i.opcode < 2 ^ 5 := by cases i <;> simp [Instr.opcode]

/-- The fields of an operation's row, in the order of R91, are those its reader reads: one row a case. -/
theorem operandReader_operandFields (i : Instr) (fill rest : BitSeq) (hf : fill.length = 32) (h : i.wellFormed = true) :
    ∃ reader, operandReader i.opcode = some reader ∧ reader (i.operandFields fill ++ rest) = some (i, rest) := by
  have seq (b rest : BitSeq) (hb : b.length ≤ 32) := readSeq_seqField fill b rest hf hb
  cases i with
  | intToBits v w => exact ⟨_, rfl, by simp [Instr.operandFields, readWord64_wordField, readNat_wordField]⟩
  | bitsToInt b => exact ⟨_, rfl, by simp [Instr.operandFields, seq b rest (length_le_of_seqOk h)]⟩
  | cfgEncode c => exact ⟨_, rfl, by simp [Instr.operandFields, readCfg_cfgField]⟩
  | cfgDecode b | chExchange b => exact ⟨_, rfl, by simp [Instr.operandFields, seq b rest (length_le_of_seq16Ok h)]⟩
  | lsbSize x | convInterval x | chAwait x => exact ⟨_, rfl, by simp [Instr.operandFields, readCode_wordField]⟩
  | tcDecode b x =>
    have hb : Machine.seqOk b = true := Bool.and_elim_left h
    exact ⟨_, rfl, by simp [Instr.operandFields, seq b _ (length_le_of_seqOk hb), readWord64_wordField]⟩
  | interpret c b | chVerify c b =>
    exact ⟨_, rfl, by simp [Instr.operandFields, readCfg_cfgField, seq b rest (length_le_of_seq16Ok h)]⟩
  | chInit m p => exact ⟨_, rfl, by simp [Instr.operandFields, readMode_modeField, readNat_wordField]⟩
  | chReadBatch cs => exact ⟨_, rfl, by simp [Instr.operandFields, readList_listField cs rest (length_lt_of_listOk h)]⟩
  | tkT2mv x | tkMv2t x | cjMv x | cjLinearize x y | tkGetTemp x y =>
    exact ⟨_, rfl, by simp [Instr.operandFields, readWord64_wordField]⟩

theorem decode_encodeWith (i : Instr) (fill rest : BitSeq) (hf : fill.length = 32) (h : i.wellFormed = true) :
    decode (encodeWith fill i ++ rest) = .ok (i, rest) := by
  obtain ⟨reader, hop, hread⟩ := operandReader_operandFields i fill rest hf h
  have hnat : readNat 5 (encodeWith fill i ++ rest) = some (i.opcode, i.operandFields fill ++ rest) := by
    rw [encodeWith, List.append_assoc, readNat_toBits, Nat.mod_eq_of_lt i.opcode_lt]
  simp only [decode, hnat, hop, hread]

/-- Settles O1: OP selects the reader of its row, and that reader reads back the row's fields. -/
theorem decodeEncodeRoundTrip : Obligations.DecodeEncodeRoundTrip := decode_encodeWith

/-! ### The unassigned codes of R94 -/

theorem operandReader_unassigned {op : Nat} (h : op = 0 ∨ 0x13 ≤ op) : operandReader op = none := by
  obtain rfl | h := h
  · rfl
  · obtain ⟨n, rfl⟩ := Nat.exists_eq_add_of_le' h
    rfl

theorem decode_unassigned {bits : BitSeq} (hlen : 5 ≤ bits.length)
    (hop : uint (bits.take 5) = 0 ∨ 0x13 ≤ uint (bits.take 5)) : decode bits = .error .illegalOperation := by
  have hnat : readNat 5 bits = some (uint (bits.take 5), bits.drop 5) := if_neg (Nat.not_lt.mpr hlen)
  simp only [decode, hnat, operandReader_unassigned hop]

/-- A step between operations serves the outstanding request (10_state.md R34). -/
theorem Machine.step_of_request {s : State} {bits : BitSeq} (hs : s.seq = .ready) (hq : s.hostReq = some bits) :
    step s = s.serve bits := by
  simp only [step, State.advance, hs, hq]

/-- Settles O3: the decoder finds no row for the code, so the step is the IllegalOperation response, which changes no
register. -/
theorem unassignedOpcodeRespondsIllegalOperation : Obligations.UnassignedOpcodeRespondsIllegalOperation := by
  intro s bits hs hq hlen hop
  have hstep : Machine.step s = .next (s.respond (.fault .illegalOperation)) := by
    simp only [Machine.step_of_request hs hq, Machine.State.serve, decode_unassigned hlen hop, Machine.State.raise_eq]
  exact ⟨_, hstep, s.onlyResponds_respond _⟩

/-! ### Request words of the spec -/

/-- A request that is the record of a well-formed operation decodes to it, with no bits left. -/
theorem decode_eq_of_encode {bits : BitSeq} {i : Instr} (he : bits = encode i) (h : i.wellFormed = true) :
    decode bits = .ok (i, []) := by
  have hrt := decode_encodeWith i (List.replicate 32 false) [] rfl h
  rwa [List.append_nil, ← encode, ← he] at hrt

/-- Settles O2: each request of the spec is the record `encode` writes of its operation; the opcode-table word, which is no
record but is numbered from its low bits, is evaluated. -/
theorem specRequestsDecode : Obligations.SpecRequestsDecode := by
  refine ⟨?tableWord, ?initTimed, ?initPolled, ?await, ?cfgEncode, ?exchange, ?batch, ?t2mv, ?tcDecode⟩
  case tableWord => decide
  all_goals exact decode_eq_of_encode (by decide) (by decide)

end Sys2Proof
end

section
/-! PROOFS. BitCodec (40_bitcodec.md R120, R121): what INT_TO_BITS and BITS_TO_INT respond, and what their operand checks
refuse. -/

namespace Sys2Proof

/-! ### The second check of 60_exceptions.md R249 -/

/-- An operation whose operands are admitted and whose meaning is one success response does nothing else. -/
theorem Machine.checked_succeed_onlyResponds {ok : Bool} (h : ok = true) (p : Payload) (s : State) :
    ∃ t, checked ok (State.succeed p) s = .next t ∧ s.OnlyResponds t (.ok p) :=
  ⟨s.respond (.ok p), by rw [checked, if_pos h, State.succeed_eq], s.onlyResponds_respond _⟩

/-- An operation whose operands are refused responds MalformedInput alone, whatever its meaning (60_exceptions.md R242). -/
theorem Machine.checked_malformed_onlyResponds {ok : Bool} (h : ok = false) (run : State → State) (s : State) :
    ∃ t, checked ok run s = .next t ∧ s.OnlyResponds t (.fault .malformedInput) :=
  ⟨s.respond (.fault .malformedInput), by rw [checked, h, if_neg Bool.false_ne_true, State.raise_eq],
    s.onlyResponds_respond _⟩

/-! ### The two operations -/

theorem Machine.exec_intToBits (v : BitVec 64) (w : BitVec 6) (s : State) :
    exec (.intToBits v w) s = checked (widOk w) (State.succeed (.seq (intToBits v.toNat w.toNat))) s := rfl

theorem Machine.exec_bitsToInt (b : BitSeq) (s : State) :
    exec (.bitsToInt b) s = checked (seqOk b) (State.succeed (.u (BitVec.ofNat 64 (bitsToInt b)))) s := rfl

@[simp] theorem Machine.length_intToBits (v w : Nat) : (intToBits v w).length = w := length_toBits w _

theorem Machine.getElem?_intToBits {v w j : Nat} (h : j < w) :
    (intToBits v w)[j]? = some ((v % 2 ^ w).testBit (w - 1 - j)) := getElem?_toBits w _ j h

/-- BITS_TO_INT's loop starts from 0, so it computes `uint` (40_bitcodec.md R121). -/
theorem Machine.bitsToInt_eq_uint (b : BitSeq) : bitsToInt b = uint b := by
  rw [bitsToInt, bitsToInt_foldl, Nat.zero_mul, Nat.zero_add]

/-- The value of at most 64 bits fits the 64-bit result field. -/
theorem Machine.toNat_ofNat_bitsToInt {b : BitSeq} (h : b.length ≤ 64) :
    (BitVec.ofNat 64 (bitsToInt b)).toNat = uint b := by
  have hlt : uint b < 2 ^ 64 := (uint_lt b).trans_le (Nat.pow_le_pow_right (by decide) h)
  rw [bitsToInt_eq_uint, BitVec.toNat_ofNat, Nat.mod_eq_of_lt hlt]

/-- Settles O14: the width check decides between MalformedInput and the one success response, whose elements are those of
`seq_w` of the reduced value. -/
theorem intToBitsGivesBinaryForm : Obligations.IntToBitsGivesBinaryForm := by
  intro v w s
  rw [Machine.exec_intToBits]
  constructor
  · intro hpos hle
    have hok : Machine.widOk w = true := (Machine.widOk_eq_true w).mpr ⟨hpos, hle⟩
    obtain ⟨t, hexec, hresp⟩ := Machine.checked_succeed_onlyResponds hok (.seq (Machine.intToBits v.toNat w.toNat)) s
    exact ⟨_, t, hexec, hresp, Machine.length_intToBits _ _, fun j hj => Machine.getElem?_intToBits hj⟩
  · intro hbad
    exact Machine.checked_malformed_onlyResponds ((Machine.widOk_eq_false w).mpr hbad) _ s

/-- Settles O15: the length check decides between MalformedInput and the one success response, whose value is `uint` because
32 bits fit the result. -/
theorem bitsToIntGivesUnsignedValue : Obligations.BitsToIntGivesUnsignedValue := by
  intro b s
  rw [Machine.exec_bitsToInt]
  constructor
  · intro hpos hle
    have hok : Machine.seqOk b = true := (Machine.seqOk_eq_true b).mpr ⟨hpos, hle⟩
    have hval := Machine.toNat_ofNat_bitsToInt (hle.trans (by decide : 32 ≤ 64))
    obtain ⟨t, hexec, hresp⟩ := Machine.checked_succeed_onlyResponds hok (.u (BitVec.ofNat 64 (Machine.bitsToInt b))) s
    exact ⟨_, t, hexec, hresp, hval, hval.trans_le (Nat.le_pred_of_lt (uint_lt b))⟩
  · intro hbad
    exact Machine.checked_malformed_onlyResponds ((Machine.seqOk_eq_false b).mpr hbad) _ s

end Sys2Proof
end

section
/-! PROOFS. ConfigWord (41_configword.md R131, R132): where CFG_ENCODE puts each field of the configuration word, and what
CFG_DECODE extracts from it. -/

namespace Sys2Proof

/-! ### The layout of 30_encoding.md R95 -/

@[simp] theorem Machine.length_configBits (c : AdcConfig) : (configBits c).length = 16 := rfl

/-- The code that stands at elements `13 - lo` to `15 - lo` of a 16-element sequence is bits `lo+2:lo` of its word. -/
theorem extractLsb'_word16_of_codeBits {l : BitSeq} {lo : Nat} {m : BitVec 3} (hl : l.length = 16) (hlo : lo ≤ 13)
    (hcode : (l.drop (13 - lo)).take 3 = codeBits m) : (word16 l).extractLsb' lo 3 = m := by
  apply BitVec.eq_of_getLsbD_eq
  intro i hi
  have hpos : 13 - lo + (2 - i) = 15 - (lo + i) := by omega
  have hbit : l[15 - (lo + i)]? = some (m.getLsbD i) := by
    calc l[15 - (lo + i)]? = ((l.drop (13 - lo)).take 3)[2 - i]? := by
          rw [List.getElem?_take_of_lt (by omega), List.getElem?_drop, hpos]
      _ = some (m.toNat.testBit (3 - 1 - (2 - i))) := by rw [hcode, codeBits, getElem?_toBits 3 _ _ (by omega)]
      _ = some (m.getLsbD i) := by rw [show 3 - 1 - (2 - i) = i by omega]; rfl
  rw [BitVec.getLsbD_extractLsb', decide_eq_true hi, Bool.true_and, getLsbD_word16 l _ (by omega) hl,
    List.getD_eq_getElem?_getD, hbit, Option.getD_some]

/-! ### The two operations -/

theorem Machine.exec_cfgEncode (c : AdcConfig) (s : State) :
    exec (.cfgEncode c) s = checked true (State.succeed (.seq (configBits c))) s := rfl

theorem Machine.exec_cfgDecode (b : BitSeq) (s : State) :
    exec (.cfgDecode b) s = checked (seq16Ok b) (State.succeed (.cfg (decodeConfig (word16 b)))) s := rfl

/-- CFG_DECODE's fields as slices of the word (41_configword.md R132). -/
theorem Machine.decodeConfig_eq (w : Word16) : decodeConfig w =
    { singleShot := w.getLsbD 15, multiplex := w.extractLsb' 12 3, gain := w.extractLsb' 9 3,
      singleShotMode := w.getLsbD 8, dataRate := w.extractLsb' 5 3, tempSensor := w.getLsbD 4,
      pullup := w.getLsbD 3, operation := w.getLsbD 1 } := by
  simp only [← field3_eq]; rfl

/-- Settles O17: every AdcConfig is admitted; each code of the word is the three elements, and each flag the one element,
that R95 puts there. -/
theorem cfgEncodeLaysOutFields : Obligations.CfgEncodeLaysOutFields := by
  intro c s
  rw [Machine.exec_cfgEncode]
  obtain ⟨t, hexec, hresp⟩ := Machine.checked_succeed_onlyResponds rfl (.seq (Machine.configBits c)) s
  have hlen := Machine.length_configBits c
  refine ⟨_, t, hexec, hresp, hlen, ?singleShot, ?multiplex, ?gain, ?singleShotMode, ?dataRate, ?tempSensor, ?pullup,
    ?reserved2, ?operation, ?reserved0⟩
  case multiplex | gain | dataRate => exact extractLsb'_word16_of_codeBits hlen (by decide) rfl
  all_goals exact getLsbD_word16 _ _ (by decide) hlen

/-- Settles O18: the length check decides between MalformedInput and the one success response, whose fields are the slices
of the word. -/
theorem cfgDecodeExtractsFields : Obligations.CfgDecodeExtractsFields := by
  intro b s
  rw [Machine.exec_cfgDecode, Machine.decodeConfig_eq]
  constructor
  · intro hlen
    exact Machine.checked_succeed_onlyResponds ((Machine.seq16Ok_eq_true b).mpr hlen) _ s
  · intro hlen
    exact Machine.checked_malformed_onlyResponds ((Machine.seq16Ok_eq_false b).mpr hlen) _ s

end Sys2Proof
end

section
/-! PROOFS. The exchange (43_adc_channel.md R165, R166) and CH_VERIFY (R168): what EXCHANGE_SEQ sends, reads and leaves, and
what the two operations on an echo respond. -/

namespace Sys2Proof

/-! ### EXCHANGE_SEQ (R165) -/

theorem Machine.all_isBus_csEvents (hasCs b : Bool) : (csEvents hasCs b).all Event.isBus = true := by
  cases hasCs <;> rfl

theorem Machine.all_isBus_slotEvents (c : Word16) (k : Nat) (b : Bool) :
    (slotEvents c k b).all Event.isBus = true := rfl

theorem Machine.all_isBus_exchangeEvents (hasCs : Bool) (c : Word16) (draw : Nat → Bool) :
    (exchangeEvents hasCs c draw).all Event.isBus = true := by
  simp [exchangeEvents, List.all_append, List.all_flatMap, all_isBus_csEvents, all_isBus_slotEvents]

/-- The registers and latches R165 writes: RX_k is the level of slot k, and the last bit driven is bit 0. -/
theorem Machine.State.afterExchange_exchange (s : State) (c : Word16) : s.AfterExchange (s.exchange c) c 0 := by
  refine ⟨s.exchange_tx c, s.exchange_slot c, s.exchange_sclk c, s.exchange_dout c, s.exchange_csN c, ?_⟩
  intro k hk
  rw [Nat.zero_add, s.exchange_rx c hk]

theorem Machine.State.sampled_exchange (s : State) (c : Word16) : s.Sampled (s.exchange c) 32 :=
  ⟨s.exchange_din c, s.exchange_drawn c⟩

theorem Machine.State.sameBuffers_exchange (s : State) (c : Word16) : s.sameBuffers (s.exchange c) :=
  ⟨s.exchange_bcmd c, s.exchange_braw c, s.exchange_bres c, s.exchange_bn c⟩

theorem Machine.State.sameParams_exchange (s : State) (c : Word16) : s.sameParams (s.exchange c) :=
  ⟨s.exchange_hasCs c, s.exchange_pollCs c, s.exchange_batchAbort c, s.exchange_num c, s.exchange_reals c⟩

/-- Settles O28: the laws of the exchange give its events, the word it reads and each field after it. -/
theorem exchangeSequence : Obligations.ExchangeSequence := by
  intro s c
  refine ⟨?events, ?count, ?bus, ?raw, ?registers, ?samples, ?chan, ?waitMode, ?pull, ?buffers, ?params, ?hostReq,
    ?hostResp, ?seq⟩
  case events => exact s.exchange_trace c
  case count => exact Machine.length_exchangeEvents c _ _
  case bus => exact Machine.all_isBus_exchangeEvents _ c _
  case raw => exact s.exchange_rawExchange c
  case registers => exact s.afterExchange_exchange c
  case samples => exact s.sampled_exchange c
  case chan => exact s.exchange_chan c
  case waitMode => exact s.exchange_waitMode c
  case pull => exact s.exchange_pull c
  case buffers => exact s.sameBuffers_exchange c
  case params => exact s.sameParams_exchange c
  case hostReq => exact s.exchange_hostReq c
  case hostResp => exact s.exchange_hostResp c
  case seq => exact s.exchange_seq c

/-! ### The third check of 60_exceptions.md R249 -/

theorem Machine.checked_eq_next {ok : Bool} (h : ok = true) (run : State → State) (s : State) :
    checked ok run s = .next (run s) := by
  rw [checked, if_pos h]

theorem Machine.State.whenIdle_of_idle {s : State} (h : s.chan = .idle) (run : State → State) :
    s.whenIdle run = run s := if_pos h

/-- An operation of the channel outside IDLE responds NotInitialized alone, whatever its meaning (60_exceptions.md R244). -/
theorem Machine.checked_whenIdle_onlyResponds {ok : Bool} {s : State} (hok : ok = true) (h : s.chan ≠ .idle)
    (run : State → State) :
    ∃ t, checked ok (State.whenIdle run) s = .next t ∧ s.OnlyResponds t (.fault .notInitialized) := by
  have hrun : s.whenIdle run = s.respond (.fault .notInitialized) := if_neg h
  exact ⟨_, checked_eq_next hok _ s, hrun ▸ s.onlyResponds_respond _⟩

/-! ### CH_EXCHANGE (R166) -/

theorem Machine.exec_chExchange (b : BitSeq) (s : State) :
    exec (.chExchange b) s = checked (seq16Ok b) (State.whenIdle (State.exchangeOnce (word16 b))) s := rfl

/-- An exchange neither reads nor writes CHAN_STATE, so the EXCH set before it leaves no mark: CH_EXCHANGE is one exchange,
then IDLE, with the 32 samples as its answer. -/
theorem Machine.State.exchangeOnce_eq (s : State) (c : Word16) :
    s.exchangeOnce c = ((s.exchange c).setChan .idle).respond (.ok (.raw (s.sampledRaw 0))) := by
  have hraw : ((s.setChan .exch).exchange c).rawExchange = s.sampledRaw 0 := exchange_rawExchange _ c
  have hchan : ((s.setChan .exch).exchange c).setChan .idle = (s.exchange c).setChan .idle := by
    rw [exchange_eq, exchange_eq]; rfl
  simp only [exchangeOnce, finishIdle_eq, hraw, hchan]

/-- Settles O30: the two checks decide between the faults and the exchange; the laws of the exchange carry over, as the
response and the write of CHAN_STATE after it touch none of the fields they are about. -/
theorem chExchangeReturnsRaw : Obligations.ChExchangeReturnsRaw := by
  intro b s
  rw [Machine.exec_chExchange]
  refine ⟨?idle, ?malformed, ?notIdle⟩
  case idle =>
    intro hlen hidle
    refine ⟨_, Machine.checked_eq_next ((Machine.seq16Ok_eq_true b).mpr hlen) _ s, ?_⟩
    rw [Machine.State.whenIdle_of_idle hidle, Machine.State.exchangeOnce_eq]
    refine ⟨⟨rfl, rfl, rfl, ?trace⟩, rfl, s.afterExchange_exchange _, s.sampled_exchange _, s.exchange_waitMode _,
      s.exchange_pull _, s.sameBuffers_exchange _, s.sameParams_exchange _⟩
    case trace =>
      rw [Machine.State.respond_trace, Machine.State.setChan_trace, Machine.State.exchange_trace]; rfl
  case malformed =>
    intro hlen
    exact Machine.checked_malformed_onlyResponds ((Machine.seq16Ok_eq_false b).mpr hlen) _ s
  case notIdle =>
    intro hlen hchan
    exact Machine.checked_whenIdle_onlyResponds ((Machine.seq16Ok_eq_true b).mpr hlen) hchan _

/-! ### CH_VERIFY (R168) -/

theorem Machine.exec_chVerify (cmd : AdcConfig) (e : BitSeq) (s : State) :
    exec (.chVerify cmd e) s = checked (seq16Ok e) (State.verifyEcho cmd (word16 e)) s := rfl

theorem Machine.State.verifyEcho_of_verify {cmd : AdcConfig} {e : Word16} (h : verify cmd e = true) (s : State) :
    s.verifyEcho cmd e = s.respond (.ok .nothing) := if_pos h

theorem Machine.State.verifyEcho_of_mismatch {cmd : AdcConfig} {e : Word16} (h : verify cmd e = false) (s : State) :
    s.verifyEcho cmd e = s.respond (.fault (.connectionFault (popcount16 e))) := if_neg (Bool.eq_false_iff.mp h)

/-- The population count of an echo's word is that of the 16 bits it was read from. -/
theorem Machine.popcount16_word16 {e : BitSeq} (h : e.length = 16) : popcount16 (word16 e) = popcount e := by
  rw [popcount16, seq16_word16 e h]

/-- Settles O32: the length check, then the comparison, decide which one response is all that CH_VERIFY does. -/
theorem chVerifyChecksEcho : Obligations.ChVerifyChecksEcho := by
  intro cmd e s
  rw [Machine.exec_chVerify]
  refine ⟨?verified, ?mismatch, ?malformed⟩
  case verified =>
    intro hlen hv
    rw [Machine.checked_eq_next ((Machine.seq16Ok_eq_true e).mpr hlen), Machine.State.verifyEcho_of_verify hv]
    exact ⟨_, rfl, s.onlyResponds_respond _⟩
  case mismatch =>
    intro hlen hv
    rw [Machine.checked_eq_next ((Machine.seq16Ok_eq_true e).mpr hlen), Machine.State.verifyEcho_of_mismatch hv,
      Machine.popcount16_word16 hlen]
    exact ⟨_, rfl, s.onlyResponds_respond _⟩
  case malformed =>
    intro hlen
    exact Machine.checked_malformed_onlyResponds ((Machine.seq16Ok_eq_false e).mpr hlen) _ s

end Sys2Proof
end

section
/-! PROOFS. BRACKET (44_typek_table.md R202): the search answers an index whose half-open interval holds the value, and in a
strictly increasing table no other interval does. -/

namespace Sys2Proof

/-! ### In any table whose comparisons with the value are those of keys in a linear order -/

section
variable {β : Type} [LinearOrder β] {K : Nat → β} {k : β}

/-- In a strictly increasing table, an entry at most `k` is no later than an entry whose successor is above `k`. -/
theorem le_of_increasing (hK : ∀ i < 164, K i < K (i + 1)) {i j : Nat} (hj : j ≤ 163) (hiHi : k < K (i + 1))
    (hjLo : K j ≤ k) : j ≤ i := by
  have hmono : StrictMonoOn K (Set.Iic 164) := strictMonoOn_Iic_of_lt_succ hK
  by_contra hij
  have hends : K (i + 1) ≤ K j := hmono.monotoneOn (Set.mem_Iic.mpr (by omega)) (Set.mem_Iic.mpr (by omega)) (by omega)
  exact (hiHi.trans_le (hends.trans hjLo)).false

variable {α : Type} {N : Num α} {A : Nat → α} {x : α}

/-- The lower end is the last entry the search passed, or the first of the table; the upper end is where it stopped, or the
last of the table. -/
theorem Machine.bracket_holds_value (hle : ∀ i ≤ 164, N.le (A i) x = true ↔ K i ≤ k) (hfirst : K 0 ≤ k)
    (hlast : k < K 164) :
    bracket N A x ≤ 163 ∧ K (bracket N A x) ≤ k ∧ k < K (bracket N A x + 1) := by
  obtain ⟨hb, hpassed, hstopped⟩ := Machine.bracket_spec N A x
  generalize bracket N A x = b at *
  refine ⟨hb, ?lower, ?upper⟩
  case lower =>
    cases b with
    | zero => exact hfirst
    | succ j => exact (hle (j + 1) (by omega)).mp (hpassed j j.lt_succ_self)
  case upper =>
    obtain rfl | hlt := hb.eq_or_lt
    · exact hlast
    · exact not_le.mp fun h => Bool.eq_false_iff.mp (hstopped hlt) ((hle (b + 1) (by omega)).mpr h)

theorem Machine.bracket_unique (hle : ∀ i ≤ 164, N.le (A i) x = true ↔ K i ≤ k) (hK : ∀ i < 164, K i < K (i + 1))
    (hfirst : K 0 ≤ k) (hlast : k < K 164) {i : Nat} (hi : i ≤ 163) (hLo : K i ≤ k) (hHi : k < K (i + 1)) :
    i = bracket N A x := by
  obtain ⟨hb, hbLo, hbHi⟩ := Machine.bracket_holds_value hle hfirst hlast
  exact le_antisymm (le_of_increasing hK hi hbHi hLo) (le_of_increasing hK hb hHi hbLo)

end

/-! ### Binary64 values other than NaN are ordered by their keys -/

theorem F64.lt_iff_key {x y : F64} (hx : x.isNan = false) (hy : y.isNan = false) :
    F64.lt x y = true ↔ x.key < y.key := by simp only [F64.lt_iff, hx, hy, true_and]

theorem F64.le_iff_key {x y : F64} (hx : x.isNan = false) (hy : y.isNan = false) :
    F64.le x y = true ↔ x.key ≤ y.key := by simp only [F64.le_iff, hx, hy, true_and]

/-- An increasing table of binary64 values has no NaN. -/
theorem F64.isNan_of_increasing {A : Nat → F64} (hA : ∀ i < 164, F64.lt (A i) (A (i + 1)) = true) {i : Nat}
    (hi : i ≤ 164) : (A i).isNan = false := by
  cases i with
  | zero => exact ((F64.lt_iff _ _).mp (hA 0 (by omega))).1
  | succ j => exact ((F64.lt_iff _ _).mp (hA j (by omega))).2.1

/-- Settles O47: the reals are their own keys, and the entries and the value of the binary64 clause are no NaN, so
that their order is that of their keys. -/
theorem bracketIsUnique : Obligations.BracketIsUnique := by
  refine ⟨?real, ?binary64⟩
  case real =>
    intro A x hA hfirst hlast
    have hle : ∀ i ≤ 164, Num.exact.le (A i) x = true ↔ A i ≤ x := fun i _ => Num.exact_le (A i) x
    exact ⟨Machine.bracket_holds_value hle hfirst hlast, fun i => Machine.bracket_unique hle hA hfirst hlast⟩
  case binary64 =>
    intro A x hA hfirst hlast
    have hx : x.isNan = false := ((F64.lt_iff _ _).mp hlast).1
    have hnan : ∀ i ≤ 164, (A i).isNan = false := fun i => F64.isNan_of_increasing hA
    have hle : ∀ i ≤ 164, F64.le (A i) x = true ↔ (A i).key ≤ x.key := fun i hi => F64.le_iff_key (hnan i hi) hx
    have hgt : ∀ i ≤ 164, F64.lt x (A i) = true ↔ x.key < (A i).key := fun i hi => F64.lt_iff_key hx (hnan i hi)
    have hK : ∀ i < 164, (A i).key < (A (i + 1)).key := fun i hi => ((F64.lt_iff _ _).mp (hA i hi)).2.2
    rw [hle 0 (by omega)] at hfirst
    rw [hgt 164 le_rfl] at hlast
    obtain ⟨hb, hLo, hHi⟩ := Machine.bracket_holds_value (N := Num.binary64) hle hfirst hlast
    refine ⟨⟨hb, (hle _ (by omega)).mpr hLo, (hgt _ (by omega)).mpr hHi⟩, fun i hi hiLo hiHi => ?_⟩
    exact Machine.bracket_unique hle hK hfirst hlast hi ((hle i (by omega)).mp hiLo) ((hgt (i + 1) (by omega)).mp hiHi)

end Sys2Proof
end

section
/-! PROOFS. POLY (45_cold_junction.md R220): in either datapath it is the fold of one step over the coefficients, and over
the reals that fold is the power sum. -/

namespace Sys2Proof

/-- One step of POLY's loop, on the accumulator and the power: `acc + c * p`, then `p * x` (45_cold_junction.md R220). -/
def Machine.polyStep {α : Type} (N : Num α) (x : α) (a : α × α) (c : Dec) : α × α :=
  (N.add a.1 (N.mul (N.dec c) a.2), N.mul a.2 x)

/-- `polyFrom` is a left fold of that step. -/
theorem Machine.polyFrom_eq_foldl {α : Type} (N : Num α) (x : α) (cs : List Dec) (acc p : α) :
    polyFrom N x cs acc p = (cs.foldl (polyStep N x) (acc, p)).1 := by
  induction cs generalizing acc p with
  | nil => rfl
  | cons c cs ih => rw [polyFrom, ih, List.foldl_cons, polyStep]

/-- Over the reals the loop adds to the accumulator the power sum of what is left, scaled by the power reached. -/
theorem Machine.polyFrom_exact (x : ℝ) (cs : List Dec) (acc p : ℝ) :
    polyFrom Num.exact x cs acc p =
      acc + p * ∑ i ∈ Finset.range cs.length, Num.exact.dec (cs.getD i ⟨0, 0⟩) * x ^ i := by
  induction cs generalizing acc p with
  | nil => simp [polyFrom]
  | cons c cs ih =>
    have hsplit : ∑ i ∈ Finset.range (c :: cs).length, Num.exact.dec ((c :: cs).getD i ⟨0, 0⟩) * x ^ i =
        x * ∑ i ∈ Finset.range cs.length, Num.exact.dec (cs.getD i ⟨0, 0⟩) * x ^ i + Num.exact.dec c := by
      rw [List.length_cons, Finset.sum_range_succ', Finset.mul_sum, List.getD_cons_zero, pow_zero, mul_one]
      simp only [List.getD_cons_succ, pow_succ', mul_left_comm]
    rw [polyFrom, ih, hsplit, Num.exact_add, Num.exact_mul, Num.exact_mul]
    ring

theorem Machine.poly_exact (cs : List Dec) (x : ℝ) :
    poly Num.exact cs x = ∑ i ∈ Finset.range cs.length, Num.exact.dec (cs.getD i ⟨0, 0⟩) * x ^ i := by
  rw [poly, polyFrom_exact]; simp

/-- Settles O52: the fold of POLY's step is the order of evaluation, and its start at 0 and 1 leaves the power sum. -/
theorem polyIsPowerSum : Obligations.PolyIsPowerSum := by
  refine ⟨?binary64, ?exact⟩
  case binary64 =>
    intro cs x
    rw [Machine.poly, Machine.polyFrom_eq_foldl]
    unfold Machine.polyStep
    simp only [Num.binary64_add, Num.binary64_mul, Num.binary64_dec, Num.binary64_int]
  case exact =>
    intro cs x
    simp only [Machine.poly_exact, Num.exact_dec]

end Sys2Proof
end

section
/-! PROOFS. SELECT (45_cold_junction.md R224): its three answers, by its two comparisons, in either datapath. -/

namespace Sys2Proof

/-! ### The three cases, in any datapath -/

section
variable {α : Type} {N : Num α} {e : α}

theorem Machine.selectRange_eq_zero (h : N.lt e (N.int 0) = true) : selectRange N e = 0 := by
  rw [selectRange, if_pos h]

theorem Machine.selectRange_eq_one (h0 : N.lt e (N.int 0) = false) (h1 : N.lt e (N.dec invLimit1) = true) :
    selectRange N e = 1 := by rw [selectRange, h0, if_neg Bool.false_ne_true, if_pos h1]

theorem Machine.selectRange_eq_two (h0 : N.lt e (N.int 0) = false) (h1 : N.lt e (N.dec invLimit1) = false) :
    selectRange N e = 2 := by rw [selectRange, h0, if_neg Bool.false_ne_true, h1, if_neg Bool.false_ne_true]

end

/-! ### The two limits and their order -/

theorem Machine.invLimit1_binary64 : Num.binary64.dec invLimit1 = F64.ofRat 20644 1000 := Num.binary64_dec _

theorem Machine.invLimit1_exact : Num.exact.dec invLimit1 = 20.644 := by rw [Num.exact_dec]; norm_num [invLimit1]

theorem F64.le_refl {x : F64} (h : x.isNan = false) : F64.le x x = true := (F64.le_iff x x).mpr ⟨h, h, le_rfl⟩

theorem F64.le_trans {x y z : F64} (hxy : F64.le x y = true) (hyz : F64.le y z = true) : F64.le x z = true := by
  rw [F64.le_iff] at *
  obtain ⟨hx, -, hkxy⟩ := hxy
  obtain ⟨-, hz, hkyz⟩ := hyz
  exact ⟨hx, hz, hkxy.trans hkyz⟩

theorem F64.le_of_lt {x y : F64} (h : F64.lt x y = true) : F64.le x y = true := by
  obtain ⟨hx, hy, hk⟩ := (F64.lt_iff x y).mp h
  exact (F64.le_iff x y).mpr ⟨hx, hy, hk.le⟩

/-- The two limits are in order, so that a value from the upper one on is not below the lower one. -/
theorem F64.zero_lt_invLimit1 : F64.lt (F64.ofRat 0 1) (F64.ofRat 20644 1000) = true := by decide +kernel

theorem Num.exact_lt_eq_false {x y : ℝ} (h : y ≤ x) : Num.exact.lt x y = false := by
  rw [← Bool.not_eq_true, Num.exact_lt]; exact h.not_gt

/-! ### SELECT in each datapath -/

theorem Machine.selectRange_binary64_low {e : F64} (h : F64.lt e (F64.ofRat 0 1) = true) :
    selectRange Num.binary64 e = 0 := selectRange_eq_zero (by rwa [Num.binary64_int])

theorem Machine.selectRange_binary64_mid {e : F64} (h0 : F64.le (F64.ofRat 0 1) e = true)
    (h1 : F64.lt e (F64.ofRat 20644 1000) = true) : selectRange Num.binary64 e = 1 := by
  refine selectRange_eq_one ?_ (by rwa [invLimit1_binary64])
  rw [Num.binary64_int]; exact F64.lt_of_le h0

theorem Machine.selectRange_binary64_high {e : F64} (h : F64.le (F64.ofRat 20644 1000) e = true) :
    selectRange Num.binary64 e = 2 := by
  have h0 : F64.le (F64.ofRat 0 1) e = true := F64.le_trans (F64.le_of_lt F64.zero_lt_invLimit1) h
  refine selectRange_eq_two ?_ ?_
  · rw [Num.binary64_int]; exact F64.lt_of_le h0
  · rw [invLimit1_binary64]; exact F64.lt_of_le h

theorem Machine.selectRange_exact_low {e : ℝ} (h : e < 0) : selectRange Num.exact e = 0 :=
  selectRange_eq_zero (by rwa [Num.exact_lt, Num.exact_int, Int.cast_zero])

theorem Machine.selectRange_exact_mid {e : ℝ} (h0 : 0 ≤ e) (h1 : e < 20.644) : selectRange Num.exact e = 1 := by
  refine selectRange_eq_one (Num.exact_lt_eq_false ?_) (by rwa [Num.exact_lt, invLimit1_exact])
  rwa [Num.exact_int, Int.cast_zero]

theorem Machine.selectRange_exact_high {e : ℝ} (h : 20.644 ≤ e) : selectRange Num.exact e = 2 := by
  refine selectRange_eq_two (Num.exact_lt_eq_false ?_) (Num.exact_lt_eq_false (by rwa [invLimit1_exact]))
  rw [Num.exact_int, Int.cast_zero]; linarith

/-- Settles O54: in both datapaths the two limits cut the line into half-open ranges; each limit is in the range it starts. -/
theorem selectIsHalfOpen : Obligations.SelectIsHalfOpen := by
  refine ⟨?low, ?mid, ?high, ?atZero, ?atLimit, ?lowExact, ?midExact, ?highExact⟩
  case low => exact fun _ => Machine.selectRange_binary64_low
  case mid => exact fun _ => Machine.selectRange_binary64_mid
  case high => exact fun _ => Machine.selectRange_binary64_high
  case atZero => exact Machine.selectRange_binary64_mid (F64.le_refl (F64.ofRat_isNan _ _)) F64.zero_lt_invLimit1
  case atLimit => exact Machine.selectRange_binary64_high (F64.le_refl (F64.ofRat_isNan _ _))
  case lowExact => exact fun _ => Machine.selectRange_exact_low
  case midExact => exact fun _ => Machine.selectRange_exact_mid
  case highExact => exact fun _ => Machine.selectRange_exact_high

end Sys2Proof
end

section
/-! PROOFS. MalformedInput (60_exceptions.md R242): every operation is its operand check in front of a meaning, and no meaning
responds MalformedInput. -/

namespace Sys2Proof

/-! ### Meanings that never respond MalformedInput -/

/-- `t` holds a MalformedInput response only where `s` held it already: what runs from `s` to `t` responds none. -/
def Machine.NoMalformed (s t : State) : Prop :=
  t.hostResp = some (.fault .malformedInput) → s.hostResp = some (.fault .malformedInput)

/-- What comes before the response keeps the host port, so a claim on the rest is one on the whole. -/
theorem Machine.NoMalformed.of_grows {s t u : State} (h : Grows s t) (k : NoMalformed t u) : NoMalformed s u :=
  fun hu => h.hostResp ▸ k hu

theorem Machine.Grows.noMalformed {s t : State} (h : Grows s t) : NoMalformed s t := fun ht => h.hostResp ▸ ht

theorem Machine.NoMalformed.respond (r : Response) (h : r ≠ .fault .malformedInput) (s : State) :
    NoMalformed s (s.respond r) := fun hr => absurd (Option.some.inj hr) h

theorem Machine.NoMalformed.succeed (p : Payload) (s : State) : NoMalformed s (s.succeed p) :=
  .respond (.ok p) nofun s

theorem Machine.NoMalformed.raiseConnection (e : Word16) (s : State) : NoMalformed s (s.raiseConnection e) :=
  .respond (.fault (.connectionFault (popcount16 e))) nofun s

theorem Machine.NoMalformed.finishIdle (p : Payload) (s : State) : NoMalformed s (s.finishIdle p) :=
  .of_grows (.setChan s .idle) (.succeed p _)

theorem Machine.NoMalformed.answerReal (r : Option Value) (s : State) : NoMalformed s (s.answerReal r) := by
  cases r with
  | none => exact .respond (.fault .outOfRange) nofun s
  | some x => exact .succeed (.real x) s

theorem Machine.NoMalformed.whenIdle {run : State → State} (h : ∀ s, NoMalformed s (run s)) (s : State) :
    NoMalformed s (s.whenIdle run) := by
  unfold State.whenIdle
  split
  · exact h s
  · exact .respond (.fault .notInitialized) nofun s

/-- A wait responds nothing: it goes on with `next` or stops in the POLLED wait with the port as it was. -/
theorem Machine.NoMalformed.waitThen {next : State → State} (h : ∀ s, NoMalformed s (next s)) (dr : BitVec 3) (p : Polling)
    (s : State) : NoMalformed s (s.waitThen dr p next) := by
  unfold State.waitThen
  split
  · exact .of_grows (.wait s dr) (h _)
  · exact (Grows.wait s dr).noMalformed

/-! ### The channel's operations -/

theorem Machine.NoMalformed.initVerify (s : State) : NoMalformed s s.initVerify := by
  unfold State.initVerify
  split
  · exact .waitThen (.finishIdle .nothing) _ _ s
  · exact .raiseConnection _ s

theorem Machine.NoMalformed.exchangeOnce (c : Word16) (s : State) : NoMalformed s (s.exchangeOnce c) :=
  .of_grows ((Grows.setChan s .exch).trans (.exchange _ c)) (.finishIdle _ _)

theorem Machine.NoMalformed.verifyEcho (cmd : AdcConfig) (e : Word16) (s : State) : NoMalformed s (s.verifyEcho cmd e) := by
  unfold State.verifyEcho
  split
  · exact .succeed .nothing s
  · exact .raiseConnection e s

theorem Machine.NoMalformed.awaitReady (dr : BitVec 3) (s : State) : NoMalformed s (s.awaitReady dr) :=
  .of_grows (.setChan s .exch) (.waitThen (.finishIdle .nothing) dr .await _)

theorem Machine.NoMalformed.batchFault (e : Word16) (s : State) : NoMalformed s (s.batchFault e) :=
  .of_grows (.setChan s .idle) (.raiseConnection e _)

theorem Machine.NoMalformed.batchPair (n k : Nat) (s : State) : NoMalformed s (s.batchPair k n) := by
  induction n generalizing k s with
  | zero => exact .finishIdle _ s
  | succ n ih =>
    rw [State.batchPair]
    split
    · exact .of_grows (.setBres s k _) (.batchFault _ _)
    · exact .of_grows (.setBres s k _) (ih (k + 1) _)

theorem Machine.NoMalformed.batchFlush (s : State) : NoMalformed s s.batchFlush :=
  .of_grows ((Grows.exchange s probeWord).trans (.setBraw _ _ _)) (.batchPair _ _ _)

theorem Machine.NoMalformed.batchFrom (cs : List AdcConfig) (k : Nat) (s : State) : NoMalformed s (s.batchFrom k cs) := by
  induction cs generalizing k s with
  | nil => exact .batchFlush s
  | cons c rest ih =>
    rw [State.batchFrom]
    refine .of_grows (.batchSend s k c) ?_
    split
    · exact .batchFault _ _
    · exact .waitThen (ih (k + 1)) c.dataRate (.batch k rest) _

theorem Machine.NoMalformed.readBatch (cs : List AdcConfig) (s : State) : NoMalformed s (s.readBatch cs) := by
  refine .of_grows (.setBn s cs.length) ?_
  cases cs with
  | nil => exact .succeed (.measList []) _
  | cons c rest => exact .of_grows (.setChan _ .exch) (.batchFrom _ _ _)

/-! ### Every operation is its check and a meaning -/

/-- Each arm of `exec` checks what `Instr.wellFormed` says and then runs a meaning that responds no MalformedInput. -/
theorem Machine.exec_eq_checked (i : Instr) :
    ∃ run : State → State, (∀ s, NoMalformed s (run s)) ∧ ∀ s, exec i s = checked i.wellFormed run s := by
  cases i with
  | intToBits _ _ | bitsToInt _ | cfgEncode _ | cfgDecode _ | lsbSize _ | convInterval _ | tcDecode _ _ | interpret _ _
    | cjMv _ => exact ⟨_, fun s => .succeed _ s, fun _ => rfl⟩
  | tkT2mv _ | tkMv2t _ | cjLinearize _ _ | tkGetTemp _ _ => exact ⟨_, fun s => .answerReal _ s, fun _ => rfl⟩
  | chInit m p => exact ⟨_, fun s => .of_grows (.initFlush s m (pullOf p)) (.initVerify _), fun _ => rfl⟩
  | chExchange b => exact ⟨_, .whenIdle (.exchangeOnce (word16 b)), fun _ => rfl⟩
  | chVerify c e => exact ⟨_, .verifyEcho c (word16 e), fun _ => rfl⟩
  | chAwait d => exact ⟨_, .whenIdle (.awaitReady d), fun _ => rfl⟩
  | chReadBatch l => exact ⟨_, .whenIdle (.readBatch l), fun _ => rfl⟩

theorem Machine.exec_malformed_onlyResponds {i : Instr} (h : i.wellFormed = false) (s : State) :
    ∃ t, exec i s = .next t ∧ s.OnlyResponds t (.fault .malformedInput) := by
  obtain ⟨run, -, hexec⟩ := exec_eq_checked i
  rw [hexec s]
  exact checked_malformed_onlyResponds h run s

theorem Machine.noMalformed_of_exec {i : Instr} {s t : State} (h : i.wellFormed = true) (ht : exec i s = .next t) :
    NoMalformed s t := by
  obtain ⟨run, hrun, hexec⟩ := exec_eq_checked i
  rw [hexec s, checked_eq_next h] at ht
  cases ht
  exact hrun s

/-! ### The operand conditions of R242 -/

theorem Machine.realOk_eq_false (x : BitVec 64) : realOk x = false ↔ (F64.ofBits x).isFinite = false := by rw [realOk_eq]

theorem Machine.realOk_and_eq_false (x y : BitVec 64) :
    (realOk x && realOk y) = false ↔ (F64.ofBits x).isFinite = false ∨ (F64.ofBits y).isFinite = false := by
  rw [Bool.and_eq_false_iff, realOk_eq_false, realOk_eq_false]

theorem Machine.seqOk_and_realOk_eq_false (b : BitSeq) (x : BitVec 64) :
    (seqOk b && realOk x) = false ↔ b.length = 0 ∨ 32 < b.length ∨ (F64.ofBits x).isFinite = false := by
  rw [Bool.and_eq_false_iff, seqOk_eq_false, realOk_eq_false, or_assoc]

/-- Settles O11: an operation runs its check first, and its meaning responds no MalformedInput; each check refuses exactly
its condition of R242. -/
theorem malformedOperandsRespondMalformedInput : Obligations.MalformedOperandsRespondMalformedInput := by
  refine ⟨?malformed, ?wellFormed, ?intToBits, ?bitsToInt, ?tcDecode, ?cfgDecode, ?interpret, ?chExchange, ?chVerify, ?chInit,
    ?chReadBatch, ?tkT2mv, ?tkMv2t, ?cjMv, ?cjLinearize, ?tkGetTemp, ?cfgEncode, ?lsbSize, ?convInterval, ?chAwait⟩
  case malformed => exact fun _ s h => Machine.exec_malformed_onlyResponds h s
  case wellFormed =>
    intro i s t h hs ht hresp
    have hold : s.hostResp = some (.fault .malformedInput) := Machine.noMalformed_of_exec h ht hresp
    exact absurd (hs.symm.trans hold) nofun
  case intToBits => exact fun _ => Machine.widOk_eq_false
  case bitsToInt => exact Machine.seqOk_eq_false
  case tcDecode => exact Machine.seqOk_and_realOk_eq_false
  case cfgDecode | chExchange => exact Machine.seq16Ok_eq_false
  case interpret | chVerify => exact fun _ => Machine.seq16Ok_eq_false
  case chInit => exact fun _ => Machine.pullOk_eq_false
  case chReadBatch => exact Machine.listOk_eq_false
  case tkT2mv | tkMv2t | cjMv => exact Machine.realOk_eq_false
  case cjLinearize | tkGetTemp => exact Machine.realOk_and_eq_false
  case cfgEncode | lsbSize | convInterval | chAwait => exact fun _ => rfl

end Sys2Proof
end

section
/-! PROOFS. The step (10_state.md R30, R34, 20_memory.md R80, 60_exceptions.md R246): what it runs, that it always answers,
what it adds to the events and the host port, and what it writes of WAIT_MODE, PULL and the parameters. -/

namespace Sys2Proof

/-! ### What a step runs -/

theorem Machine.step_of_polling {s : State} {p : Polling} (hs : s.seq = .polling p) : step s = .next (s.resume p) := by
  simp only [step, State.advance, hs]

theorem Machine.step_of_no_request {s : State} (hs : s.seq = .ready) (hq : s.hostReq = none) : step s = .next s := by
  simp only [step, State.advance, hs, hq]

theorem Machine.State.serve_of_decode {bits rest : BitSeq} {i : Instr} (h : decode bits = .ok (i, rest)) (s : State) :
    s.serve bits = exec i s := by
  simp only [serve, h]

theorem Machine.step_of_decode {s : State} {bits rest : BitSeq} {i : Instr} (hs : s.seq = .ready)
    (hq : s.hostReq = some bits) (h : decode bits = .ok (i, rest)) : step s = exec i s := by
  rw [step_of_request hs hq, State.serve_of_decode h]

/-- Settles O4: between operations a step serves the request, which is to run what it decodes to. -/
theorem stepRunsDecodedRequest : Obligations.StepRunsDecodedRequest := by
  intro s bits rest i hs hq h
  exact Machine.step_of_decode hs hq h

/-- Settles O5: the three cases of a step that starts no request. -/
theorem stepWithoutNewRequest : Obligations.StepWithoutNewRequest := by
  refine ⟨?idle, ?high, ?low⟩
  case idle => exact fun s => Machine.step_of_no_request
  case high => exact Machine.step_high
  case low =>
    intro s p hs hlow
    rw [Machine.step_low s p hs hlow, Machine.State.poll_done s hlow]

theorem decode_of_decodeTableWord {nbits w : Nat} {i : Instr} (h : decodeTableWord nbits w = some i) :
    ∃ rest, decode (tableRequest nbits w) = .ok (i, rest) := by
  unfold decodeTableWord at h
  split at h
  next rest hd => cases h; exact ⟨rest, hd⟩
  next => cases h

/-- Settles O6: a word placed is the outstanding request of a block between operations. -/
theorem stepRunsPlacedTableWord : Obligations.StepRunsPlacedTableWord := by
  intro s nbits w i h
  obtain ⟨rest, hd⟩ := decode_of_decodeTableWord h
  exact Machine.step_of_decode rfl rfl hd

theorem Machine.State.issue_of_outstanding {s : State} (h : s.hostReq.isSome = true) (q : BitSeq) : s.issue q = s := by
  obtain ⟨r, hr⟩ := Option.isSome_iff_exists.mp h
  simp only [issue, hr]

theorem Machine.State.issue_of_none {s : State} (h : s.hostReq = none) (q : BitSeq) :
    s.issue q = { s with hostReq := some q, hostResp := none } := by simp only [issue, h]

/-- Settles O7: the two cases of the host's move. -/
theorem hostIssuesOneRequestAtATime : Obligations.HostIssuesOneRequestAtATime := by
  intro s q
  refine ⟨fun h => Machine.State.issue_of_outstanding h q, fun h => ?_⟩
  rw [Machine.State.issue_of_none h q]
  exact ⟨rfl, rfl, ⟨rfl, rfl, rfl, rfl, rfl, rfl, rfl, rfl, rfl, rfl, rfl, rfl, rfl, rfl, rfl, rfl, rfl, rfl, rfl⟩, rfl⟩

/-! ### What a step adds -/

/-- Settles O8: an operation's end is a response or a POLLED wait, after events that are no response. -/
theorem everyRequestGetsOneResponse : Obligations.EveryRequestGetsOneResponse := by
  intro s t q hq ht
  obtain ⟨-, -, hnone⟩ | ⟨rfl, -, p, hp⟩ | ⟨u, r, hu, rfl⟩ | ⟨u, p, hu, rfl⟩ := Machine.Ends.step s t ht
  · exact absurd (hq.symm.trans hnone) nofun
  · exact ⟨[.pinSample (s.upcoming 0)], rfl, .inr ⟨rfl, hq, rfl, p, hp⟩⟩
  · obtain ⟨es, hes, htrace⟩ := hu.trace
    exact ⟨es, hes, .inl ⟨r, rfl, rfl, rfl, by rw [Machine.State.respond_trace, htrace]⟩⟩
  · obtain ⟨es, hes, htrace⟩ := hu.trace
    exact ⟨es, hes, .inr ⟨htrace, hu.hostReq.trans hq, hu.hostResp, p, rfl⟩⟩

/-- Settles O9: by the same cases of a step. -/
theorem stepOnlyAppendsEvents : Obligations.StepOnlyAppendsEvents := by
  intro s t ht
  obtain ⟨rfl, -, -⟩ | ⟨rfl, -, -⟩ | ⟨u, r, hu, rfl⟩ | ⟨u, p, hu, rfl⟩ := Machine.Ends.step s t ht
  · exact ⟨[], (List.append_nil _).symm⟩
  · exact ⟨_, rfl⟩
  · obtain ⟨es, -, htrace⟩ := hu.trace
    exact ⟨es ++ [.respond r], by rw [Machine.State.respond_trace, htrace, List.append_assoc]⟩
  · obtain ⟨es, -, htrace⟩ := hu.trace
    exact ⟨es, htrace⟩

theorem Machine.Grows.sameParams {s t : State} (h : Grows s t) : s.sameParams t :=
  ⟨h.hasCs, h.pollCs, h.batchAbort, h.num, h.reals⟩

/-- Settles O45: what an operation does before its end keeps the parameters, and neither end writes one. -/
theorem stepKeepsParameters : Obligations.StepKeepsParameters := by
  intro s t ht
  obtain ⟨rfl, -, -⟩ | ⟨rfl, -, -⟩ | ⟨u, r, hu, rfl⟩ | ⟨u, p, hu, rfl⟩ := Machine.Ends.step s t ht
  · exact (Machine.Grows.refl _).sameParams
  · exact (Machine.Grows.takeSample s).sameParams
  · exact hu.sameParams
  · exact hu.sameParams

/-! ### That a step answers -/

theorem Machine.exec_answers (i : Instr) (s : State) : ∃ t, exec i s = .next t := by
  obtain ⟨run, -, hexec⟩ := exec_eq_checked i
  exact ⟨_, hexec s⟩

/-- Settles O10: every operation is a check in front of a meaning, and both answer; the decoder's three answers are the
three cases of a request served. -/
theorem onlyTruncatedRequestsStop : Obligations.OnlyTruncatedRequestsStop := by
  refine ⟨Machine.exec_answers, fun s => ?_⟩
  cases hs : s.seq with
  | polling p => exact .inl ⟨_, Machine.step_of_polling hs⟩
  | ready =>
    cases hq : s.hostReq with
    | none => exact .inl ⟨s, Machine.step_of_no_request hs hq⟩
    | some bits =>
      have hstep := Machine.step_of_request hs hq
      rw [hstep]
      rcases hd : decode bits with (_ | _) | ⟨i, rest⟩
      · exact .inl ⟨_, by rw [Machine.State.serve, hd]⟩
      · exact .inr ⟨bits, rfl, rfl, hd, by simp only [Machine.State.serve, hd]⟩
      · rw [Machine.State.serve_of_decode hd]
        exact .inl (Machine.exec_answers i s)

/-! ### The operations that use the bus, and those that only respond -/

theorem Machine.exec_chInit (m : WaitMode) (p : BitVec 2) (s : State) :
    exec (.chInit m p) s = checked (pullOk p) (fun s => (s.initFlush m (pullOf p)).initVerify) s := rfl

theorem Machine.exec_chAwait (d : BitVec 3) (s : State) :
    exec (.chAwait d) s = checked true (State.whenIdle (State.awaitReady d)) s := rfl

theorem Machine.exec_chReadBatch (cs : List AdcConfig) (s : State) :
    exec (.chReadBatch cs) s = checked (listOk cs) (State.whenIdle (State.readBatch cs)) s := rfl

/-- The operations that write pins, sample one or Sleep: CH_INIT, CH_EXCHANGE, CH_AWAIT and CH_READ_BATCH. -/
def Machine.usesBus : Instr → Bool
  | .chInit _ _ | .chExchange _ | .chAwait _ | .chReadBatch _ => true
  | _ => false

/-- `run` does nothing but respond. -/
def Machine.Responds (run : State → State) : Prop := ∀ s, ∃ r, run s = s.respond r

theorem Machine.responds_answerReal (f : State → Option Value) : Responds fun s => s.answerReal (f s) := fun s => by
  show ∃ r, s.answerReal (f s) = s.respond r
  cases f s <;> exact ⟨_, rfl⟩

theorem Machine.responds_verifyEcho (cmd : AdcConfig) (e : Word16) : Responds (State.verifyEcho cmd e) := fun s => by
  unfold State.verifyEcho
  split <;> exact ⟨_, rfl⟩

theorem Machine.Responds.checked {run : State → State} (h : Responds run) (ok : Bool) (s : State) :
    ∃ r, checked ok run s = .next (s.respond r) := by
  cases ok with
  | false => exact ⟨_, rfl⟩
  | true =>
    obtain ⟨r, hr⟩ := h s
    exact ⟨r, by rw [Machine.checked, if_pos rfl, hr]⟩

/-- Every operation that uses no pin is its check in front of one response. -/
theorem Machine.exec_eq_checked_responds {i : Instr} (h : usesBus i = false) :
    ∃ ok run, Responds run ∧ ∀ s, exec i s = checked ok run s := by
  cases i with
  | intToBits _ _ | bitsToInt _ | cfgEncode _ | cfgDecode _ | lsbSize _ | convInterval _ | tcDecode _ _ | interpret _ _
    | cjMv _ => exact ⟨_, _, fun _ => ⟨_, rfl⟩, fun _ => rfl⟩
  | tkT2mv _ | tkMv2t _ | cjLinearize _ _ | tkGetTemp _ _ => exact ⟨_, _, responds_answerReal _, fun _ => rfl⟩
  | chVerify cmd e => exact ⟨_, _, responds_verifyEcho cmd (word16 e), fun _ => rfl⟩
  | chInit _ _ | chExchange _ | chAwait _ | chReadBatch _ => cases h

theorem Machine.exec_eq_respond {i : Instr} (h : usesBus i = false) (s : State) :
    ∃ r, exec i s = .next (s.respond r) := by
  obtain ⟨ok, run, hrun, hexec⟩ := exec_eq_checked_responds h
  rw [hexec s]
  exact hrun.checked ok s

/-! ### WAIT_MODE and PULL -/

/-- `t` has the WAIT_MODE and the PULL of `s`. -/
def Machine.KeepsMode (s t : State) : Prop := t.waitMode = s.waitMode ∧ t.pull = s.pull

theorem Machine.KeepsMode.trans {s t u : State} (h : KeepsMode s t) (k : KeepsMode t u) : KeepsMode s u :=
  ⟨k.1.trans h.1, k.2.trans h.2⟩

theorem Machine.KeepsMode.respond (s : State) (r : Response) : KeepsMode s (s.respond r) := ⟨rfl, rfl⟩

theorem Machine.KeepsMode.finishIdle (s : State) (p : Payload) : KeepsMode s (s.finishIdle p) := ⟨rfl, rfl⟩

theorem Machine.KeepsMode.batchFault (s : State) (e : Word16) : KeepsMode s (s.batchFault e) := ⟨rfl, rfl⟩

theorem Machine.KeepsMode.exchange (s : State) (c : Word16) : KeepsMode s (s.exchange c) :=
  ⟨s.exchange_waitMode c, s.exchange_pull c⟩

theorem Machine.KeepsMode.batchSend (s : State) (k : Nat) (c : AdcConfig) : KeepsMode s (s.batchSend k c) :=
  ⟨s.batchSend_waitMode k c, s.batchSend_pull k c⟩

theorem Machine.KeepsMode.wait (s : State) (dr : BitVec 3) : KeepsMode s (s.wait dr).1 :=
  ⟨s.wait_waitMode dr, s.wait_pull dr⟩

theorem Machine.KeepsMode.waitThen {next : State → State} (h : ∀ s, KeepsMode s (next s)) (s : State) (dr : BitVec 3)
    (p : Polling) : KeepsMode s (s.waitThen dr p next) := by
  unfold State.waitThen
  split
  · exact (wait s dr).trans (h _)
  · exact wait s dr

theorem Machine.KeepsMode.whenIdle {run : State → State} (h : ∀ s, KeepsMode s (run s)) (s : State) :
    KeepsMode s (s.whenIdle run) := by
  unfold State.whenIdle
  split
  · exact h s
  · exact respond s _

theorem Machine.KeepsMode.checked {run : State → State} (h : ∀ s, KeepsMode s (run s)) {ok : Bool} {s t : State}
    (ht : checked ok run s = .next t) : KeepsMode s t := by
  cases ht
  split
  · exact h s
  · exact respond s _

theorem Machine.KeepsMode.batchPair (s : State) (k n : Nat) : KeepsMode s (s.batchPair k n) := by
  induction n generalizing k s with
  | zero => exact finishIdle s _
  | succ n ih =>
    rw [State.batchPair]
    split
    · exact batchFault _ _
    · exact ih (s.setBres k _) (k + 1)

theorem Machine.KeepsMode.setBraw (s : State) (k : Nat) (r : RawExchange) : KeepsMode s (s.setBraw k r) := ⟨rfl, rfl⟩

theorem Machine.KeepsMode.batchFlush (s : State) : KeepsMode s s.batchFlush := by
  unfold State.batchFlush
  exact ((exchange s probeWord).trans (setBraw _ _ _)).trans (batchPair _ _ _)

theorem Machine.KeepsMode.batchFrom (s : State) (k : Nat) (cs : List AdcConfig) : KeepsMode s (s.batchFrom k cs) := by
  induction cs generalizing k s with
  | nil => exact batchFlush s
  | cons c rest ih =>
    rw [State.batchFrom]
    refine (batchSend s k c).trans ?_
    split
    · exact batchFault _ _
    · exact waitThen (fun t => ih t (k + 1)) _ c.dataRate (.batch k rest)

theorem Machine.KeepsMode.readBatch (s : State) (cs : List AdcConfig) : KeepsMode s (s.readBatch cs) := by
  cases cs with
  | nil => exact respond _ _
  | cons c rest =>
    have hset : KeepsMode s ((s.setBn (c :: rest).length).setChan .exch) := ⟨rfl, rfl⟩
    exact hset.trans (batchFrom _ 0 (c :: rest))

theorem Machine.KeepsMode.afterWait (s : State) (p : Polling) : KeepsMode s (s.afterWait p) := by
  cases p with
  | init | await => exact finishIdle s .nothing
  | batch k rest => exact batchFrom s (k + 1) rest

theorem Machine.KeepsMode.resume (s : State) (p : Polling) : KeepsMode s (s.resume p) := by
  have hpoll : KeepsMode s s.poll.1 := ⟨s.poll_waitMode, s.poll_pull⟩
  unfold State.resume
  split
  · exact hpoll.trans (afterWait _ p)
  · exact hpoll

theorem Machine.KeepsMode.initVerify (s : State) : KeepsMode s s.initVerify := by
  unfold State.initVerify
  split
  · exact waitThen (fun t => finishIdle t .nothing) s probe.dataRate .init
  · exact respond s _

theorem Machine.State.initFlush_modePull (m : WaitMode) (p : Pull) (s : State) :
    (s.initFlush m p).waitMode = m ∧ (s.initFlush m p).pull = p := by
  rw [initFlush_eq]
  exact ⟨exchange_waitMode _ _, exchange_pull _ _⟩

/-- A CH_INIT with a legal PULLC sets both registers to its operands; with 11 it writes neither. -/
theorem Machine.chInit_modePull {m : WaitMode} {p : BitVec 2} {s t : State} (ht : exec (.chInit m p) s = .next t) :
    KeepsMode s t ∨ p ≠ 3#2 ∧ t.waitMode = m ∧ t.pull.code = p := by
  rw [exec_chInit] at ht
  cases hp : pullOk p with
  | false =>
    rw [hp] at ht
    cases ht
    exact .inl (KeepsMode.respond s _)
  | true =>
    have hne := (pullOk_eq_true p).mp hp
    rw [checked_eq_next hp] at ht
    cases ht
    obtain ⟨hm, hpull⟩ := KeepsMode.initVerify (s.initFlush m (pullOf p))
    obtain ⟨hm0, hpull0⟩ := s.initFlush_modePull m (pullOf p)
    exact .inr ⟨hne, hm.trans hm0, by rw [hpull, hpull0, pullOf_code p hne]⟩

theorem Machine.KeepsMode.exec {i : Instr} {s t : State} (hi : ∀ m p, i ≠ .chInit m p) (ht : exec i s = .next t) :
    KeepsMode s t := by
  cases hbus : usesBus i with
  | false =>
    obtain ⟨r, hr⟩ := exec_eq_respond hbus s
    cases hr.symm.trans ht
    exact respond s r
  | true =>
    cases i with
    | chInit m p => exact absurd rfl (hi m p)
    | chExchange b =>
      rw [exec_chExchange] at ht
      refine checked (whenIdle fun s => ?_) ht
      rw [State.exchangeOnce_eq]
      exact exchange s (word16 b)
    | chAwait d =>
      rw [exec_chAwait] at ht
      exact checked (whenIdle fun s => waitThen (fun t => finishIdle t .nothing) (s.setChan .exch) d .await) ht
    | chReadBatch cs =>
      rw [exec_chReadBatch] at ht
      exact checked (whenIdle fun s => readBatch s cs) ht
    | intToBits _ _ | bitsToInt _ | cfgEncode _ | cfgDecode _ | lsbSize _ | convInterval _ | tcDecode _ _
      | interpret _ _ | cjMv _ | tkT2mv _ | tkMv2t _ | cjLinearize _ _ | tkGetTemp _ _ | chVerify _ _ => cases hbus

/-- A request served keeps WAIT_MODE and PULL, or is a CH_INIT that sets them. -/
theorem Machine.serve_modePull {bits : BitSeq} {s t : State} (ht : s.serve bits = .next t) :
    KeepsMode s t ∨
      ∃ m p rest, decode bits = .ok (.chInit m p, rest) ∧ p ≠ 3#2 ∧ t.waitMode = m ∧ t.pull.code = p := by
  unfold State.serve at ht
  split at ht
  next i rest hd =>
    by_cases hi : ∃ m p, i = .chInit m p
    · obtain ⟨m, p, rfl⟩ := hi
      exact (chInit_modePull ht).imp_right fun h => ⟨m, p, rest, hd, h⟩
    · exact .inl (KeepsMode.exec (fun m p h => hi ⟨m, p, h⟩) ht)
  next => cases ht; exact .inl (KeepsMode.respond s _)
  next => cases ht

/-- Settles O44: every step keeps the two registers but one that serves a CH_INIT. -/
theorem onlyChInitWritesModeAndPull : Obligations.OnlyChInitWritesModeAndPull := by
  intro s t ht hne
  have hchanged : ¬Machine.KeepsMode s t := fun h => hne.elim (· h.1) (· h.2)
  cases hs : s.seq with
  | polling p =>
    cases (Machine.step_of_polling hs).symm.trans ht
    exact absurd (Machine.KeepsMode.resume s p) hchanged
  | ready =>
    cases hq : s.hostReq with
    | none =>
      cases (Machine.step_of_no_request hs hq).symm.trans ht
      exact absurd ⟨rfl, rfl⟩ hchanged
    | some bits =>
      rw [Machine.step_of_request hs hq] at ht
      obtain ⟨m, p, rest, h⟩ := (Machine.serve_modePull ht).resolve_left hchanged
      exact ⟨bits, m, p, rest, rfl, h⟩

/-! ### The channel's operations outside IDLE, and the empty batch -/

/-- Settles O12: with their operands admitted, the three operations go on to the third check, which refuses them. -/
theorem channelOperationsNeedIdle : Obligations.ChannelOperationsNeedIdle := by
  intro s hchan
  refine ⟨fun b hlen => ?exchange, fun d => ?await, fun cs hlen => ?batch⟩
  case exchange =>
    rw [Machine.exec_chExchange]
    exact Machine.checked_whenIdle_onlyResponds ((Machine.seq16Ok_eq_true b).mpr hlen) hchan _
  case await =>
    rw [Machine.exec_chAwait]
    exact Machine.checked_whenIdle_onlyResponds rfl hchan _
  case batch =>
    rw [Machine.exec_chReadBatch]
    exact Machine.checked_whenIdle_onlyResponds ((Machine.listOk_eq_true cs).mpr hlen) hchan _

/-- Settles O43: with no command the meaning is a write of BN and a response. -/
theorem emptyBatchMakesNoEvent : Obligations.EmptyBatchMakesNoEvent := by
  intro s hidle
  have hrun : Machine.exec (.chReadBatch []) s = .next ((s.setBn 0).respond (.ok (.measList []))) := by
    rw [Machine.exec_chReadBatch, Machine.checked_eq_next (by decide), Machine.State.whenIdle_of_idle hidle]
    rfl
  refine ⟨_, hrun, ⟨rfl, rfl, rfl, ?trace⟩, rfl, (Machine.State.onlyResponds_respond (s.setBn 0) _).1⟩
  case trace => rw [List.append_nil]; rfl

end Sys2Proof
end

section
/-! PROOFS. The invariant (10_state.md R35, R37, R39, R40, 60_exceptions.md R244): it holds at reset, every step keeps it, and
so does everything else a run is made of. -/

namespace Sys2Proof

/-! ### Inside an operation -/

/-- What holds between any two named operations of a running request: the invariant's bounds, the request outstanding and
unanswered, and CS_N not low. What the invariant says beyond it is said of the ends: a response and a POLLED wait. -/
structure Machine.Running (s : State) : Prop where
  slot : s.slot ≤ 32
  bn : s.bn ≤ Config.nBatchMax
  sclk : s.sclk = false
  hostReq : s.hostReq.isSome = true
  hostResp : s.hostResp = none
  csN : s.csN ≠ some false

theorem Machine.csN_map_true_ne (c : Option Bool) : c.map (fun _ => true) ≠ some false := by cases c <;> simp

/-- A latch that is not low is high, where it exists. -/
theorem Machine.csN_eq_map_true {c : Option Bool} (h : c ≠ some false) : c = c.map fun _ => true := by
  cases c with
  | none => rfl
  | some b => cases b <;> simp_all

theorem Machine.Running.setChan {s : State} (h : Running s) (c : ChanState) : Running (s.setChan c) := { h with }

theorem Machine.Running.setBn {s : State} (h : Running s) {n : Nat} (hn : n ≤ Config.nBatchMax) : Running (s.setBn n) :=
  { h with bn := hn }

theorem Machine.Running.setBraw {s : State} (h : Running s) (k : Nat) (r : RawExchange) : Running (s.setBraw k r) :=
  { h with }

theorem Machine.Running.setBres {s : State} (h : Running s) (k : Nat) (m : Measurement) : Running (s.setBres k m) :=
  { h with }

theorem Machine.Running.exchange {s : State} (h : Running s) (c : Word16) : Running (s.exchange c) where
  slot := by simp
  bn := by simpa using h.bn
  sclk := by simp
  hostReq := by simpa using h.hostReq
  hostResp := by simpa using h.hostResp
  csN := by simpa using csN_map_true_ne s.csN

theorem Machine.Running.batchSend {s : State} (h : Running s) (k : Nat) (c : AdcConfig) : Running (s.batchSend k c) := by
  have hcmd : Running (s.setBcmd k c) := { h with }
  exact (hcmd.exchange _).setBraw _ _

theorem Machine.Running.initFlush {s : State} (h : Running s) (m : WaitMode) (p : Pull) : Running (s.initFlush m p) := by
  rw [State.initFlush_eq]
  refine Running.exchange ?_ probeWord
  exact ⟨h.slot, h.bn, rfl, h.hostReq, h.hostResp, csN_map_true_ne s.csN⟩

/-- A wait that has ended leaves CS_N as it was or high. -/
theorem Machine.Running.wait {s : State} (h : Running s) {dr : BitVec 3} (hend : (s.wait dr).2 = true) :
    Running (s.wait dr).1 where
  slot := by simpa using h.slot
  bn := by simpa using h.bn
  sclk := by simpa using h.sclk
  hostReq := by simpa using h.hostReq
  hostResp := by simpa using h.hostResp
  csN := by
    rw [State.wait_csN s dr ((State.wait_snd s dr).mp hend)]
    split
    · exact csN_map_true_ne s.csN
    · exact h.csN

/-! ### The two ends of a step inside an operation -/

theorem Machine.Running.inv_respond {s : State} (h : Running s) (hchan : s.chan ≠ .exch) (r : Response) :
    (s.respond r).Inv :=
  ⟨h.slot, h.bn, h.sclk, fun hreq => absurd hreq Bool.false_ne_true, hchan, h.csN⟩

theorem Machine.Running.inv_finishIdle {s : State} (h : Running s) (p : Payload) : (s.finishIdle p).Inv :=
  (h.setChan .idle).inv_respond (by simp) (.ok p)

theorem Machine.Running.inv_batchFault {s : State} (h : Running s) (e : Word16) : (s.batchFault e).Inv :=
  (h.setChan .idle).inv_respond (by simp) _

/-- A wait that has not ended is POLLED and has taken a sample of 1, CS_N low exactly where POLL_CS is asserted. -/
theorem Machine.State.wait_of_not_ended {s : State} {dr : BitVec 3} (h : (s.wait dr).2 = false) :
    s.waitMode = .polled ∧ (s.wait dr).1 = s.pollStart.takeSample := by
  cases hm : s.waitMode
  · rw [State.wait_timed s dr hm] at h; cases h
  · rw [State.wait_polled s dr hm, State.poll_snd, Bool.not_eq_false'] at h
    rw [State.wait_polled s dr hm, State.poll_waiting _ h]
    exact ⟨rfl, rfl⟩

theorem Machine.Running.inv_suspend {s : State} (h : Running s) {dr : BitVec 3} {p : Polling}
    (hwait : (s.wait dr).2 = false) (hfits : p.Fits s) : ((s.wait dr).1.suspend p).Inv := by
  obtain ⟨hmode, hw⟩ := State.wait_of_not_ended hwait
  rw [hw, State.pollStart_eq]
  refine ⟨h.slot, h.bn, h.sclk, fun _ => h.hostResp, h.hostReq, hmode, ?csN, ?fits⟩
  case csN =>
    have hcs := csN_eq_map_true h.csN
    cases hp : s.pollCs <;> simp [hp, ← hcs, State.takeSample, State.log, State.suspend]
  case fits => cases p <;> exact hfits

theorem Machine.Running.inv_waitThen {s : State} (h : Running s) (dr : BitVec 3) {p : Polling} (hfits : p.Fits s)
    {next : State → State} (hnext : ∀ t, Running t → t.chan = s.chan → t.bn = s.bn → (next t).Inv) :
    (s.waitThen dr p next).Inv := by
  unfold State.waitThen
  split
  next hend => exact hnext _ (h.wait hend) (s.wait_chan dr) (s.wait_bn dr)
  next hnot => exact h.inv_suspend (Bool.eq_false_iff.mpr hnot) hfits

/-! ### CH_READ_BATCH -/

theorem Machine.Running.inv_batchPair {s : State} (h : Running s) (k n : Nat) : (s.batchPair k n).Inv := by
  induction n generalizing k s with
  | zero => exact h.inv_finishIdle _
  | succ n ih =>
    rw [State.batchPair]
    split
    · exact (h.setBres k _).inv_batchFault _
    · exact ih (h.setBres k _) (k + 1)

theorem Machine.Running.inv_batchFlush {s : State} (h : Running s) : s.batchFlush.Inv :=
  ((h.exchange probeWord).setBraw _ _).inv_batchPair 0 s.bn

theorem Machine.Running.inv_batchFrom {s : State} (h : Running s) (hchan : s.chan = .exch) {k : Nat}
    {cs : List AdcConfig} (hn : k + cs.length = s.bn) : (s.batchFrom k cs).Inv := by
  induction cs generalizing k s with
  | nil => exact h.inv_batchFlush
  | cons c rest ih =>
    rw [List.length_cons] at hn
    have hsent := h.batchSend k c
    have hfits : (Polling.batch k rest).Fits (s.batchSend k c) :=
      ⟨(s.batchSend_chan k c).trans hchan, by rw [s.batchSend_bn k c]; omega⟩
    rw [State.batchFrom]
    split
    · exact hsent.inv_batchFault _
    · refine hsent.inv_waitThen c.dataRate hfits fun t ht htchan htbn => ?_
      exact ih ht (htchan.trans hfits.1) (by rw [htbn, ← hfits.2])

theorem Machine.Running.inv_readBatch {s : State} (h : Running s) (hchan : s.chan ≠ .exch) {cs : List AdcConfig}
    (hlen : cs.length ≤ Config.nBatchMax) : (s.readBatch cs).Inv := by
  have hbn := h.setBn hlen
  cases cs with
  | nil => exact hbn.inv_respond hchan _
  | cons c rest => exact (hbn.setChan .exch).inv_batchFrom rfl (Nat.zero_add _)

/-! ### Every operation -/

theorem Machine.Running.inv_checked {s t : State} (h : Running s) (hchan : s.chan ≠ .exch) {ok : Bool}
    {run : State → State} (hrun : ok = true → (run s).Inv) (ht : checked ok run s = .next t) : t.Inv := by
  cases ht
  split
  next hok => exact hrun hok
  next => exact h.inv_respond hchan _

theorem Machine.Running.inv_whenIdle {s : State} (h : Running s) (hchan : s.chan ≠ .exch) {run : State → State}
    (hrun : (run s).Inv) : (s.whenIdle run).Inv := by
  unfold State.whenIdle
  split
  · exact hrun
  · exact h.inv_respond hchan _

/-- The flush of a CH_INIT leaves the channel UNINIT, where its wait and its fault need it. -/
theorem Machine.Running.inv_initVerify {s : State} (h : Running s) (hchan : s.chan = .uninit) : s.initVerify.Inv := by
  unfold State.initVerify
  split
  · exact h.inv_waitThen probe.dataRate (p := .init) hchan fun t ht _ _ => ht.inv_finishIdle .nothing
  · exact h.inv_respond (by simp [hchan]) _

theorem Machine.Running.inv_exchangeOnce {s : State} (h : Running s) (c : Word16) : (s.exchangeOnce c).Inv := by
  rw [State.exchangeOnce_eq]
  exact (h.exchange c).inv_finishIdle _

theorem Machine.Running.inv_awaitReady {s : State} (h : Running s) (d : BitVec 3) : (s.awaitReady d).Inv :=
  (h.setChan .exch).inv_waitThen d (p := .await) rfl fun _ ht _ _ => ht.inv_finishIdle .nothing

theorem Machine.Running.inv_exec_bus {s t : State} (h : Running s) (hchan : s.chan ≠ .exch) {i : Instr}
    (hbus : usesBus i = true) (ht : exec i s = .next t) : t.Inv := by
  cases i with
  | chInit m p =>
    rw [exec_chInit] at ht
    refine h.inv_checked hchan (fun _ => (h.initFlush m (pullOf p)).inv_initVerify ?_) ht
    rw [State.initFlush_eq, State.exchange_chan]
  | chExchange b =>
    rw [exec_chExchange] at ht
    exact h.inv_checked hchan (fun _ => h.inv_whenIdle hchan (h.inv_exchangeOnce _)) ht
  | chAwait d =>
    rw [exec_chAwait] at ht
    exact h.inv_checked hchan (fun _ => h.inv_whenIdle hchan (h.inv_awaitReady d)) ht
  | chReadBatch cs =>
    rw [exec_chReadBatch] at ht
    exact h.inv_checked hchan (fun hok => h.inv_whenIdle hchan (h.inv_readBatch hchan (of_decide_eq_true hok))) ht
  | intToBits _ _ | bitsToInt _ | cfgEncode _ | cfgDecode _ | lsbSize _ | convInterval _ | tcDecode _ _ | interpret _ _
    | cjMv _ | tkT2mv _ | tkMv2t _ | cjLinearize _ _ | tkGetTemp _ _ | chVerify _ _ => cases hbus

theorem Machine.Running.inv_exec {s t : State} (h : Running s) (hchan : s.chan ≠ .exch) (i : Instr)
    (ht : exec i s = .next t) : t.Inv := by
  cases hbus : usesBus i with
  | false =>
    obtain ⟨r, hr⟩ := exec_eq_respond hbus s
    cases hr.symm.trans ht
    exact h.inv_respond hchan r
  | true => exact h.inv_exec_bus hchan hbus ht

/-! ### Inside a POLLED wait -/

/-- A sample of 0 ends the wait and releases CS_N. -/
theorem Machine.Running.of_poll {s : State} {p : Polling} (h : s.Inv) (hseq : s.seq = .polling p)
    (hlow : s.upcoming 0 = false) : Running s.poll.1 ∧ p.Fits s.poll.1 := by
  obtain ⟨hslot, hbn, hsclk, hresp, hpos⟩ := h
  rw [hseq] at hpos
  obtain ⟨hreq, -, hcs, hfits⟩ := hpos
  rw [State.poll_eq s hlow]
  refine ⟨⟨hslot, hbn, hsclk, hreq, hresp hreq, ?csN⟩, ?fits⟩
  case csN =>
    simp only
    split
    · exact csN_map_true_ne s.csN
    next hp =>
      have hd : s.pollCs = .deasserted := by cases hc : s.pollCs <;> simp_all
      rw [hcs, hd]; exact csN_map_true_ne s.csN
  case fits => cases p <;> exact hfits

theorem Machine.inv_afterWait {s : State} {p : Polling} (h : Running s) (hfits : p.Fits s) : (s.afterWait p).Inv := by
  cases p with
  | init | await => exact h.inv_finishIdle .nothing
  | batch k rest => exact h.inv_batchFrom hfits.1 hfits.2

/-- The environment's fields and the event record are none the invariant speaks of. -/
theorem Machine.inv_environment {s : State} (h : s.Inv) (levels : List Bool) (n : Nat)
    (reals : List (BitVec 64 × RealOperand)) (events : List Event) :
    ({ s with din := levels, drawn := n, reals := reals, trace := events } : State).Inv := by
  obtain ⟨hslot, hbn, hsclk, hresp, hpos⟩ := h
  refine ⟨hslot, hbn, hsclk, hresp, ?_⟩
  cases hseq : s.seq with
  | ready => rw [hseq] at hpos; exact hpos
  | polling p =>
    rw [hseq] at hpos
    obtain ⟨hreq, hmode, hcs, hfits⟩ := hpos
    exact ⟨hreq, hmode, hcs, by cases p <;> exact hfits⟩

theorem Machine.inv_resume {s : State} {p : Polling} (h : s.Inv) (hseq : s.seq = .polling p) : (s.resume p).Inv := by
  unfold State.resume
  rw [State.poll_snd]
  cases hu : s.upcoming 0 with
  | false =>
    obtain ⟨hrun, hfits⟩ := Running.of_poll h hseq hu
    exact inv_afterWait hrun hfits
  | true => rw [State.poll_waiting s hu]; exact inv_environment h _ _ _ _

/-! ### Every step, and every reachable state -/

/-- Between operations with a request outstanding the invariant is what an operation starts from. -/
theorem Machine.Running.of_inv {s : State} {bits : BitSeq} (h : s.Inv) (hseq : s.seq = .ready)
    (hreq : s.hostReq = some bits) : Running s ∧ s.chan ≠ .exch := by
  obtain ⟨hslot, hbn, hsclk, hresp, hpos⟩ := h
  rw [hseq] at hpos
  obtain ⟨hchan, hcs⟩ := hpos
  have hsome : s.hostReq.isSome = true := by rw [hreq]; rfl
  exact ⟨⟨hslot, hbn, hsclk, hsome, hresp hsome, hcs⟩, hchan⟩

theorem Machine.inv_serve {s t : State} {bits : BitSeq} (h : Running s) (hchan : s.chan ≠ .exch)
    (ht : s.serve bits = .next t) : t.Inv := by
  unfold State.serve at ht
  split at ht
  · exact h.inv_exec hchan _ ht
  · cases ht; exact h.inv_respond hchan _
  · cases ht

/-- Settles O59: a step is nothing, goes on with a POLLED wait, or serves the outstanding request; each keeps the
invariant, as all that an operation does before it ends keeps `Running`. -/
theorem stepKeepsInv : Obligations.StepKeepsInv := by
  intro s t h ht
  cases hseq : s.seq with
  | polling p =>
    cases (Machine.step_of_polling hseq).symm.trans ht
    exact Machine.inv_resume h hseq
  | ready =>
    cases hreq : s.hostReq with
    | none =>
      cases (Machine.step_of_no_request hseq hreq).symm.trans ht
      exact h
    | some bits =>
      obtain ⟨hrun, hchan⟩ := Machine.Running.of_inv h hseq hreq
      rw [Machine.step_of_request hseq hreq] at ht
      exact Machine.inv_serve hrun hchan ht

/-- The invariant reads no parameter at reset. -/
theorem Machine.inv_resetWith (p : PollCs) (a : BatchAbort) (k : NumKind) : (State.resetWith p a k).Inv := by
  refine ⟨Nat.zero_le 32, Nat.zero_le 16, rfl, fun _ => rfl, nofun, ?csN⟩
  case csN =>
    show (if Config.hasCs then some true else none) ≠ some false
    cases Config.hasCs <;> simp

/-- Settles O58: the reset state is one of those with any parameters. -/
theorem invHoldsAtReset : Obligations.InvHoldsAtReset :=
  Machine.inv_resetWith .deasserted .afterAll .binary64

/-- The host's move gives a request without a response, or changes nothing. -/
theorem Machine.inv_issue {s : State} (h : s.Inv) (q : BitSeq) : (s.issue q).Inv := by
  cases hreq : s.hostReq with
  | some r => rw [State.issue_of_outstanding (by rw [hreq]; rfl)]; exact h
  | none =>
    rw [State.issue_of_none hreq]
    obtain ⟨hslot, hbn, hsclk, -, hpos⟩ := h
    refine ⟨hslot, hbn, hsclk, fun _ => rfl, ?_⟩
    cases hseq : s.seq with
    | ready => rw [hseq] at hpos; exact hpos
    | polling p =>
      rw [hseq] at hpos
      rw [hreq] at hpos
      exact absurd hpos.1 Bool.false_ne_true

/-- Settles O60: by induction on the run. -/
theorem reachableStatesMeetInv : Obligations.ReachableStatesMeetInv := by
  intro s hs
  induction hs with
  | reset p a k => exact Machine.inv_resetWith p a k
  | step _ ht ih => exact stepKeepsInv _ _ ih ht
  | issue q _ ih => exact Machine.inv_issue ih q
  | fix levels _ ih => exact Machine.inv_environment ih levels _ _ _
  | denote reals _ ih => exact Machine.inv_environment ih _ _ reals _

/-- Settles O57: read off the reset state; HAS_CS is whether CS_N_Q is there. -/
theorem resetValues : Obligations.ResetValues := by
  have hcs : Machine.State.reset.csN = if Config.hasCs then some true else none := rfl
  refine ⟨rfl, rfl, rfl, rfl, ?hasCs, ?csN, rfl, rfl, rfl, rfl⟩
  case hasCs => rw [Machine.State.hasCs, hcs]; cases Config.hasCs <;> rfl
  case csN => rw [Machine.State.hasCs, hcs]; cases Config.hasCs <;> simp

end Sys2Proof
end

section
/-! PROOFS. Round trips of BitCodec (40_bitcodec.md R122) and ConfigWord (41_configword.md R133), and VERIFY
(43_adc_channel.md R167): each compares words bit by bit. -/

namespace Sys2Proof

/-! ### BitCodec -/

theorem Machine.bitsToInt_intToBits (v w : Nat) : bitsToInt (intToBits v w) = v % 2 ^ w := by
  rw [bitsToInt_eq_uint, intToBits, uint_toBits, Nat.mod_mod]

theorem Machine.intToBits_bitsToInt (b : BitSeq) : intToBits (bitsToInt b) b.length = b := by
  rw [bitsToInt_eq_uint, intToBits, toBits_mod, toBits_uint]

/-- Settles O16: `uint` and `seq_n` invert each other, modulo 2^n. -/
theorem codecRoundTrips : Obligations.CodecRoundTrips := by
  refine ⟨fun v w _ _ => ⟨Machine.bitsToInt_intToBits v w, fun hlt => ?_⟩, fun b _ _ => Machine.intToBits_bitsToInt b⟩
  rw [Machine.bitsToInt_intToBits, Nat.mod_eq_of_lt hlt]

/-! ### ConfigWord -/

theorem Machine.decodeConfig_encodeConfig (c : AdcConfig) : decodeConfig (encodeConfig c) = c := by
  have hlen := length_configBits c
  rw [decodeConfig_eq, encodeConfig, AdcConfig.mk.injEq]
  refine ⟨?bit15, ?bits12, ?bits9, ?bit8, ?bits5, ?bit4, ?bit3, ?bit1⟩
  case bits12 | bits9 | bits5 => exact extractLsb'_word16_of_codeBits hlen (by decide) rfl
  all_goals exact getLsbD_word16 _ _ (by decide) hlen

theorem codeBits_eq (x : BitVec 3) : codeBits x = [x.getLsbD 2, x.getLsbD 1, x.getLsbD 0] := rfl

/-- Encoding what was decoded gives every bit back but bit 2, which is cleared, and bit 0, which is set. -/
theorem Machine.getLsbD_encodeConfig_decodeConfig (w : Word16) {i : Nat} (hi : i < 16) :
    (encodeConfig (decodeConfig w)).getLsbD i = if i = 2 then false else if i = 0 then true else w.getLsbD i := by
  rw [encodeConfig, getLsbD_word16 _ _ hi (length_configBits _), configBits, decodeConfig_eq]
  simp only [codeBits_eq, flagBits, BitVec.getLsbD_extractLsb']
  interval_cases i <;> rfl

/-- Settles O19: the fields of the encoded word are where CFG_DECODE reads them, and the bits of the encoded configuration
are those of the word but for bits 2 and 0, which the mask leaves out. -/
theorem configWordRoundTrips : Obligations.ConfigWordRoundTrips := by
  refine ⟨Machine.decodeConfig_encodeConfig, fun w => ⟨?masked, ?bit2, ?bit0⟩⟩
  case masked =>
    apply BitVec.eq_of_getLsbD_eq
    intro i hi
    rw [BitVec.getLsbD_and, BitVec.getLsbD_and, Machine.getLsbD_encodeConfig_decodeConfig w hi]
    interval_cases i <;> simp
  case bit2 => exact Machine.getLsbD_encodeConfig_decodeConfig w (by decide)
  case bit0 => exact Machine.getLsbD_encodeConfig_decodeConfig w (by decide)

/-- Settles O22: the two words, evaluated. -/
theorem probeWordValue : Obligations.ProbeWordValue := by
  refine ⟨?default, ?probe, rfl, rfl, rfl, rfl⟩
  case default => decide
  case probe => decide

/-! ### VERIFY -/

/-- Two words agree under a mask where they agree on each bit it has. -/
theorem masked_xor_eq_zero_iff (a b m : Word16) :
    (a ^^^ b) &&& m = 0#16 ↔ ∀ i < 16, m.getLsbD i = true → a.getLsbD i = b.getLsbD i := by
  have hbit (i : Nat) : ((a ^^^ b) &&& m).getLsbD i = false ↔ (m.getLsbD i = true → a.getLsbD i = b.getLsbD i) := by
    rw [BitVec.getLsbD_and, BitVec.getLsbD_xor]
    cases a.getLsbD i <;> cases b.getLsbD i <;> cases m.getLsbD i <;> decide
  constructor
  · intro h i _
    exact (hbit i).mp (by rw [h, BitVec.getLsbD_zero])
  · intro h
    apply BitVec.eq_of_getLsbD_eq
    intro i hi
    rw [BitVec.getLsbD_zero]
    exact (hbit i).mpr (h i hi)

/-- VERIFY_MASK has every bit but 15, 2 and 0 (30_encoding.md R98). -/
theorem Machine.getLsbD_verifyMask : ∀ i < 16, verifyMask.getLsbD i = decide (i ≠ 15 ∧ i ≠ 2 ∧ i ≠ 0) := by decide

theorem Machine.verify_iff (cmd : AdcConfig) (e : Word16) :
    verify cmd e = true ↔ ∀ i < 16, i ≠ 15 ∧ i ≠ 2 ∧ i ≠ 0 → (encodeConfig cmd).getLsbD i = e.getLsbD i := by
  rw [verify, beq_iff_eq, masked_xor_eq_zero_iff]
  refine forall₂_congr fun i hi => ?_
  rw [getLsbD_verifyMask i hi, decide_eq_true_iff]

/-- Three bits of a word, compared one by one. -/
theorem extractLsb'_congr {a b : Word16} {lo : Nat} (h : ∀ i < 3, a.getLsbD (lo + i) = b.getLsbD (lo + i)) :
    a.extractLsb' lo 3 = b.extractLsb' lo 3 := by
  apply BitVec.eq_of_getLsbD_eq
  intro i hi
  rw [BitVec.getLsbD_extractLsb', BitVec.getLsbD_extractLsb', h i hi]

/-- CFG_DECODE reads single_shot from bit 15 and the other fields from bits 14 to 3 and 1. -/
theorem Machine.decodeConfig_congr {a b : Word16} (v : Bool)
    (h : ∀ i < 16, i ≠ 15 ∧ i ≠ 2 ∧ i ≠ 0 → a.getLsbD i = b.getLsbD i) :
    { decodeConfig a with singleShot := v } = { decodeConfig b with singleShot := v } := by
  have hcode (lo : Nat) (hlo : 3 ≤ lo ∧ lo ≤ 12) : a.extractLsb' lo 3 = b.extractLsb' lo 3 :=
    extractLsb'_congr fun i hi => h (lo + i) (by omega) (by omega)
  rw [decodeConfig_eq, decodeConfig_eq, AdcConfig.mk.injEq]
  exact ⟨rfl, hcode 12 (by decide), hcode 9 (by decide), h 8 (by decide) (by decide), hcode 5 (by decide),
    h 4 (by decide) (by decide), h 3 (by decide) (by decide), h 1 (by decide) (by decide)⟩

/-- single_shot is bit 15 and no other. -/
theorem Machine.getLsbD_encodeConfig_singleShot (c : AdcConfig) (v : Bool) {i : Nat} (hi : i < 15) :
    (encodeConfig { c with singleShot := v }).getLsbD i = (encodeConfig c).getLsbD i := by
  rw [encodeConfig, encodeConfig, getLsbD_word16 _ _ (by omega) (length_configBits _),
    getLsbD_word16 _ _ (by omega) (length_configBits _), show 15 - i = 14 - i + 1 by omega]
  rfl

/-- Settles O31: a verify compares bits 14 to 3 and 1, where every field but single_shot stands. -/
theorem verifyComparesFields : Obligations.VerifyComparesFields := by
  intro cmd e
  refine ⟨rfl, ?_⟩
  rw [Machine.verify_iff]
  constructor
  · intro h
    rw [← Machine.decodeConfig_congr cmd.singleShot h, Machine.decodeConfig_encodeConfig]
  · intro h i hi hmask
    rw [← h, Machine.getLsbD_encodeConfig_singleShot _ _ (by omega), Machine.getLsbD_encodeConfig_decodeConfig e hi,
      if_neg hmask.2.1, if_neg hmask.2.2]

end Sys2Proof
end

section
/-! PROOFS. Rounding (00_scope.md R13, BINARY64_RNE): what `F64.round` gives is a value of the format, the nearest one, the one
with the even significand on a tie; and + - * / of finite values are the rounding of the exact result. -/

namespace Sys2Proof

/-! ### The two parts of a rounding -/

/-- The exponent a rounding starts from: the significand has 53 bits, or fewer at the least exponent. -/
def F64.roundExp (num den : Nat) : Nat := Nat.log2 (num / den) - 52

/-- The significand at that exponent, before a carry out of 53 bits. -/
def F64.roundMant (num den : Nat) : Nat := roundHalfEven num (den * 2 ^ F64.roundExp num den)

theorem F64.round_eq (neg : Bool) (num den : Nat) : F64.round neg num den =
    if F64.roundMant num den = 2 ^ 53 then
      (if F64.roundExp num den + 1 ≤ 2045 then .fin neg (2 ^ 52) (F64.roundExp num den + 1) else .inf neg)
    else if F64.roundExp num den ≤ 2045 then .fin neg (F64.roundMant num den) (F64.roundExp num den) else .inf neg := by
  unfold F64.round F64.roundMant F64.roundExp
  rfl

/-- The quotient in units of the exponent has at most 53 bits. -/
theorem F64.div_div_roundExp_lt (num den : Nat) : num / den / 2 ^ F64.roundExp num den < 2 ^ 53 := by
  rw [Nat.div_lt_iff_lt_mul (by positivity), ← pow_add]
  refine Nat.lt_log2_self.trans_le (Nat.pow_le_pow_right (by decide) ?_)
  unfold F64.roundExp; omega

/-- Above the least exponent it has all 53. -/
theorem F64.le_div_div_roundExp {num den : Nat} (h : F64.roundExp num den ≠ 0) :
    2 ^ 52 ≤ num / den / 2 ^ F64.roundExp num den := by
  have hlog : 52 + F64.roundExp num den = Nat.log2 (num / den) := by unfold F64.roundExp at *; omega
  have hne : num / den ≠ 0 := fun h0 => by simp [F64.roundExp, h0] at h
  rw [Nat.le_div_iff_mul_le (by positivity), ← pow_add, hlog]
  exact Nat.log2_self_le hne

theorem F64.roundMant_le (num den : Nat) : F64.roundMant num den ≤ 2 ^ 53 := by
  have hup := (roundHalfEven_bounds num (den * 2 ^ F64.roundExp num den)).2
  rw [← Nat.div_div_eq_div_mul] at hup
  have := F64.div_div_roundExp_lt num den
  unfold F64.roundMant; omega

theorem F64.le_roundMant {num den : Nat} (h : F64.roundExp num den ≠ 0) : 2 ^ 52 ≤ F64.roundMant num den := by
  have hlow := (roundHalfEven_bounds num (den * 2 ^ F64.roundExp num den)).1
  rw [← Nat.div_div_eq_div_mul] at hlow
  exact (F64.le_div_div_roundExp h).trans hlow

/-- Settles O24: a significand that carries out of 53 bits is put down as 2^52 at the next exponent. -/
theorem roundingGivesBinary64 : Obligations.RoundingGivesBinary64 := by
  intro neg num den _
  have hle := F64.roundMant_le num den
  have hnorm : F64.roundExp num den = 0 ∨ 2 ^ 52 ≤ F64.roundMant num den := or_iff_not_imp_left.mpr F64.le_roundMant
  rw [F64.round_eq]
  split
  · split
    next he => exact ⟨by simpa [F64.wf] using he, nofun⟩
    next => exact ⟨rfl, nofun⟩
  · split
    next hm he => exact ⟨by simp only [F64.wf, decide_eq_true_iff]; omega, nofun⟩
    next => exact ⟨rfl, nofun⟩

/-! ### Nearest, ties to even -/

/-- No multiple of `den` is nearer to `num` than the rounded one; one that is as near leaves that one even. -/
theorem roundHalfEven_nearest (num : Nat) {den : Nat} (hd : 0 < den) (k : Int) :
    ((roundHalfEven num den * den : Int) - num).natAbs ≤ (k * den - num).natAbs ∧
    (k ≠ roundHalfEven num den → (k * den - num).natAbs = ((roundHalfEven num den * den : Int) - num).natAbs →
      roundHalfEven num den % 2 = 0) := by
  obtain ⟨hhalf, htie⟩ := roundHalfEven_spec num den hd
  generalize roundHalfEven num den = m at *
  by_cases hk : k = m
  · subst hk; exact ⟨le_rfl, fun h => absurd rfl h⟩
  · have hapart : den ≤ (k * den - m * den : Int).natAbs := by
      rw [← sub_mul, Int.natAbs_mul, Int.natAbs_natCast]
      exact Nat.le_mul_of_pos_left den (Int.natAbs_pos.mpr (sub_ne_zero.mpr hk))
    generalize (k * den : Int) = a at *
    generalize (m * den : Int) = b at *
    exact ⟨by omega, fun _ h => htie (by omega)⟩

section
variable {num den : Nat}

/-- The value a rounding puts down before the overflow check, in units. -/
theorem F64.roundMant_nearest (hd : 0 < den) {m' e' : Nat} (hm' : m' < 2 ^ 53) :
    ((F64.roundMant num den * 2 ^ F64.roundExp num den * den : Int) - num).natAbs ≤ ((m' * 2 ^ e' * den : Int) - num).natAbs ∧
    (m' * 2 ^ e' ≠ F64.roundMant num den * 2 ^ F64.roundExp num den →
      ((m' * 2 ^ e' * den : Int) - num).natAbs =
        ((F64.roundMant num den * 2 ^ F64.roundExp num den * den : Int) - num).natAbs →
      F64.roundMant num den % 2 = 0) := by
  have hdpos : 0 < den * 2 ^ F64.roundExp num den := by positivity
  have hnear := roundHalfEven_nearest num hdpos
  rw [← F64.roundMant] at hnear
  have hunit (k : Int) : k * ((den * 2 ^ F64.roundExp num den : Nat) : Int) = k * 2 ^ F64.roundExp num den * den := by
    push_cast; ring
  simp only [hunit] at hnear
  rcases le_or_gt (F64.roundExp num den) e' with he | he
  · -- a value of an exponent at least as large is a multiple of the rounded value's unit
    obtain ⟨d, rfl⟩ := Nat.exists_eq_add_of_le he
    have hval : (m' * 2 ^ (F64.roundExp num den + d) : Int) = (m' * 2 ^ d : Int) * 2 ^ F64.roundExp num den := by ring
    obtain ⟨hle, htie⟩ := hnear (m' * 2 ^ d)
    rw [hval]
    refine ⟨hle, fun hne => htie fun hk => hne ?_⟩
    have hk' : m' * 2 ^ d = F64.roundMant num den := by exact_mod_cast hk
    rw [← hk']; ring
  · -- one of a smaller exponent lies below 2^52 units, which lies at or below the number rounded
    have he0 : F64.roundExp num den ≠ 0 := by omega
    have hbelow : m' * 2 ^ e' < 2 ^ 52 * 2 ^ F64.roundExp num den := by
      calc m' * 2 ^ e' < 2 ^ 53 * 2 ^ e' := Nat.mul_lt_mul_of_pos_right hm' (by positivity)
        _ = 2 ^ 52 * 2 ^ (e' + 1) := by ring
        _ ≤ 2 ^ 52 * 2 ^ F64.roundExp num den := Nat.mul_le_mul_left _ (Nat.pow_le_pow_right (by decide) he)
    have hnum : 2 ^ 52 * 2 ^ F64.roundExp num den * den ≤ num := by
      have h := F64.le_div_div_roundExp he0
      rw [Nat.le_div_iff_mul_le (by positivity), Nat.le_div_iff_mul_le hd] at h
      exact h
    have hlt : (m' * 2 ^ e' * den : Nat) < 2 ^ 52 * 2 ^ F64.roundExp num den * den := Nat.mul_lt_mul_of_pos_right hbelow hd
    have hle := (hnear (2 ^ 52)).1
    have hcast : (m' * 2 ^ e' * den : Int) = ((m' * 2 ^ e' * den : Nat) : Int) := by push_cast; rfl
    have hcast52 : ((2 : Int) ^ 52 * 2 ^ F64.roundExp num den * den) =
        ((2 ^ 52 * 2 ^ F64.roundExp num den * den : Nat) : Int) := by push_cast; rfl
    rw [hcast52] at hle
    rw [hcast]
    generalize ((F64.roundMant num den : Int) * 2 ^ F64.roundExp num den * den) = a at *
    generalize m' * 2 ^ e' * den = b at *
    generalize 2 ^ 52 * 2 ^ F64.roundExp num den * den = c at *
    exact ⟨by omega, fun _ h => absurd h (by omega)⟩

/-! ### The tie above the largest value of an exponent -/

/-- The rounded value is within half its unit `2 * (den * 2^n)` of the number, and even where the number is half above it. -/
theorem F64.roundMant_within (hd : 0 < den) {n : Nat} (he : F64.roundExp num den = n + 1) :
    2 * (F64.roundMant num den * (den * 2 ^ n)) ≤ num + den * 2 ^ n ∧
    num ≤ 2 * (F64.roundMant num den * (den * 2 ^ n)) + den * 2 ^ n ∧
    (num = 2 * (F64.roundMant num den * (den * 2 ^ n)) + den * 2 ^ n → F64.roundMant num den % 2 = 0) := by
  have hunit : den * 2 ^ (n + 1) = 2 * (den * 2 ^ n) := by ring
  obtain ⟨hhalf, htie⟩ := roundHalfEven_spec num (den * 2 ^ F64.roundExp num den) (by positivity)
  rw [← F64.roundMant, he, hunit] at hhalf htie
  generalize den * 2 ^ n = a at *
  generalize F64.roundMant num den = m at *
  have hcast : (m * (2 * a : Nat) : Int) = ((2 * (m * a) : Nat) : Int) := by push_cast; ring
  rw [hcast] at hhalf htie
  exact ⟨by omega, by omega, fun h => htie (by omega)⟩

/-- Below that tie a number is rounded to a value of the exponent or of a smaller one. -/
theorem F64.roundExp_le_of_lt (hd : 0 < den) {n : Nat} (h : num < den * ((2 ^ 54 - 1) * 2 ^ n)) :
    F64.roundExp num den ≤ n + 1 ∧ (F64.roundExp num den = n + 1 → F64.roundMant num den ≠ 2 ^ 53) := by
  have hdiv : num / den < (2 ^ 54 - 1) * 2 ^ n := Nat.div_lt_of_lt_mul h
  constructor
  · by_cases h0 : num / den = 0
    · simp [F64.roundExp, h0]
    · have hlt : num / den < 2 ^ (54 + n) := by rw [pow_add]; omega
      have hlog := (Nat.log2_lt h0).mpr hlt
      unfold F64.roundExp; omega
  · intro he hm
    obtain ⟨hlow, -, -⟩ := F64.roundMant_within hd he
    have hbound : den * ((2 ^ 54 - 1) * 2 ^ n) = (2 ^ 54 - 1) * (den * 2 ^ n) := by ring
    rw [hm] at hlow
    rw [hbound] at h
    generalize den * 2 ^ n = a at *
    omega

/-- From it up a number is rounded to a value of a larger exponent. -/
theorem F64.le_roundExp_of_le (hd : 0 < den) {n : Nat} (h : den * ((2 ^ 54 - 1) * 2 ^ n) ≤ num) :
    n + 1 ≤ F64.roundExp num den ∧ (F64.roundExp num den = n + 1 → F64.roundMant num den = 2 ^ 53) := by
  have hdiv : (2 ^ 54 - 1) * 2 ^ n ≤ num / den := (Nat.le_div_iff_mul_le hd).mpr (by rwa [mul_comm])
  have hpos : 0 < 2 ^ n := by positivity
  constructor
  · have hle : 2 ^ (53 + n) ≤ num / den := by rw [pow_add]; omega
    have hlog := (Nat.le_log2 (by omega)).mpr hle
    unfold F64.roundExp; omega
  · intro he
    obtain ⟨-, hup, htie⟩ := F64.roundMant_within hd he
    have hle := F64.roundMant_le num den
    have hbound : den * ((2 ^ 54 - 1) * 2 ^ n) = (2 ^ 54 - 1) * (den * 2 ^ n) := by ring
    have hapos : 0 < den * 2 ^ n := by positivity
    rw [hbound] at h
    generalize den * 2 ^ n = a at *
    generalize F64.roundMant num den = m at *
    by_contra hne
    have hbelow : m * a ≤ (2 ^ 53 - 1) * a := Nat.mul_le_mul_right a (by omega)
    have heven := htie (by omega)
    have hbelow2 : m * a ≤ (2 ^ 53 - 2) * a := Nat.mul_le_mul_right a (by omega)
    omega

/-- A finite rounding is the rounded value and is even where the rounded significand is. -/
theorem F64.round_of_lt (neg : Bool) (hd : 0 < den) (h : num < den * ((2 ^ 54 - 1) * 2 ^ 2044)) :
    ∃ m e, F64.round neg num den = .fin neg m e ∧ m * 2 ^ e = F64.roundMant num den * 2 ^ F64.roundExp num den ∧
      (F64.roundMant num den % 2 = 0 → m % 2 = 0) := by
  obtain ⟨hexp, hcarry⟩ := F64.roundExp_le_of_lt hd h
  rw [F64.round_eq]
  generalize F64.roundExp num den = e at *
  by_cases hm : F64.roundMant num den = 2 ^ 53
  · rw [if_pos hm, if_pos (by have := fun he => hcarry he hm; omega), hm]
    exact ⟨_, _, rfl, by rw [pow_succ]; ring, fun _ => rfl⟩
  · rw [if_neg hm, if_pos hexp]
    exact ⟨_, _, rfl, rfl, id⟩

theorem F64.round_of_le (neg : Bool) (hd : 0 < den) (h : den * ((2 ^ 54 - 1) * 2 ^ 2044) ≤ num) :
    F64.round neg num den = .inf neg := by
  obtain ⟨hexp, hcarry⟩ := F64.le_roundExp_of_le hd h
  rw [F64.round_eq]
  generalize F64.roundExp num den = e at *
  by_cases hm : F64.roundMant num den = 2 ^ 53
  · rw [if_pos hm, if_neg (by omega)]
  · rw [if_neg hm, if_neg (by have := mt hcarry hm; omega)]

/-- The first clauses of R13's rounding: finite and nearest below the tie, an infinity from there up. -/
theorem F64.round_nearest (neg : Bool) (hd : 0 < den) (h : num < den * ((2 ^ 54 - 1) * 2 ^ 2044)) :
    ∃ m e, F64.round neg num den = .fin neg m e ∧
      ∀ (n' : Bool) (m' e' : Nat), (F64.fin n' m' e').wf = true →
        ((m * 2 ^ e * den : Int) - num).natAbs ≤ ((m' * 2 ^ e' * den : Int) - num).natAbs ∧
        (m' * 2 ^ e' ≠ m * 2 ^ e →
          ((m' * 2 ^ e' * den : Int) - num).natAbs = ((m * 2 ^ e * den : Int) - num).natAbs → m % 2 = 0) := by
  obtain ⟨m, e, hround, hval, heven⟩ := F64.round_of_lt neg hd h
  refine ⟨m, e, hround, fun n' m' e' hwf => ?_⟩
  have hm' : m' < 2 ^ 53 := (of_decide_eq_true hwf).1
  obtain ⟨hle, htie⟩ := F64.roundMant_nearest hd hm' (num := num) (e' := e')
  have hvalInt : (m * 2 ^ e : Int) = F64.roundMant num den * 2 ^ F64.roundExp num den := by exact_mod_cast hval
  rw [hvalInt, hval]
  exact ⟨hle, fun hne heq => heven (htie hne heq)⟩

end

/-! ### A rounding depends on the ratio alone -/

theorem roundHalfEven_mul_right (num den : Nat) {k : Nat} (hk : 0 < k) :
    roundHalfEven (num * k) (den * k) = roundHalfEven num den := by
  unfold roundHalfEven
  simp only [Nat.mul_div_mul_right _ _ hk, Nat.mul_mod_mul_right, ← mul_assoc, Nat.mul_lt_mul_right hk]

theorem F64.round_mul_right (neg : Bool) (num den : Nat) {k : Nat} (hk : 0 < k) :
    F64.round neg (num * k) (den * k) = F64.round neg num den := by
  have hexp : F64.roundExp (num * k) (den * k) = F64.roundExp num den := by
    rw [F64.roundExp, F64.roundExp, Nat.mul_div_mul_right _ _ hk]
  have hmant : F64.roundMant (num * k) (den * k) = F64.roundMant num den := by
    rw [F64.roundMant, hexp, mul_right_comm, roundHalfEven_mul_right _ _ hk, F64.roundMant]
  rw [F64.round_eq, F64.round_eq, hexp, hmant]

theorem F64.round_congr (neg : Bool) {a b c d : Nat} (hb : 0 < b) (hd : 0 < d) (h : a * d = c * b) :
    F64.round neg a b = F64.round neg c d := by
  rw [← F64.round_mul_right neg a b hd, h, mul_comm b d, F64.round_mul_right neg c d hb]

theorem F64.round_zero (neg : Bool) (den : Nat) : F64.round neg 0 den = .fin neg 0 0 := by
  have hexp : F64.roundExp 0 den = 0 := by simp [F64.roundExp]
  have hmant : F64.roundMant 0 den = 0 := by simp [F64.roundMant, roundHalfEven]
  rw [F64.round_eq, hexp, hmant]; rfl

theorem F64.one_pos : 0 < F64.one := by unfold F64.one; positivity

theorem F64.one_cast : ((F64.one : Nat) : ℚ) = 2 ^ 1074 := by rw [F64.one, Nat.cast_pow, Nat.cast_ofNat]

/-- The rounding of a rational, as the rounding of any fraction of units that it is. -/
theorem F64.ofRat_eq_round {r : ℚ} {k : Int} {d : Nat} (hd : 0 < d) (h : r = k / ((F64.one : ℚ) * d)) :
    F64.ofRat r.num r.den = F64.round (decide (k < 0)) k.natAbs d := by
  have hone := F64.one_pos
  unfold F64.ofRat
  generalize F64.one = u at *
  have hpos : (0 : ℚ) < (u : ℚ) * d := by positivity
  have hsign : r.num < 0 ↔ k < 0 := by
    rw [Rat.num_neg, h, div_lt_iff₀ hpos, zero_mul, Int.cast_lt_zero]
  have hcross : r.num * (u * d : Nat) = k * r.den := by
    have hr : (r.num : ℚ) / r.den = k / ((u : ℚ) * d) := by rw [Rat.num_div_den]; exact h
    have hden : (r.den : ℚ) ≠ 0 := by exact_mod_cast r.den_ne_zero
    rw [div_eq_div_iff hden hpos.ne'] at hr
    exact_mod_cast hr
  have habs : r.num.natAbs * (u * d) = k.natAbs * r.den := by
    have := congrArg Int.natAbs hcross
    rwa [Int.natAbs_mul, Int.natAbs_mul, Int.natAbs_natCast, Int.natAbs_natCast] at this
  rw [decide_eq_decide.mpr hsign]
  exact F64.round_congr _ r.den_pos hd (by rw [← habs]; ring)

/-! ### The operations on finite values -/

theorem signed_eq_zero {neg : Bool} {k : Nat} : signed neg k = 0 ↔ k = 0 := by cases neg <;> simp [signed]

@[simp] theorem natAbs_signed (neg : Bool) (k : Nat) : (signed neg k).natAbs = k := by cases neg <;> simp [signed]

theorem decide_signed_neg (neg : Bool) {k : Nat} (h : k ≠ 0) : decide (signed neg k < 0) = neg := by
  cases neg
  · exact decide_eq_false (Int.natCast_nonneg k).not_gt
  · exact decide_eq_true (by simp only [signed, if_true]; omega)

theorem signed_not (neg : Bool) (k : Nat) : signed (!neg) k = -signed neg k := by cases neg <;> simp [signed]

theorem signed_mul (s t : Bool) (a b : Nat) : signed s a * signed t b = signed (s != t) (a * b) := by
  cases s <;> cases t <;> simp [signed]

theorem F64.units_eq_zero {m e : Nat} : F64.units m e = 0 ↔ m = 0 := by simp [F64.units]

theorem F64.toRat_fin (s : Bool) (m e : Nat) : (F64.fin s m e).toRat = signed s (F64.units m e) / (F64.one : ℚ) := by
  rw [F64.toRat, F64.one_cast]

theorem F64.toRat_neg (s : Bool) (m e : Nat) : (F64.fin (!s) m e).toRat = -(F64.fin s m e).toRat := by
  rw [F64.toRat_fin, F64.toRat_fin, signed_not, Int.cast_neg, neg_div]

theorem F64.toRat_eq_zero {s : Bool} {m e : Nat} : (F64.fin s m e).toRat = 0 ↔ F64.units m e = 0 := by
  have hone : (F64.one : ℚ) ≠ 0 := by exact_mod_cast F64.one_pos.ne'
  rw [F64.toRat_fin, div_eq_zero_iff, or_iff_left hone, Int.cast_eq_zero, signed_eq_zero]

variable (s t : Bool) (m e n f : Nat)

/-- The sum in units. -/
theorem F64.toRat_add : (F64.fin s m e).toRat + (F64.fin t n f).toRat =
    ((signed s (F64.units m e) + signed t (F64.units n f) : Int) : ℚ) / ((F64.one : ℚ) * (1 : Nat)) := by
  rw [F64.toRat_fin, F64.toRat_fin, Nat.cast_one, mul_one, ← add_div, Int.cast_add]

theorem F64.toRat_add_eq_zero : (F64.fin s m e).toRat + (F64.fin t n f).toRat = 0 ↔
    signed s (F64.units m e) + signed t (F64.units n f) = 0 := by
  have hone : (F64.one : ℚ) * (1 : Nat) ≠ 0 := by rw [Nat.cast_one, mul_one]; exact_mod_cast F64.one_pos.ne'
  rw [F64.toRat_add, div_eq_zero_iff, or_iff_left hone, Int.cast_eq_zero]

theorem F64.add_of_ne_zero (h : (F64.fin s m e).toRat + (F64.fin t n f).toRat ≠ 0) :
    F64.add (.fin s m e) (.fin t n f) = F64.ofRat ((F64.fin s m e).toRat + (F64.fin t n f).toRat).num
      ((F64.fin s m e).toRat + (F64.fin t n f).toRat).den := by
  rw [F64.ofRat_eq_round Nat.one_pos (F64.toRat_add s t m e n f)]
  exact if_neg (mt (F64.toRat_add_eq_zero s t m e n f).mpr h)

theorem F64.add_of_eq_zero (h : (F64.fin s m e).toRat + (F64.fin t n f).toRat = 0) :
    F64.add (.fin s m e) (.fin t n f) = .fin (s && t) 0 0 :=
  if_pos ((F64.toRat_add_eq_zero s t m e n f).mp h)

/-- A fraction of units with a sign is the rational it rounds. -/
theorem F64.round_signed (neg : Bool) {k d : Nat} (hk : k ≠ 0) (hd : 0 < d) {r : ℚ}
    (h : r = (signed neg k : ℚ) / ((F64.one : ℚ) * d)) : F64.round neg k d = F64.ofRat r.num r.den := by
  rw [F64.ofRat_eq_round hd h, decide_signed_neg neg hk, natAbs_signed]

theorem F64.toRat_mul : (F64.fin s m e).toRat * (F64.fin t n f).toRat =
    (signed (s != t) (F64.units m e * F64.units n f) : ℚ) / ((F64.one : ℚ) * F64.one) := by
  rw [F64.toRat_fin, F64.toRat_fin, div_mul_div_comm, ← Int.cast_mul, signed_mul]

theorem F64.mul_of_ne_zero (h : (F64.fin s m e).toRat * (F64.fin t n f).toRat ≠ 0) :
    F64.mul (.fin s m e) (.fin t n f) = F64.ofRat ((F64.fin s m e).toRat * (F64.fin t n f).toRat).num
      ((F64.fin s m e).toRat * (F64.fin t n f).toRat).den := by
  have hx := mt F64.toRat_eq_zero.mpr (left_ne_zero_of_mul h)
  have hy := mt F64.toRat_eq_zero.mpr (right_ne_zero_of_mul h)
  exact F64.round_signed (s != t) (mul_ne_zero hx hy) F64.one_pos (F64.toRat_mul s t m e n f)

theorem F64.mul_of_eq_zero (h : (F64.fin s m e).toRat * (F64.fin t n f).toRat = 0) :
    F64.mul (.fin s m e) (.fin t n f) = .fin (s != t) 0 0 := by
  have hzero : F64.units m e * F64.units n f = 0 :=
    mul_eq_zero.mpr ((mul_eq_zero.mp h).imp F64.toRat_eq_zero.mp F64.toRat_eq_zero.mp)
  rw [F64.mul, hzero, F64.round_zero]

theorem F64.div_of_divisor (h : (F64.fin t n f).toRat ≠ 0) : F64.div (.fin s m e) (.fin t n f) =
    F64.round (s != t) (F64.one * F64.units m e) (F64.units n f) :=
  if_neg (mt F64.units_eq_zero.mpr (mt F64.toRat_eq_zero.mpr h))

theorem F64.toRat_div : (F64.fin s m e).toRat / (F64.fin t n f).toRat =
    (signed (s != t) (F64.one * F64.units m e) : ℚ) / ((F64.one : ℚ) * F64.units n f) := by
  have hone : (F64.one : ℚ) ≠ 0 := by exact_mod_cast F64.one_pos.ne'
  rw [F64.toRat_fin, F64.toRat_fin, div_div_div_cancel_right₀ hone]
  generalize F64.one = u at *
  cases s <;> cases t <;> simp [signed, hone, neg_div, div_neg, mul_div_mul_left]

theorem F64.div_of_ne_zero (hx : (F64.fin s m e).toRat ≠ 0) (hy : (F64.fin t n f).toRat ≠ 0) :
    F64.div (.fin s m e) (.fin t n f) = F64.ofRat ((F64.fin s m e).toRat / (F64.fin t n f).toRat).num
      ((F64.fin s m e).toRat / (F64.fin t n f).toRat).den := by
  have hk := mt F64.toRat_eq_zero.mpr hx
  have hd := mt F64.toRat_eq_zero.mpr hy
  rw [F64.div_of_divisor s t m e n f hy]
  exact F64.round_signed (s != t) (mul_ne_zero F64.one_pos.ne' hk) (Nat.pos_of_ne_zero hd) (F64.toRat_div s t m e n f)

theorem F64.div_of_eq_zero (hx : (F64.fin s m e).toRat = 0) (hy : (F64.fin t n f).toRat ≠ 0) :
    F64.div (.fin s m e) (.fin t n f) = .fin (s != t) 0 0 := by
  rw [F64.div_of_divisor s t m e n f hy, F64.toRat_eq_zero.mp hx, mul_zero, F64.round_zero]

/-- Settles O23: the rounded significand is the nearest whole number of its unit, and each operation's result in units is the
fraction that the rounding of the exact rational starts from. -/
theorem roundingIsToNearestEven : Obligations.RoundingIsToNearestEven := by
  refine ⟨fun neg num den hd => ⟨F64.round_nearest neg hd, F64.round_of_le neg hd⟩, ?operations, fun _ _ => rfl⟩
  case operations =>
    intro s t m e n f x y
    have hsub : x.toRat - y.toRat = x.toRat + (F64.fin (!t) n f).toRat := by rw [F64.toRat_neg, ← sub_eq_add_neg]
    refine ⟨F64.add_of_ne_zero s t m e n f, F64.add_of_eq_zero s t m e n f, ?subNe, ?subEq, F64.mul_of_ne_zero s t m e n f,
      F64.mul_of_eq_zero s t m e n f, F64.div_of_ne_zero s t m e n f, F64.div_of_eq_zero s t m e n f⟩
    case subNe => rw [hsub]; exact F64.add_of_ne_zero s (!t) m e n f
    case subEq => rw [hsub]; exact F64.add_of_eq_zero s (!t) m e n f

end Sys2Proof
end

section
/-! PROOFS. TwosComplementDecoder (42_twos_complement.md R150 to R154), and the ROM reads LSB_SIZE and CONV_INTERVAL
(41_configword.md R135 to R138): values computed in either datapath, and the one response that carries them. -/

namespace Sys2Proof

/-! ### A response computed in the state's datapath -/

/-- An operation whose operands are admitted and whose meaning is here one response does nothing else. -/
theorem Machine.checked_respond_onlyResponds {ok : Bool} (h : ok = true) {run : State → State} {s : State} {r : Response}
    (hrun : run s = s.respond r) : ∃ t, checked ok run s = .next t ∧ s.OnlyResponds t r :=
  ⟨s.respond r, by rw [checked_eq_next h, hrun], s.onlyResponds_respond r⟩

theorem Machine.State.compute_binary64 {s : State} (h : s.num = .binary64)
    (f : {α : Type} → Num α → (BitVec 64 → α) → α) : s.compute f = .b64 (f Num.binary64 F64.ofBits) := by
  simp only [compute, h]

theorem Machine.State.compute_exact {s : State} (h : s.num = .exact) (f : {α : Type} → Num α → (BitVec 64 → α) → α) :
    s.compute f = .exact (f Num.exactData s.realOf) := by
  simp only [compute, h]

/-! ### The two's-complement value (00_scope.md R12) -/

/-- A sequence and its inversion together fill every bit. -/
theorem uint_invert_add (b : BitSeq) : uint (invert b) + uint b + 1 = 2 ^ b.length := by
  induction b with
  | nil => rfl
  | cons d b ih =>
    have hlen : (invert b).length = b.length := List.length_map _
    rw [invert] at *
    rw [List.map_cons, uint, uint, hlen, List.length_cons, pow_succ]
    cases d <;> simp <;> omega

theorem sint_of_head_false {b : BitSeq} (h : b.headD false = false) : sint b = uint b := by
  rw [sint, if_neg (by rw [h]; exact Bool.false_ne_true), sub_zero]

theorem sint_of_head_true {b : BitSeq} (h : b.headD false = true) : sint b = -((uint (invert b) + 1 : Nat) : Int) := by
  have hfill := uint_invert_add b
  have hpow : (2 ^ b.length : Int) = ((2 ^ b.length : Nat) : Int) := by push_cast; rfl
  rw [sint, if_pos h, hpow, ← hfill]; push_cast; ring

theorem natAbs_sint_le (b : BitSeq) : (sint b).natAbs ≤ 2 ^ b.length := by
  have hfill := uint_invert_add b
  cases h : b.headD false with
  | false => rw [sint_of_head_false h]; omega
  | true => rw [sint_of_head_true h]; omega

/-! ### TC_DECODE (R150, R151) -/

theorem Machine.tcDecode_of_head_false {α : Type} (N : Num α) {b : BitSeq} (h : b.headD false = false) (lsb : α) :
    tcDecode N b lsb = N.mul lsb (N.int (uint b)) := if_pos h

theorem Machine.tcDecode_of_head_true {α : Type} (N : Num α) {b : BitSeq} (h : b.headD false = true) (lsb : α) :
    tcDecode N b lsb = N.mul (N.neg lsb) (N.int (uint (invert b) + 1)) := by
  rw [tcDecode, if_neg (by rw [h]; exact Bool.true_eq_false.mp)]

/-- The sign of a factor may be moved to the other, NaNs and infinities included. -/
theorem F64.neg_mul (x y : F64) : F64.mul x.neg y = F64.mul x y.neg := by
  have hsign (s t : Bool) : ((!s) != t) = (s != !t) := by cases s <;> cases t <;> rfl
  cases x <;> cases y <;> simp only [F64.mul, F64.neg, hsign]

theorem F64.ofRat_neg {k : Int} (hk : k ≠ 0) (den : Nat) : F64.ofRat (-k) den = (F64.ofRat k den).neg := by
  have hsign : decide (-k < 0) = !decide (k < 0) := by rw [← decide_not]; exact decide_eq_decide.mpr (by omega)
  rw [F64.ofRat, F64.ofRat, hsign, Int.natAbs_neg, F64.round_not]

theorem Machine.tcDecode_binary64 (b : BitSeq) (lsb : F64) :
    tcDecode Num.binary64 b lsb = F64.mul lsb (F64.ofRat (sint b) 1) := by
  cases h : b.headD false with
  | false => rw [tcDecode_of_head_false _ h, sint_of_head_false h, Num.binary64_int, Num.binary64_mul]
  | true =>
    rw [tcDecode_of_head_true _ h, sint_of_head_true h, Num.binary64_int, Num.binary64_mul, Num.binary64_neg, F64.neg_mul,
      F64.ofRat_neg (by omega)]
    rfl

theorem Machine.tcDecode_exact (b : BitSeq) (lsb : ℝ) : tcDecode Num.exact b lsb = lsb * (sint b : ℝ) := by
  cases h : b.headD false with
  | false => rw [tcDecode_of_head_false _ h, sint_of_head_false h, Num.exact_int, Num.exact_mul]
  | true =>
    rw [tcDecode_of_head_true _ h, sint_of_head_true h, Num.exact_int, Num.exact_mul, Num.exact_neg]
    push_cast; ring

/-- Settles O26: the negative branch is the positive one with the sign moved from the integer to the lsb. -/
theorem tcDecodeIsProductWithSint : Obligations.TcDecodeIsProductWithSint :=
  ⟨fun b lsb _ => Machine.tcDecode_binary64 b lsb, fun b lsb _ => Machine.tcDecode_exact b lsb⟩

theorem Machine.exec_tcDecode (b : BitSeq) (x : BitVec 64) (s : State) : exec (.tcDecode b x) s =
    checked (seqOk b && realOk x) (fun s => s.succeed (.real (s.compute fun N real => tcDecode N b (real x)))) s := rfl

theorem Machine.seqOk_and_realOk_eq_true {b : BitSeq} {x : BitVec 64} (h1 : 1 ≤ b.length) (h2 : b.length ≤ 32)
    (hx : (F64.ofBits x).isFinite = true) : (seqOk b && realOk x) = true := by
  rw [(seqOk_eq_true b).mpr ⟨h1, h2⟩, realOk_eq, hx]; rfl

/-- Settles O25: the response carries TC_DECODE in the state's datapath, and each branch is the one of the sign bit. -/
theorem tcDecodeFollowsSignBit : Obligations.TcDecodeFollowsSignBit := by
  intro b x s
  rw [Machine.exec_tcDecode]
  refine ⟨fun h1 h2 hx => ⟨?binary64, ?exact⟩, fun hbad => ?malformed⟩
  case binary64 =>
    intro hnum
    have hval : s.compute (fun N real => Machine.tcDecode N b (real x)) = .b64 (Machine.tcDecode Num.binary64 b (F64.ofBits x)) :=
      Machine.State.compute_binary64 hnum _
    refine Machine.checked_respond_onlyResponds (Machine.seqOk_and_realOk_eq_true h1 h2 hx) ?_
    rw [hval, Machine.State.succeed_eq, Machine.tcDecode]
    simp only [Num.binary64_mul, Num.binary64_int, Num.binary64_neg, invert]
  case exact =>
    intro hnum
    have hval : s.compute (fun N real => Machine.tcDecode N b (real x)) =
        .exact (Machine.tcDecode Num.exactData b (s.realOf x)) := Machine.State.compute_exact hnum _
    obtain ⟨t, ht, hresp⟩ := Machine.checked_respond_onlyResponds (Machine.seqOk_and_realOk_eq_true h1 h2 hx)
      (run := fun s => s.succeed (.real (s.compute fun N real => Machine.tcDecode N b (real x)))) (s := s) rfl
    refine ⟨_, t, ht, hresp, _, hval, ?_⟩
    rw [Machine.toReal_tcDecode, ← Machine.State.operand, Machine.tcDecode]
    simp only [Num.exact_mul, Num.exact_int, Num.exact_neg, invert]
    push_cast; rfl
  case malformed =>
    exact Machine.checked_malformed_onlyResponds ((Machine.seqOk_and_realOk_eq_false b x).mpr hbad) _ s

/-! ### INTERPRET (R153, R154) -/

/-- A whole number of at most 53 bits is a binary64 value. -/
theorem F64.ofRat_int {k : Int} (hk : k.natAbs < 2 ^ 53) :
    ∃ m e, F64.ofRat k 1 = .fin (decide (k < 0)) m e ∧ F64.units m e = k.natAbs * F64.one := by
  obtain ⟨m, e, hround, hval⟩ := F64.round_exact (decide (k < 0)) k.natAbs 1074 1 hk (by decide) Nat.one_pos
  refine ⟨m, e, ?_, hval⟩
  rw [F64.ofRat, mul_comm F64.one, F64.one]
  rw [mul_one] at hround
  exact hround

theorem signed_natAbs_mul (k : Int) (c : Nat) : signed (decide (k < 0)) (k.natAbs * c) = k * c := by
  rcases lt_or_ge k 0 with h | h
  · rw [decide_eq_true h, signed, if_pos rfl, Nat.cast_mul, Int.ofNat_natAbs_of_nonpos h.le, neg_mul, neg_neg]
  · rw [decide_eq_false h.not_gt, signed, if_neg Bool.false_ne_true, Nat.cast_mul, Int.natAbs_of_nonneg h]

/-- TEMP_LSB is 2^-5, so it scales such a number exactly. -/
theorem F64.mul_tempLsb {k : Int} (hk : k.natAbs < 2 ^ 53) :
    (F64.mul (F64.ofRat 3125 (10 ^ 5)) (F64.ofRat k 1)).isFinite = true ∧
    (F64.mul (F64.ofRat 3125 (10 ^ 5)) (F64.ofRat k 1)).toRat = (k : ℚ) / 32 := by
  have hlsb : F64.ofRat 3125 (10 ^ 5) = .fin false (2 ^ 52) 1017 := by decide +kernel
  obtain ⟨m, e, hint, hunits⟩ := F64.ofRat_int hk
  obtain ⟨m', e', hround, hval⟩ := F64.round_exact (decide (k < 0)) k.natAbs 1069 F64.one hk (by decide) F64.one_pos
  have hnum : F64.units (2 ^ 52) 1017 * F64.units m e = k.natAbs * 2 ^ 1069 * F64.one := by
    rw [hunits, F64.units, ← pow_add, mul_left_comm, mul_assoc]
  have hmul : F64.mul (F64.ofRat 3125 (10 ^ 5)) (F64.ofRat k 1) = .fin (decide (k < 0)) m' e' := by
    rw [hlsb, hint, F64.mul, hnum, Bool.false_bne, hround]
  have hone : F64.one = 2 ^ 5 * 2 ^ 1069 := by rw [F64.one, show 1074 = 5 + 1069 from rfl, pow_add]
  have hpos : (0 : ℚ) < (2 ^ 1069 : Nat) := by positivity
  rw [hmul, F64.toRat_fin, F64.units, hval, signed_natAbs_mul, hone]
  generalize 2 ^ 1069 = c at *
  refine ⟨rfl, ?_⟩
  push_cast
  exact mul_div_mul_right _ _ hpos.ne'

theorem Machine.exec_interpret (c : AdcConfig) (d : BitSeq) (s : State) :
    exec (.interpret c d) s = checked (seq16Ok d) (fun s => s.succeed (.meas (interpret s.num c d))) s := rfl

theorem Machine.interpretKind_eq (c : AdcConfig) :
    interpretKind c = if c.tempSensor then .temperature else .voltage := rfl

theorem Machine.interpretValue_temperature {α : Type} (N : Num α) {c : AdcConfig} (h : c.tempSensor = true) (d : BitSeq) :
    interpretValue N c d = tcDecode N (d.take 14) (tempLsb N) := if_pos h

theorem Machine.interpretValue_voltage {α : Type} (N : Num α) {c : AdcConfig} (h : c.tempSensor = false) (d : BitSeq) :
    interpretValue N c d = tcDecode N d (lsbTable N c.gain) := if_neg (by rw [h]; exact Bool.false_ne_true)

theorem Machine.interpret_binary64 (c : AdcConfig) (d : BitSeq) :
    (interpret .binary64 c d).value = .b64 (interpretValue Num.binary64 c d) := rfl

theorem Machine.interpret_exact (c : AdcConfig) (d : BitSeq) :
    (interpret .exact c d).value.IsReal (interpretValue Num.exact c d) := ⟨_, rfl, toReal_interpretValue c d⟩

theorem Machine.tempLsb_binary64 : tempLsb Num.binary64 = F64.ofRat 3125 (10 ^ 5) := by rw [tempLsb, Num.binary64_dec]

theorem Machine.tempLsb_exact : tempLsb Num.exact = 1 / 32 := by rw [tempLsb, Num.exact_dec]; norm_num

/-- A Temperature value under BINARY64_RNE: at most 14 bits, scaled by a power of two. -/
theorem Machine.temperature_binary64 (b : BitSeq) (h : b.length ≤ 52) :
    (tcDecode Num.binary64 b (F64.ofRat 3125 (10 ^ 5))).isFinite = true ∧
    (tcDecode Num.binary64 b (F64.ofRat 3125 (10 ^ 5))).toRat = (sint b : ℚ) / 32 := by
  rw [tcDecode_binary64]
  refine F64.mul_tempLsb ((natAbs_sint_le b).trans_lt ?_)
  exact Nat.pow_lt_pow_right (by decide) (by omega)

/-- Settles O27: the response carries the Measurement; its kind is that of temp_sensor, its value TC_DECODE of what R153
selects. -/
theorem interpretTagsAndScales : Obligations.InterpretTagsAndScales := by
  intro c d s
  rw [Machine.exec_interpret]
  refine ⟨fun hlen => ?measurement, fun hlen => ?malformed⟩
  case malformed => exact Machine.checked_malformed_onlyResponds ((Machine.seq16Ok_eq_false d).mpr hlen) _ s
  case measurement =>
    obtain ⟨t, ht, hresp⟩ := Machine.checked_respond_onlyResponds ((Machine.seq16Ok_eq_true d).mpr hlen)
      (run := fun s => s.succeed (.meas (Machine.interpret s.num c d))) (s := s) rfl
    refine ⟨Machine.interpret s.num c d, t, ht, hresp, fun htemp => ⟨?kindT, fun hnum => ?b64T, fun hnum => ?exactT⟩,
      fun hvolt => ⟨?kindV, fun hnum => ?b64V, fun hnum => ?exactV⟩⟩
    case kindT => exact (Machine.interpretKind_eq c).trans (if_pos htemp)
    case kindV => exact (Machine.interpretKind_eq c).trans (if_neg (by rw [hvolt]; exact Bool.false_ne_true))
    case b64T =>
      have hbits : (d.take 14).length ≤ 52 := (List.length_take_le 14 d).trans (by decide)
      obtain ⟨hfin, hval⟩ := Machine.temperature_binary64 (d.take 14) hbits
      rw [hnum, Machine.interpret_binary64, Machine.interpretValue_temperature _ htemp, Machine.tempLsb_binary64]
      exact ⟨_, rfl, rfl, hfin, hval⟩
    case exactT =>
      have hval := Machine.interpret_exact c d
      rw [Machine.interpretValue_temperature _ htemp, Machine.tcDecode_exact, Machine.tempLsb_exact, one_div_mul_eq_div] at hval
      rwa [hnum]
    case b64V => rw [hnum, Machine.interpret_binary64, Machine.interpretValue_voltage _ hvolt]
    case exactV =>
      have hval := Machine.interpret_exact c d
      rw [Machine.interpretValue_voltage _ hvolt, Machine.tcDecode_exact] at hval
      rwa [hnum]

/-! ### LSB_SIZE and CONV_INTERVAL -/

theorem Machine.exec_lsbSize (g : BitVec 3) (s : State) :
    exec (.lsbSize g) s = checked true (fun s => s.succeed (.real (s.num.eval fun N => lsbTable N g))) s := rfl

theorem Machine.exec_convInterval (d : BitVec 3) (s : State) :
    exec (.convInterval d) s = checked true (fun s => s.succeed (.real (s.num.eval fun N => convIntervalTable N d))) s := rfl

/-- The default LSB_TABLE, evaluated at its 8 codes in each datapath (41_configword.md R136). -/
theorem Machine.lsbTable_values (k : NumKind) : ∀ g : BitVec 3, (k.eval fun N => lsbTable N g) =
    [k.ratio 1875 (10 ^ 7), k.ratio 125 (10 ^ 6), k.ratio 625 (10 ^ 7), k.ratio 3125 (10 ^ 8), k.ratio 15625 (10 ^ 9),
      k.ratio 78125 (10 ^ 10), k.ratio 78125 (10 ^ 10), k.ratio 78125 (10 ^ 10)].getD g.toNat (.b64 .nan) := by
  cases k <;> decide +kernel

/-- The default CONV_INTERVAL, evaluated at its 8 codes in each datapath (41_configword.md R138). -/
theorem Machine.convIntervalTable_values (k : NumKind) : ∀ d : BitVec 3, (k.eval fun N => convIntervalTable N d) =
    [k.ratio 1 8, k.ratio 1 16, k.ratio 1 32, k.ratio 1 64, k.ratio 1 128, k.ratio 1 250, k.ratio 1 475,
      k.ratio 1 860].getD d.toNat (.b64 .nan) := by
  cases k <;> decide +kernel

theorem Machine.lsbTable_exact (g : BitVec 3) :
    lsbTable Num.exact g = ((fsr.getD g.toNat ⟨512, 3⟩).mant : ℝ) / 10 ^ (fsr.getD g.toNat ⟨512, 3⟩).scale / 65536 := by
  rw [lsbTable, Num.exact_div, Num.exact_dec, Num.exact_int]; norm_num

theorem Machine.convIntervalTable_exact (d : BitVec 3) :
    convIntervalTable Num.exact d = 1 / ((sps.getD d.toNat 860 : Int) : ℝ) := by
  rw [convIntervalTable, Num.exact_div, Num.exact_int, Num.exact_int, Int.cast_one]

/-- Settles O20: the response carries the table's entry, and the table is evaluated. -/
theorem lsbSizeReadsTable : Obligations.LsbSizeReadsTable := by
  refine ⟨?entry, by decide +kernel, ⟨?alias6, ?alias7⟩, by decide +kernel, ?decrease⟩
  case entry =>
    intro g s
    rw [Machine.exec_lsbSize, ← Machine.lsbTable_values]
    exact Machine.checked_respond_onlyResponds rfl rfl
  case alias6 => rw [Machine.lsbTable_exact, Machine.lsbTable_exact]; rfl
  case alias7 => rw [Machine.lsbTable_exact, Machine.lsbTable_exact]; rfl
  case decrease =>
    intro g hg
    rw [Machine.lsbTable_exact, Machine.lsbTable_exact]
    interval_cases g <;> norm_num [Machine.fsr]

/-- Settles O21: likewise. -/
theorem convIntervalReadsTable : Obligations.ConvIntervalReadsTable := by
  refine ⟨?entry, by decide +kernel, ?decrease⟩
  case entry =>
    intro d s
    rw [Machine.exec_convInterval, ← Machine.convIntervalTable_values]
    exact Machine.checked_respond_onlyResponds rfl rfl
  case decrease =>
    intro d hd
    rw [Machine.convIntervalTable_exact, Machine.convIntervalTable_exact]
    interval_cases d <;> norm_num [Machine.sps]

end Sys2Proof
end

section
/-! PROOFS. The response record (30_encoding.md R90, R92, R93), field by field, and what the reference device REF_DEV
(43_adc_channel.md R161) makes an exchange read. -/

namespace Sys2Proof

/-! ### STATUS and INFO -/

theorem Machine.popcount16_le (e : Word16) : popcount16 e ≤ 16 := by
  have hcount : (seq16 e).count true ≤ (seq16 e).length := List.count_le_length
  rwa [seq16, length_toBits] at hcount

theorem Machine.bits_fault (n : Nat) (f : HostFault) :
    (Response.fault f).bits n = toBits 3 f.status.toNat ++ toBits 5 f.info.toNat := List.append_nil _

theorem Machine.bits_connectionFault (n : Nat) {k : Nat} (h : k < 32) :
    (Response.fault (.connectionFault k)).bits n = toBits 3 1 ++ toBits 5 k := by
  rw [bits_fault, HostFault.info, BitVec.toNat_ofNat, Nat.mod_eq_of_lt h]; rfl

theorem Machine.status_le (r : Response) : r.status.toNat ≤ 5 := by
  cases r with
  | ok _ => exact Nat.zero_le 5
  | fault f => cases f <;> simp [Response.status, HostFault.status]

/-! ### A finite value has one pattern (REAL) -/

/-- The value of a pattern given by its sign, exponent field and fraction (30_encoding.md R92, REAL). -/
theorem F64.ofBits_fields (neg : Bool) {ex frac : Nat} (hex : ex < 2048) (hfrac : frac < 2 ^ 52) :
    F64.ofBits (BitVec.ofNat 64 (neg.toNat * 2 ^ 63 + ex * 2 ^ 52 + frac)) =
      if ex = 2047 then (if frac = 0 then .inf neg else .nan)
      else if ex = 0 then .fin neg frac 0 else .fin neg (2 ^ 52 + frac) (ex - 1) := by
  have hneg : neg.toNat ≤ 1 := Bool.toNat_le neg
  have hnat : (BitVec.ofNat 64 (neg.toNat * 2 ^ 63 + ex * 2 ^ 52 + frac)).toNat =
      neg.toNat * 2 ^ 63 + ex * 2 ^ 52 + frac := by
    rw [BitVec.toNat_ofNat, Nat.mod_eq_of_lt (by omega)]
  have hsign : (neg.toNat * 2 ^ 63 + ex * 2 ^ 52 + frac).testBit 63 = neg := by
    rw [add_assoc, mul_comm, Nat.testBit_two_pow_mul_add _ (by omega), if_neg (by decide)]
    cases neg <;> rfl
  have hexp : (neg.toNat * 2 ^ 63 + ex * 2 ^ 52 + frac) / 2 ^ 52 % 2048 = ex := by omega
  have hfr : (neg.toNat * 2 ^ 63 + ex * 2 ^ 52 + frac) % 2 ^ 52 = frac := by omega
  rw [F64.ofBits, hnat]
  simp only [hsign, hexp, hfr]

theorem F64.ofBits_toBits (sign : Bool) (payload : BitVec 51) {x : F64} (h : x.wf = true) :
    F64.ofBits (x.toBits sign payload) = x := by
  cases x with
  | nan =>
    have hp := payload.isLt
    rw [F64.toBits, show sign.toNat * 2 ^ 63 + 4095 * 2 ^ 51 + payload.toNat =
      sign.toNat * 2 ^ 63 + 2047 * 2 ^ 52 + (2 ^ 51 + payload.toNat) by omega,
      F64.ofBits_fields sign (by decide) (by omega), if_pos rfl, if_neg (by omega)]
  | inf neg =>
    have hfields := F64.ofBits_fields neg (ex := 2047) (frac := 0) (by decide) (by decide)
    rwa [add_zero, if_pos rfl, if_pos rfl] at hfields
  | fin neg m e =>
    obtain ⟨hm, he, hnorm⟩ := of_decide_eq_true h
    rw [F64.toBits]
    split
    next hsub =>
      obtain rfl : e = 0 := hnorm.resolve_right (by omega)
      have hfields := F64.ofBits_fields neg (ex := 0) (by decide) hsub
      rwa [zero_mul, add_zero] at hfields
    next hnormal =>
      have hfrac : m - 2 ^ 52 < 2 ^ 52 := by omega
      rw [← add_assoc, F64.ofBits_fields neg (by omega) hfrac, if_neg (by omega), if_neg (by omega)]
      rw [show 2 ^ 52 + (m - 2 ^ 52) = m by omega, Nat.add_sub_cancel]

theorem Machine.bits_real (n : Nat) (v : Value) : ∃ b : BitVec 64, (Payload.real v).bits n = toBits 64 b.toNat ∧
    ∀ x, v = .b64 x → x.wf = true → F64.ofBits b = x := by
  cases v with
  | b64 x => exact ⟨_, rfl, fun y hy hwf => by cases hy; exact F64.ofBits_toBits _ _ hwf⟩
  | exact e => exact ⟨_, rfl, nofun⟩

/-! ### SEQ -/

theorem Machine.bits_seq (n : Nat) {s : BitSeq} (h : s.length ≤ 32) :
    ∃ pad, pad.length = 32 - s.length ∧ (Payload.seq s).bits n = toBits 6 s.length ++ s ++ pad := by
  refine ⟨(List.replicate 32 false).take (32 - s.length), ?_, ?_⟩
  · rw [List.length_take, List.length_replicate]; omega
  · rw [Payload.bits, resultSeqField, List.take_append, List.take_of_length_le h, List.append_assoc]

/-- Settles O13: the record is STATUS, INFO and the result fields, each as R92 writes it. -/
theorem responseStatusAndInfo : Obligations.ResponseStatusAndInfo := by
  intro n
  refine ⟨?connection, ?outOfRange, ?malformed, ?illegal, ?notInitialized, ?success, ?status, ?nothing, ?seq, ?u, ?cfg, ?real,
    ?meas, ?raw, ?measList⟩
  case connection =>
    intro e
    have hle := Machine.popcount16_le e
    exact ⟨hle, Machine.bits_connectionFault n (by omega)⟩
  case outOfRange | malformed | illegal | notInitialized => exact Machine.bits_fault n _
  case success => exact fun _ => rfl
  case status => exact Machine.status_le
  case nothing => rfl
  case seq => exact fun s => Machine.bits_seq n
  case u => exact fun _ => rfl
  case cfg => exact fun _ => rfl
  case real => exact Machine.bits_real n
  case meas => exact fun _ => ⟨rfl, rfl⟩
  case raw => exact fun _ _ => rfl
  case measList => exact fun _ => rfl

/-! ### REF_DEV (43_adc_channel.md R161) -/

/-- Where the environment has fixed the next samples, they are the ones taken. -/
theorem Machine.State.upcoming_of_din {s : State} {pre l rest : List Bool} (h : s.din = pre ++ (l ++ rest)) {k : Nat}
    (hk : k < l.length) : s.upcoming (pre.length + k) = l[k] := by
  rw [upcoming, h, List.getElem?_append_right (by omega), Nat.add_sub_cancel_left, List.getElem?_append_left hk,
    List.getElem?_eq_getElem hk, Option.getD_some]

theorem Machine.State.sampledWord_of_din {s : State} {pre rest : List Bool} {w : Word16}
    (h : s.din = pre ++ (seq16 w ++ rest)) : s.sampledWord pre.length = w := by
  have hlen : (seq16 w).length = 16 := length_toBits 16 _
  have hbits : (List.range 16).map (fun j => s.upcoming (pre.length + j)) = seq16 w := by
    apply List.ext_getElem
    · rw [List.length_map, List.length_range, hlen]
    · intro j _ hj
      rw [List.getElem_map, List.getElem_range, upcoming_of_din h hj]
  rw [sampledWord, hbits, word16_seq16]

/-- The 32 levels of an exchange with REF_DEV are the command and PEND. -/
theorem Machine.exchange_refDevice {s : State} {d : RefDevice} {c : Word16} {rest : List Bool} (hecho : d.badEcho = none)
    (h : s.din = d.answer c ++ rest) : (s.exchange c).rawExchange = ⟨c, d.pend⟩ ∧ (s.exchange c).din = rest := by
  have hanswer : d.answer c = seq16 c ++ seq16 d.pend := by rw [RefDevice.answer, hecho]; rfl
  have hlen (w : Word16) : (seq16 w).length = 16 := length_toBits 16 _
  rw [hanswer, List.append_assoc] at h
  have hcmd : s.sampledWord 0 = c := State.sampledWord_of_din (pre := []) h
  have hdata : s.sampledWord 16 = d.pend := by
    have := State.sampledWord_of_din h
    rwa [hlen] at this
  refine ⟨?_, ?_⟩
  · rw [State.exchange_rawExchange, State.sampledRaw, hcmd, hdata]
  · rw [State.exchange_din, h, ← List.append_assoc, List.drop_left' (by rw [List.length_append, hlen, hlen])]

/-- Settles O29: one exchange reads the command and PEND, and the next one the DATA that PEND has become. -/
theorem referenceDeviceEchoesAndLags : Obligations.ReferenceDeviceEchoesAndLags := by
  intro s d c hecho
  refine ⟨fun rest h => Machine.exchange_refDevice hecho h, fun data c2 rest h => ?_⟩
  obtain ⟨hraw, hdin⟩ := Machine.exchange_refDevice hecho h
  obtain ⟨hraw2, hdin2⟩ := Machine.exchange_refDevice (d := d.after data) hecho hdin
  exact ⟨hraw, rfl, hraw2, hdin2⟩

end Sys2Proof
end

section
/-! PROOFS. Fractions under BINARY64_RNE (00_scope.md R13): how far the rounding of a fraction is from it, that it keeps the order
of fractions well apart, and what the operations do with a zero. -/

namespace Sys2Proof

/-! ### The error of rounding a fraction -/

theorem two_pow_mul_lt {a b c k : Nat} (h : a + b ≤ c) (hk : k < 2 ^ b) : 2 ^ a * k < 2 ^ c :=
  calc 2 ^ a * k < 2 ^ a * 2 ^ b := Nat.mul_lt_mul_of_pos_left hk (by positivity)
    _ = 2 ^ (a + b) := (pow_add _ _ _).symm
    _ ≤ 2 ^ c := Nat.pow_le_pow_right (by decide) h

/-- The unit of a rounding is at most the number's 2^-52, or the least unit. -/
theorem F64.roundExp_unit_le {num den : Nat} (hd : 0 < den) (hleast : den * 2 ^ 52 ≤ num) :
    2 ^ 52 * (den * 2 ^ F64.roundExp num den) ≤ num := by
  by_cases h : F64.roundExp num den = 0
  · rw [h, pow_zero, mul_one, mul_comm]; exact hleast
  · have hunit := F64.le_div_div_roundExp h
    rw [Nat.le_div_iff_mul_le (by positivity), Nat.le_div_iff_mul_le hd] at hunit
    calc 2 ^ 52 * (den * 2 ^ F64.roundExp num den) = 2 ^ 52 * 2 ^ F64.roundExp num den * den := by ring
      _ ≤ num := hunit

theorem natAbs_signed_mul_sub (k : Int) (v d u : Nat) :
    (signed (decide (k < 0)) v * d - k * u : Int).natAbs = ((v * d : Int) - (u * k.natAbs : Nat)).natAbs := by
  rcases lt_or_ge k 0 with h | h
  · rw [decide_eq_true h, signed, if_pos rfl, ← Int.natAbs_neg, Nat.cast_mul, Int.ofNat_natAbs_of_nonpos h.le]
    congr 1; ring
  · rw [decide_eq_false h.not_gt, signed, if_neg Bool.false_ne_true, Nat.cast_mul, Int.natAbs_of_nonneg h]
    congr 1; ring

/-- A fraction `k / d` within the format's range rounds to a finite value, with an error of at most its 2^-53. -/
theorem F64.ofRat_error (k : Int) {d : Nat} (hd : 0 < d) (hd' : d < 2 ^ 200) (hk : k.natAbs < 2 ^ 200) :
    (F64.ofRat k d).isFinite = true ∧
    2 ^ 53 * ((F64.ofRat k d).key * d - k * F64.one).natAbs ≤ F64.one * k.natAbs := by
  have hsmall : F64.one * k.natAbs < d * ((2 ^ 54 - 1) * 2 ^ 2044) := by
    rw [F64.one]
    exact ((two_pow_mul_lt (by decide) hk).trans_le (Nat.le_mul_of_pos_left _ (by decide))).trans_le
      (Nat.le_mul_of_pos_left _ hd)
  have hone : d * 2 ^ 52 ≤ F64.one := by
    rw [F64.one, mul_comm]
    exact (two_pow_mul_lt (by decide) hd').le
  obtain ⟨m, e, hround, hval, -⟩ := F64.round_of_lt (decide (k < 0)) hd hsmall
  rw [← F64.ofRat] at hround
  rw [hround]
  refine ⟨rfl, ?_⟩
  rw [F64.key, F64.units, hval, natAbs_signed_mul_sub]
  by_cases hk0 : k = 0
  · subst hk0; simp [F64.roundMant, roundHalfEven]
  · have hpos : 1 ≤ k.natAbs := Int.natAbs_pos.mpr hk0
    have hunit := F64.roundExp_unit_le hd (hone.trans (Nat.le_mul_of_pos_right F64.one hpos))
    have hhalf := (roundHalfEven_spec (F64.one * k.natAbs) (d * 2 ^ F64.roundExp (F64.one * k.natAbs) d) (by positivity)).1
    rw [← F64.roundMant] at hhalf
    have hcast : ((F64.roundMant (F64.one * k.natAbs) d * 2 ^ F64.roundExp (F64.one * k.natAbs) d : Nat) * d : Int) =
        F64.roundMant (F64.one * k.natAbs) d * (d * 2 ^ F64.roundExp (F64.one * k.natAbs) d : Nat) := by push_cast; ring
    rw [hcast]
    generalize F64.one * k.natAbs = a at *
    generalize d * 2 ^ F64.roundExp a d = b at *
    omega

/-- Rounding keeps the order of two fractions further apart than their errors. -/
theorem F64.ofRat_lt {k k' : Int} {d : Nat} (hd : 0 < d) (hd' : d < 2 ^ 200) (hk : k.natAbs < 2 ^ 200)
    (hk' : k'.natAbs < 2 ^ 200) (h : (k.natAbs + k'.natAbs : Int) < 2 ^ 53 * (k' - k)) :
    F64.lt (F64.ofRat k d) (F64.ofRat k' d) = true := by
  rw [F64.lt_iff]
  refine ⟨F64.ofRat_isNan _ _, F64.ofRat_isNan _ _, ?_⟩
  have herr := (F64.ofRat_error k hd hd' hk).2
  have herr' := (F64.ofRat_error k' hd hd' hk').2
  have hone : (0 : Int) < F64.one := by exact_mod_cast F64.one_pos
  have hscaled := mul_lt_mul_of_pos_left h hone
  have hdpos : (0 : Int) < d := by exact_mod_cast hd
  have hcast : ((F64.one * k.natAbs : Nat) : Int) = F64.one * k.natAbs := Nat.cast_mul _ _
  have hcast' : ((F64.one * k'.natAbs : Nat) : Int) = F64.one * k'.natAbs := Nat.cast_mul _ _
  have hsplit : (F64.one : Int) * (k.natAbs + k'.natAbs) = F64.one * k.natAbs + F64.one * k'.natAbs := by ring
  have hsplit' : (F64.one : Int) * (2 ^ 53 * (k' - k)) = 2 ^ 53 * (k' * F64.one - k * F64.one) := by ring
  rw [hsplit, hsplit', ← hcast, ← hcast'] at hscaled
  have hkeys : (F64.ofRat k d).key * d < (F64.ofRat k' d).key * d := by
    generalize (F64.ofRat k d).key * (d : Int) = x at *
    generalize (F64.ofRat k' d).key * (d : Int) = x' at *
    generalize F64.one * k.natAbs = a at *
    generalize F64.one * k'.natAbs = a' at *
    generalize k * (F64.one : Int) = y at *
    generalize k' * (F64.one : Int) = y' at *
    omega
  exact lt_of_mul_lt_mul_right hkeys hdpos.le

/-- A fraction other than 0 does not round to a zero. -/
theorem F64.key_ofRat_ne_zero {k : Int} (hk0 : k ≠ 0) {d : Nat} (hd : 0 < d) (hd' : d < 2 ^ 200)
    (hk : k.natAbs < 2 ^ 200) : (F64.ofRat k d).key ≠ 0 := by
  intro h
  have herr := (F64.ofRat_error k hd hd' hk).2
  rw [h, zero_mul, zero_sub, Int.natAbs_neg, Int.natAbs_mul, Int.natAbs_natCast, mul_comm k.natAbs] at herr
  have hpos : 0 < F64.one * k.natAbs := Nat.mul_pos F64.one_pos (Int.natAbs_pos.mpr hk0)
  omega

/-! ### Zeros -/

/-- A value of the format is its own rounding. -/
theorem F64.round_units {s : Bool} {m e : Nat} (h : (F64.fin s m e).wf = true) :
    F64.round s (F64.units m e) 1 = .fin s m e := by
  obtain ⟨hm, he, hnorm⟩ := of_decide_eq_true h
  have hexp : F64.roundExp (F64.units m e) 1 = e := by
    rw [F64.roundExp, Nat.div_one, F64.units]
    rcases hnorm with rfl | hnorm
    · by_cases hm0 : m = 0
      · subst hm0; rfl
      · rw [pow_zero, mul_one]
        have := (Nat.log2_lt hm0).mpr hm
        omega
    · have hlog : Nat.log2 (m * 2 ^ e) = 52 + e := by
        rw [Nat.log2_eq_iff (by positivity), add_right_comm, pow_add, pow_add 2 (52 + 1)]
        exact ⟨Nat.mul_le_mul_right _ hnorm, Nat.mul_lt_mul_of_pos_right hm (by positivity)⟩
      omega
  have hmant : F64.roundMant (F64.units m e) 1 = m := by
    rw [F64.roundMant, hexp, one_mul, roundHalfEven, F64.units, Nat.mul_mod_left, Nat.mul_div_cancel _ (by positivity)]
    exact if_pos (by positivity)
  rw [F64.round_eq, hexp, hmant, if_neg hm.ne, if_pos he]

theorem F64.exists_fin {x : F64} (h : x.isFinite = true) : ∃ s m e, x = .fin s m e := by
  cases x with
  | fin s m e => exact ⟨s, m, e, rfl⟩
  | nan | inf => cases h

/-- Adding a zero changes no value of the format but -0. -/
theorem F64.add_zero {x : F64} (hfin : x.isFinite = true) (hwf : x.wf = true) (hneg : x ≠ .fin true 0 0) (t : Bool) :
    F64.add x (.fin t 0 0) = x := by
  obtain ⟨s, m, e, rfl⟩ := F64.exists_fin hfin
  have hzero : signed t (F64.units 0 0) = 0 := by cases t <;> rfl
  rw [F64.add, hzero, Int.add_zero]
  by_cases hm : m = 0
  · subst hm
    have he : e = 0 := (of_decide_eq_true hwf).2.2.resolve_right (by decide)
    subst he
    cases s
    · rfl
    · exact absurd rfl hneg
  · have hk : F64.units m e ≠ 0 := mt F64.units_eq_zero.mp hm
    rw [if_neg (mt signed_eq_zero.mp hk), decide_signed_neg s hk, natAbs_signed, F64.round_units hwf]

theorem F64.sub_self {x : F64} (hfin : x.isFinite = true) : F64.sub x x = .fin false 0 0 := by
  obtain ⟨s, m, e, rfl⟩ := F64.exists_fin hfin
  rw [F64.sub, F64.neg, F64.add, signed_not, add_neg_cancel, if_pos rfl, Bool.and_not_self]

theorem F64.zero_mul (t : Bool) {x : F64} (hfin : x.isFinite = true) : ∃ s, F64.mul (.fin t 0 0) x = .fin s 0 0 := by
  obtain ⟨s, m, e, rfl⟩ := F64.exists_fin hfin
  exact ⟨t != s, by rw [F64.mul, F64.units, Nat.zero_mul, Nat.zero_mul, F64.round_zero]⟩

theorem F64.mul_zero {x : F64} (hfin : x.isFinite = true) (t : Bool) : ∃ s, F64.mul x (.fin t 0 0) = .fin s 0 0 := by
  obtain ⟨s, m, e, rfl⟩ := F64.exists_fin hfin
  exact ⟨s != t, by rw [F64.mul, F64.units.eq_1 0 0, Nat.zero_mul, Nat.mul_zero, F64.round_zero]⟩

theorem F64.zero_div (t : Bool) {x : F64} (hfin : x.isFinite = true) (hkey : x.key ≠ 0) :
    ∃ s, F64.div (.fin t 0 0) x = .fin s 0 0 := by
  obtain ⟨s, m, e, rfl⟩ := F64.exists_fin hfin
  have hzero : (F64.fin t 0 0).toRat = 0 := F64.toRat_eq_zero.mpr (Nat.zero_mul _)
  exact ⟨t != s, F64.div_of_eq_zero t s 0 0 m e hzero (mt F64.toRat_eq_zero.mp (mt signed_eq_zero.mpr hkey))⟩

/-- A whole number of units other than 0 does not round to a zero. -/
theorem F64.roundMant_ne_zero {num : Nat} (h : num ≠ 0) : F64.roundMant num 1 ≠ 0 := by
  have hquot : num / (1 * 2 ^ F64.roundExp num 1) ≠ 0 := by
    rw [one_mul]
    by_cases he : F64.roundExp num 1 = 0
    · rw [he, pow_zero, Nat.div_one]; exact h
    · have hunit := F64.le_div_div_roundExp he
      rw [Nat.div_one] at hunit
      generalize num / 2 ^ F64.roundExp num 1 = q at *
      omega
  rw [F64.roundMant, roundHalfEven]
  split
  · exact hquot
  · split
    · exact Nat.succ_ne_zero _
    · generalize num / (1 * 2 ^ F64.roundExp num 1) = q at *
      omega

/-- The difference of two values that are not equal is not a zero: subtraction has no underflow. -/
theorem F64.key_sub_ne_zero {x y : F64} (hx : x.isFinite = true) (hy : y.isFinite = true) (hne : x.key ≠ y.key)
    (hsmall : (x.key - y.key).natAbs < (2 ^ 54 - 1) * 2 ^ 2044) :
    (F64.sub x y).isFinite = true ∧ (F64.sub x y).key ≠ 0 := by
  obtain ⟨s, m, e, rfl⟩ := F64.exists_fin hx
  obtain ⟨t, n, f, rfl⟩ := F64.exists_fin hy
  have hk : signed s (F64.units m e) + signed (!t) (F64.units n f) =
      (F64.fin s m e).key - (F64.fin t n f).key := by rw [signed_not]; rfl
  generalize (F64.fin s m e).key = k at *
  generalize (F64.fin t n f).key = l at *
  obtain ⟨m', e', hround, hval, -⟩ := F64.round_of_lt (decide (k - l < 0)) Nat.one_pos (by rwa [one_mul])
  have hmant := F64.roundMant_ne_zero (Int.natAbs_ne_zero.mpr (sub_ne_zero.mpr hne))
  rw [F64.sub, F64.neg, F64.add, hk, if_neg (sub_ne_zero.mpr hne), hround]
  refine ⟨rfl, mt signed_eq_zero.mp ?_⟩
  rw [F64.units, hval]
  exact mul_ne_zero hmant (by positivity)

theorem F64.natAbs_key_ofRat_le {k : Int} {d : Nat} (hd : 0 < d) (hd' : d < 2 ^ 200) (hk : k.natAbs < 2 ^ 200) :
    (F64.ofRat k d).key.natAbs ≤ 2 * (F64.one * k.natAbs) := by
  have herr := (F64.ofRat_error k hd hd' hk).2
  have hscale : (k * F64.one : Int).natAbs = F64.one * k.natAbs := by
    rw [Int.natAbs_mul, Int.natAbs_natCast, mul_comm]
  have hkey : (F64.ofRat k d).key.natAbs ≤ ((F64.ofRat k d).key * d).natAbs := by
    rw [Int.natAbs_mul, Int.natAbs_natCast]; exact Nat.le_mul_of_pos_right _ hd
  generalize (F64.ofRat k d).key.natAbs = n at *
  generalize (F64.ofRat k d).key * (d : Int) = x at *
  generalize F64.one * k.natAbs = a at *
  generalize k * (F64.one : Int) = y at *
  omega

/-- The difference of two fractions of the format's range is finite, and not a zero where rounding keeps their order. -/
theorem F64.key_sub_ofRat_ne_zero {k k' : Int} {d : Nat} (hd : 0 < d) (hd' : d < 2 ^ 200) (hk : k.natAbs < 2 ^ 200)
    (hk' : k'.natAbs < 2 ^ 200) (hlt : F64.lt (F64.ofRat k d) (F64.ofRat k' d) = true) :
    (F64.sub (F64.ofRat k' d) (F64.ofRat k d)).isFinite = true ∧
    (F64.sub (F64.ofRat k' d) (F64.ofRat k d)).key ≠ 0 := by
  have hkey : (F64.ofRat k d).key < (F64.ofRat k' d).key := ((F64.lt_iff _ _).mp hlt).2.2
  refine F64.key_sub_ne_zero (F64.ofRat_error k' hd hd' hk').1 (F64.ofRat_error k hd hd' hk).1 hkey.ne' ?_
  have hbound := F64.natAbs_key_ofRat_le hd hd' hk
  have hbound' := F64.natAbs_key_ofRat_le hd hd' hk'
  have hpow : F64.one * k.natAbs < 2 ^ 2044 := by rw [F64.one]; exact two_pow_mul_lt (by decide) hk
  have hpow' : F64.one * k'.natAbs < 2 ^ 2044 := by rw [F64.one]; exact two_pow_mul_lt (by decide) hk'
  generalize 2 ^ 2044 = p at *
  generalize (F64.ofRat k d).key = x at *
  generalize (F64.ofRat k' d).key = x' at *
  generalize F64.one * k.natAbs = a at *
  generalize F64.one * k'.natAbs = a' at *
  omega

/-- A fraction never rounds to -0. -/
theorem F64.ofRat_ne_neg_zero (k : Int) {d : Nat} (hd : 0 < d) (hd' : d < 2 ^ 200) (hk : k.natAbs < 2 ^ 200) :
    F64.ofRat k d ≠ .fin true 0 0 := by
  intro h
  by_cases hk0 : k = 0
  · subst hk0
    rw [F64.ofRat, Int.natAbs_zero, Nat.mul_zero, F64.round_zero] at h
    cases h
  · exact F64.key_ofRat_ne_zero hk0 hd hd' hk (by rw [h]; rfl)

end Sys2Proof
end

section
/-! PROOFS. TypeKTable (44_typek_table.md R200 to R207): the table, its two operations in either datapath, and that they invert
each other. -/

namespace Sys2Proof

/-! ### A result in the state's datapath, or OutOfRange (60_exceptions.md R245) -/

section
variable {ok : Bool} {s : State} {f : {α : Type} → Num α → (BitVec 64 → α) → Option α}

/-- Under BINARY64_RNE such an operation responds the value computed on the patterns' binary64 values. -/
theorem Machine.checked_answerReal_binary64 (hok : ok = true) (hnum : s.num = .binary64) :
    (∀ r, f Num.binary64 F64.ofBits = some r →
      ∃ t, checked ok (fun s => s.answerReal (s.compute? f)) s = .next t ∧ s.OnlyResponds t (.ok (.real (.b64 r)))) ∧
    (f Num.binary64 F64.ofBits = none →
      ∃ t, checked ok (fun s => s.answerReal (s.compute? f)) s = .next t ∧ s.OnlyResponds t (.fault .outOfRange)) := by
  have hval : s.compute? f = (f Num.binary64 F64.ofBits).map .b64 := by simp only [State.compute?, hnum]
  constructor
  · intro r hr
    exact checked_respond_onlyResponds hok (by simp only [hval, hr]; rfl)
  · intro hr
    exact checked_respond_onlyResponds hok (by simp only [hval, hr]; rfl)

/-- Under EXACT it responds a value that is the real number the same function has on the reals. -/
theorem Machine.checked_answerReal_exact (hok : ok = true) (hnum : s.num = .exact) {g : Option ℝ}
    (hreal : (f Num.exactData s.realOf).map Exact.toReal = g) :
    (∀ r, g = some r →
      ∃ v t, checked ok (fun s => s.answerReal (s.compute? f)) s = .next t ∧ s.OnlyResponds t (.ok (.real v)) ∧ v.IsReal r) ∧
    (g = none →
      ∃ t, checked ok (fun s => s.answerReal (s.compute? f)) s = .next t ∧ s.OnlyResponds t (.fault .outOfRange)) := by
  have hval : s.compute? f = (f Num.exactData s.realOf).map .exact := by simp only [State.compute?, hnum]
  constructor
  · intro r hr
    obtain ⟨e, he, her⟩ := Option.map_eq_some_iff.mp (hreal.trans hr)
    obtain ⟨t, ht, hresp⟩ := checked_respond_onlyResponds (r := .ok (.real (.exact e))) hok
      (run := fun s => s.answerReal (s.compute? f)) (s := s) (by simp only [hval, he]; rfl)
    exact ⟨_, t, ht, hresp, e, rfl, her⟩
  · intro hr
    have he := Option.map_eq_none_iff.mp (hreal.trans hr)
    exact checked_respond_onlyResponds hok (by simp only [hval, he]; rfl)

end

/-! ### The table (R200) -/

theorem Machine.tkVMicro_increasing : ∀ i < 164, tkVMicro.getD i 0 < tkVMicro.getD (i + 1) 0 := by decide +kernel

/-- Settles O46: the table, evaluated. -/
theorem calibrationTableProperties : Obligations.CalibrationTableProperties :=
  ⟨rfl, fun _ => rfl, rfl, Machine.tkVMicro_increasing, rfl, rfl, rfl, rfl⟩

section
variable {α : Type} (N : Num α)

theorem Machine.tkT_zero : tkT N 0 = N.int (-270) := rfl
theorem Machine.tkT_last : tkT N 164 = N.int 1370 := rfl
theorem Machine.tkV_zero : tkV N 0 = N.dec ⟨-6458, 3⟩ := rfl
theorem Machine.tkV_last : tkV N 164 = N.dec ⟨54819, 3⟩ := rfl

variable {N} {x : α}

/-! ### The two functions, in any datapath: the domain is that of the table -/

theorem Machine.t2mv_of_domain (h : N.le (tkT N 0) x = true ∧ N.lt x (tkT N 164) = true) :
    t2mv N x = some (t2mvOn N (bracket N (tkT N) x) x) := by
  rw [tkT_zero, tkT_last] at h
  rw [t2mv, h.1, h.2]; rfl

theorem Machine.t2mv_outside (h : ¬(N.le (tkT N 0) x = true ∧ N.lt x (tkT N 164) = true)) : t2mv N x = none := by
  rw [tkT_zero, tkT_last, ← Bool.and_eq_true] at h
  exact if_neg h

theorem Machine.mv2t_of_domain (h : N.le (tkV N 0) x = true ∧ N.lt x (tkV N 164) = true) :
    mv2t N x = some (mv2tOn N (bracket N (tkV N) x) x) := by
  rw [tkV_zero, tkV_last] at h
  rw [mv2t, h.1, h.2]; rfl

theorem Machine.mv2t_outside (h : ¬(N.le (tkV N 0) x = true ∧ N.lt x (tkV N 164) = true)) : mv2t N x = none := by
  rw [tkV_zero, tkV_last, ← Bool.and_eq_true] at h
  exact if_neg h

end

/-! ### The bracket of a value in the domain, in each datapath -/

theorem Machine.bracket_binary64 {A : Nat → F64} {x : F64} (hA : ∀ i, (A i).isNan = false)
    (h : F64.le (A 0) x = true ∧ F64.lt x (A 164) = true) : bracket Num.binary64 A x ≤ 163 ∧
      F64.le (A (bracket Num.binary64 A x)) x = true ∧ F64.lt x (A (bracket Num.binary64 A x + 1)) = true := by
  have hx : x.isNan = false := ((F64.lt_iff _ _).mp h.2).1
  have hle (i : Nat) : F64.le (A i) x = true ↔ (A i).key ≤ x.key := F64.le_iff_key (hA i) hx
  have hlt (i : Nat) : F64.lt x (A i) = true ↔ x.key < (A i).key := F64.lt_iff_key hx (hA i)
  obtain ⟨hb, hLo, hHi⟩ := bracket_holds_value (N := Num.binary64) (K := fun i => (A i).key) (fun i _ => hle i)
    ((hle 0).mp h.1) ((hlt 164).mp h.2)
  exact ⟨hb, (hle _).mpr hLo, (hlt _).mpr hHi⟩

theorem Machine.bracket_exact {A : Nat → ℝ} {x : ℝ} (h : A 0 ≤ x ∧ x < A 164) : bracket Num.exact A x ≤ 163 ∧
    A (bracket Num.exact A x) ≤ x ∧ x < A (bracket Num.exact A x + 1) :=
  bracket_holds_value (fun i _ => Num.exact_le (A i) x) h.1 h.2

theorem Machine.isNan_tkT (i : Nat) : (tkT Num.binary64 i).isNan = false := by rw [tkT_binary64]; exact F64.ofRat_isNan _ _

theorem Machine.isNan_tkV (i : Nat) : (tkV Num.binary64 i).isNan = false := by rw [tkV_binary64]; exact F64.ofRat_isNan _ _

/-- A test of the domain over the reals. -/
theorem Machine.exact_domain_iff {a b x : ℝ} :
    (Num.exact.le a x = true ∧ Num.exact.lt x b = true) ↔ a ≤ x ∧ x < b := by rw [Num.exact_le, Num.exact_lt]

theorem Machine.realOk_eq_true {x : BitVec 64} (h : (F64.ofBits x).isFinite = true) : realOk x = true := by rw [realOk_eq, h]

/-- The real number an operand stands for, as a value of EXACT that the table's functions take. -/
theorem Machine.simple_realOf (s : State) (x : BitVec 64) : (s.realOf x).simple = true :=
  Exact.simple_of_plain _ (plain_realOf s x)

/-! ### TK_T2MV (R205) -/

theorem Machine.exec_tkT2mv (x : BitVec 64) (s : State) : exec (.tkT2mv x) s =
    checked (realOk x) (fun s => s.answerReal (s.compute? fun N real => t2mv N (real x))) s := rfl

theorem Machine.t2mvOn_binary64 (i : Nat) (x : F64) : t2mvOn Num.binary64 i x =
    F64.add (tkV Num.binary64 i) (F64.div (F64.mul (F64.sub x (F64.ofRat (tkTInt i) 1))
      (F64.sub (tkV Num.binary64 (i + 1)) (tkV Num.binary64 i))) (F64.ofRat 10 1)) := by
  rw [t2mvOn, tkT_binary64, Num.binary64_int]; rfl

theorem Machine.t2mvOn_exact (i : Nat) (x : ℝ) : t2mvOn Num.exact i x =
    tkV Num.exact i + (x - (tkTInt i : ℝ)) * (tkV Num.exact (i + 1) - tkV Num.exact i) / 10 := by
  rw [t2mvOn, tkT_exact, Num.exact_int]; rfl

/-- Settles O48: BRACKET finds the interval, and the response carries the interpolation on it in the state's datapath. -/
theorem tkT2mvInterpolates : Obligations.TkT2mvInterpolates := by
  refine ⟨fun x s hx => ?malformed, fun x s hx hnum => ?binary64, fun x s hx hnum => ?exact⟩
  case malformed =>
    rw [Machine.exec_tkT2mv]
    exact Machine.checked_malformed_onlyResponds ((Machine.realOk_eq_false x).mpr hx) _ s
  case binary64 =>
    rw [Machine.exec_tkT2mv]
    obtain ⟨hsome, hnone⟩ := Machine.checked_answerReal_binary64 (Machine.realOk_eq_true hx) hnum
      (f := fun N real => Machine.t2mv N (real x))
    rw [← Num.binary64_int, ← Num.binary64_int, ← Machine.tkT_zero, ← Machine.tkT_last]
    refine ⟨fun hlo hhi => ?_, fun hout => hnone (Machine.t2mv_outside hout)⟩
    obtain ⟨hb, hbLo, hbHi⟩ := Machine.bracket_binary64 Machine.isNan_tkT ⟨hlo, hhi⟩
    obtain ⟨t, ht, hresp⟩ := hsome _ (Machine.t2mv_of_domain ⟨hlo, hhi⟩)
    rw [Machine.t2mvOn_binary64] at hresp
    rw [Machine.tkT_binary64] at hbLo hbHi
    exact ⟨_, t, hb, hbLo, hbHi, ht, hresp⟩
  case exact =>
    rw [Machine.exec_tkT2mv]
    obtain ⟨hsome, hnone⟩ := Machine.checked_answerReal_exact (Machine.realOk_eq_true hx) hnum
      (f := fun N real => Machine.t2mv N (real x)) (Machine.t2mv_exactData _ (Machine.simple_realOf s x))
    rw [← Machine.State.operand] at hsome hnone
    have hfirst : Machine.tkT Num.exact 0 = -270 := by rw [Machine.tkT_zero, Num.exact_int]; norm_num
    have hlast : Machine.tkT Num.exact 164 = 1370 := by rw [Machine.tkT_last, Num.exact_int]; norm_num
    rw [← hfirst, ← hlast]
    refine ⟨fun hlo hhi => ?_, fun hout => hnone (Machine.t2mv_outside (mt Machine.exact_domain_iff.mp hout))⟩
    obtain ⟨hb, hbLo, hbHi⟩ := Machine.bracket_exact ⟨hlo, hhi⟩
    obtain ⟨v, t, ht, hresp, hv⟩ := hsome _ (Machine.t2mv_of_domain (Machine.exact_domain_iff.mpr ⟨hlo, hhi⟩))
    rw [Machine.t2mvOn_exact] at hv
    rw [Machine.tkT_exact] at hbLo hbHi
    exact ⟨_, v, t, hb, hbLo, hbHi, ht, hresp, hv⟩

/-! ### TK_MV2T (R206) -/

theorem Machine.exec_tkMv2t (x : BitVec 64) (s : State) : exec (.tkMv2t x) s =
    checked (realOk x) (fun s => s.answerReal (s.compute? fun N real => mv2t N (real x))) s := rfl

theorem Machine.mv2tOn_binary64 (i : Nat) (x : F64) : mv2tOn Num.binary64 i x =
    F64.add (F64.ofRat (tkTInt i) 1) (F64.div (F64.mul (F64.ofRat 10 1) (F64.sub x (tkV Num.binary64 i)))
      (F64.sub (tkV Num.binary64 (i + 1)) (tkV Num.binary64 i))) := by
  rw [mv2tOn, tkT_binary64, Num.binary64_int]; rfl

theorem Machine.mv2tOn_exact (i : Nat) (x : ℝ) : mv2tOn Num.exact i x =
    (tkTInt i : ℝ) + 10 * (x - tkV Num.exact i) / (tkV Num.exact (i + 1) - tkV Num.exact i) := by
  rw [mv2tOn, tkT_exact, Num.exact_int]; rfl

/-- Settles O49: as for TK_T2MV, in the table of voltages. -/
theorem tkMv2tInterpolates : Obligations.TkMv2tInterpolates := by
  refine ⟨fun x s hx => ?malformed, fun x s hx hnum => ?binary64, fun x s hx hnum => ?exact⟩
  case malformed =>
    rw [Machine.exec_tkMv2t]
    exact Machine.checked_malformed_onlyResponds ((Machine.realOk_eq_false x).mpr hx) _ s
  case binary64 =>
    rw [Machine.exec_tkMv2t]
    obtain ⟨hsome, hnone⟩ := Machine.checked_answerReal_binary64 (Machine.realOk_eq_true hx) hnum
      (f := fun N real => Machine.mv2t N (real x))
    have hfirst : Machine.tkV Num.binary64 0 = F64.ofRat (-6458) 1000 := Machine.tkV_binary64 0
    have hlast : Machine.tkV Num.binary64 164 = F64.ofRat 54819 1000 := Machine.tkV_binary64 164
    rw [← hfirst, ← hlast]
    refine ⟨fun hlo hhi => ?_, fun hout => hnone (Machine.mv2t_outside hout)⟩
    obtain ⟨hb, hbLo, hbHi⟩ := Machine.bracket_binary64 Machine.isNan_tkV ⟨hlo, hhi⟩
    obtain ⟨t, ht, hresp⟩ := hsome _ (Machine.mv2t_of_domain ⟨hlo, hhi⟩)
    rw [Machine.mv2tOn_binary64] at hresp
    exact ⟨_, t, hb, hbLo, hbHi, ht, hresp⟩
  case exact =>
    rw [Machine.exec_tkMv2t]
    obtain ⟨hsome, hnone⟩ := Machine.checked_answerReal_exact (Machine.realOk_eq_true hx) hnum
      (f := fun N real => Machine.mv2t N (real x)) (Machine.mv2t_exactData _ (Machine.simple_realOf s x))
    rw [← Machine.State.operand] at hsome hnone
    have hfirst : Machine.tkV Num.exact 0 = -6.458 := by rw [Machine.tkV_zero, Num.exact_dec]; norm_num
    have hlast : Machine.tkV Num.exact 164 = 54.819 := by rw [Machine.tkV_last, Num.exact_dec]; norm_num
    rw [← hfirst, ← hlast]
    refine ⟨fun hlo hhi => ?_, fun hout => hnone (Machine.mv2t_outside (mt Machine.exact_domain_iff.mp hout))⟩
    obtain ⟨hb, hbLo, hbHi⟩ := Machine.bracket_exact ⟨hlo, hhi⟩
    obtain ⟨v, t, ht, hresp, hv⟩ := hsome _ (Machine.mv2t_of_domain (Machine.exact_domain_iff.mpr ⟨hlo, hhi⟩))
    rw [Machine.mv2tOn_exact] at hv
    exact ⟨_, v, t, hb, hbLo, hbHi, ht, hresp, hv⟩

/-! ### The breakpoints under BINARY64_RNE -/

theorem Machine.natAbs_tkTInt_le {i : Nat} (hi : i ≤ 164) : (tkTInt i).natAbs ≤ 1370 := by unfold tkTInt; omega

theorem Machine.natAbs_tkVMicro_le : ∀ i ≤ 164, (tkVMicro.getD i 0).natAbs ≤ 54819 := by decide +kernel

theorem Machine.natAbs_tkTInt_lt {i : Nat} (hi : i ≤ 164) : (tkTInt i).natAbs < 2 ^ 200 :=
  (natAbs_tkTInt_le hi).trans_lt (by decide)

theorem Machine.natAbs_tkVMicro_lt {i : Nat} (hi : i ≤ 164) : (tkVMicro.getD i 0).natAbs < 2 ^ 200 :=
  (natAbs_tkVMicro_le i hi).trans_lt (by decide)

theorem Machine.tkT_binary64_increasing : ∀ i < 164, F64.lt (tkT Num.binary64 i) (tkT Num.binary64 (i + 1)) = true := by
  intro i hi
  have hlo := natAbs_tkTInt_le hi.le
  have hhi := natAbs_tkTInt_le hi
  have hstep : tkTInt (i + 1) = tkTInt i + 10 := by unfold tkTInt; push_cast; ring
  rw [tkT_binary64, tkT_binary64]
  exact F64.ofRat_lt Nat.one_pos (by decide) (natAbs_tkTInt_lt hi.le) (natAbs_tkTInt_lt hi) (by omega)

theorem Machine.tkV_binary64_increasing : ∀ i < 164, F64.lt (tkV Num.binary64 i) (tkV Num.binary64 (i + 1)) = true := by
  intro i hi
  have hlo := natAbs_tkVMicro_le i hi.le
  have hhi := natAbs_tkVMicro_le (i + 1) hi
  have hstep := tkVMicro_increasing i hi
  rw [tkV_binary64, tkV_binary64]
  exact F64.ofRat_lt (by decide) (by decide) (natAbs_tkVMicro_lt hi.le) (natAbs_tkVMicro_lt hi) (by omega)

/-- The differences the two interpolations use are finite, and the divisor is not a zero. -/
theorem Machine.tkV_sub_binary64 {i : Nat} (hi : i < 164) :
    (F64.sub (tkV Num.binary64 (i + 1)) (tkV Num.binary64 i)).isFinite = true ∧
    (F64.sub (tkV Num.binary64 (i + 1)) (tkV Num.binary64 i)).key ≠ 0 := by
  have hlt := tkV_binary64_increasing i hi
  rw [tkV_binary64, tkV_binary64] at *
  exact F64.key_sub_ofRat_ne_zero (by decide) (by decide) (natAbs_tkVMicro_lt hi.le) (natAbs_tkVMicro_lt hi) hlt

theorem Machine.tkT_isFinite_binary64 {i : Nat} (hi : i ≤ 164) : (tkT Num.binary64 i).isFinite = true := by
  rw [tkT_binary64]; exact (F64.ofRat_error _ Nat.one_pos (by decide) (natAbs_tkTInt_lt hi)).1

theorem Machine.tkV_isFinite_binary64 {i : Nat} (hi : i ≤ 164) : (tkV Num.binary64 i).isFinite = true := by
  rw [tkV_binary64]; exact (F64.ofRat_error _ (by decide) (by decide) (natAbs_tkVMicro_lt hi)).1

/-- A zero added to a rounded fraction leaves it as it is. -/
theorem Machine.ofRat_add_zero {k : Int} {d : Nat} (hd : 0 < d) (hd' : d < 2 ^ 200) (hk : k.natAbs < 2 ^ 200) (t : Bool) :
    F64.add (F64.ofRat k d) (.fin t 0 0) = F64.ofRat k d :=
  F64.add_zero (F64.ofRat_error k hd hd' hk).1 (roundingGivesBinary64 _ _ _ hd).1 (F64.ofRat_ne_neg_zero k hd hd' hk) t

/-- On the interval it starts, a breakpoint is interpolated with a difference of 0, so a zero is added to the other table's
entry. -/
theorem Machine.t2mvOn_breakpoint {i : Nat} (hi : i < 164) :
    t2mvOn Num.binary64 i (tkT Num.binary64 i) = tkV Num.binary64 i := by
  have hten := F64.ofRat_error 10 (d := 1) Nat.one_pos (by decide) (by decide)
  have htenKey := F64.key_ofRat_ne_zero (k := 10) (d := 1) (by decide) Nat.one_pos (by decide) (by decide)
  obtain ⟨s, hmul⟩ := F64.zero_mul false (tkV_sub_binary64 hi).1
  obtain ⟨t, hdiv⟩ := F64.zero_div s hten.1 htenKey
  rw [t2mvOn_binary64, ← tkT_binary64, F64.sub_self (tkT_isFinite_binary64 hi.le), hmul, hdiv, tkV_binary64]
  exact ofRat_add_zero (by decide) (by decide) (natAbs_tkVMicro_lt hi.le) t

theorem Machine.mv2tOn_breakpoint {i : Nat} (hi : i < 164) :
    mv2tOn Num.binary64 i (tkV Num.binary64 i) = tkT Num.binary64 i := by
  have hten := F64.ofRat_error 10 (d := 1) Nat.one_pos (by decide) (by decide)
  obtain ⟨s, hmul⟩ := F64.mul_zero hten.1 false
  obtain ⟨t, hdiv⟩ := F64.zero_div s (tkV_sub_binary64 hi).1 (tkV_sub_binary64 hi).2
  rw [mv2tOn_binary64, F64.sub_self (tkV_isFinite_binary64 hi.le), hmul, hdiv, tkT_binary64]
  exact ofRat_add_zero Nat.one_pos (by decide) (natAbs_tkTInt_lt hi.le) t

/-- An entry of an increasing table of binary64 values is in its domain, and BRACKET of it is its index. -/
theorem Machine.bracket_breakpoint {A : Nat → F64} (hA : ∀ i < 164, F64.lt (A i) (A (i + 1)) = true) {i : Nat}
    (hi : i < 164) :
    (F64.le (A 0) (A i) = true ∧ F64.lt (A i) (A 164) = true) ∧ bracket Num.binary64 A (A i) = i := by
  have hnan (j : Nat) (hj : j ≤ 164) : (A j).isNan = false := F64.isNan_of_increasing hA hj
  have hkeys : StrictMonoOn (fun j => (A j).key) (Set.Iic 164) :=
    strictMonoOn_Iic_of_lt_succ fun j hj => ((F64.lt_iff _ _).mp (hA j hj)).2.2
  have hfirst : F64.le (A 0) (A i) = true := (F64.le_iff_key (hnan 0 (by omega)) (hnan i hi.le)).mpr
    (hkeys.monotoneOn (Set.mem_Iic.mpr (by omega)) (Set.mem_Iic.mpr hi.le) (Nat.zero_le i))
  have hlast : F64.lt (A i) (A 164) = true := (F64.lt_iff_key (hnan i hi.le) (hnan 164 le_rfl)).mpr
    (hkeys (Set.mem_Iic.mpr hi.le) (Set.mem_Iic.mpr le_rfl) hi)
  exact ⟨⟨hfirst, hlast⟩, ((bracketIsUnique.2 A (A i) hA hfirst hlast).2 i (by omega)
    (F64.le_refl (hnan i hi.le)) (hA i hi)).symm⟩

/-- Settles O50: BRACKET of a breakpoint is its own interval, on which the interpolation adds a zero. -/
theorem breakpointsAreExact : Obligations.BreakpointsAreExact := by
  intro i hi
  obtain ⟨htDom, htBracket⟩ := Machine.bracket_breakpoint Machine.tkT_binary64_increasing hi
  obtain ⟨hvDom, hvBracket⟩ := Machine.bracket_breakpoint Machine.tkV_binary64_increasing hi
  constructor
  · rw [Machine.t2mv_of_domain htDom, htBracket, Machine.t2mvOn_breakpoint hi]
  · rw [Machine.mv2t_of_domain hvDom, hvBracket, Machine.mv2tOn_breakpoint hi]

/-! ### The inverse under EXACT (R207) -/

theorem Machine.tkV_exact_increasing : ∀ i < 164, tkV Num.exact i < tkV Num.exact (i + 1) := by
  intro i hi
  have h := tkVMicro_increasing i hi
  rw [tkV_exact, tkV_exact]
  exact div_lt_div_of_pos_right (by exact_mod_cast h) (by norm_num)

/-- An interpolated value lies in the interval of voltages its bracket gives. -/
theorem Machine.t2mvOn_exact_mem {i : Nat} (hi : i ≤ 163) {x : ℝ} (hlo : (tkTInt i : ℝ) ≤ x) (hhi : x < (tkTInt (i + 1) : ℝ)) :
    tkV Num.exact i ≤ t2mvOn Num.exact i x ∧ t2mvOn Num.exact i x < tkV Num.exact (i + 1) := by
  have hV := tkV_exact_increasing i (by omega)
  have hT : (tkTInt (i + 1) : ℝ) = tkTInt i + 10 := by unfold tkTInt; push_cast; ring
  rw [t2mvOn_exact]
  constructor <;> nlinarith

theorem Machine.mv2tOn_t2mvOn_exact {i : Nat} (hi : i ≤ 163) (x : ℝ) :
    mv2tOn Num.exact i (t2mvOn Num.exact i x) = x := by
  have hV : tkV Num.exact (i + 1) - tkV Num.exact i ≠ 0 := sub_ne_zero.mpr (tkV_exact_increasing i (by omega)).ne'
  rw [mv2tOn_exact, t2mvOn_exact]
  field_simp
  ring

/-- Settles O51: the interpolated voltage has the bracket of the temperature, where the two interpolations invert each
other. -/
theorem tableOperationsInvertExactly : Obligations.TableOperationsInvertExactly := by
  intro x hlo hhi
  have hfirst : Machine.tkT Num.exact 0 = -270 := by rw [Machine.tkT_zero, Num.exact_int]; norm_num
  have hlast : Machine.tkT Num.exact 164 = 1370 := by rw [Machine.tkT_last, Num.exact_int]; norm_num
  rw [← hfirst] at hlo
  rw [← hlast] at hhi
  obtain ⟨hb, hbLo, hbHi⟩ := Machine.bracket_exact ⟨hlo, hhi⟩
  have hval := Machine.t2mv_of_domain (Machine.exact_domain_iff.mpr ⟨hlo, hhi⟩)
  generalize Machine.bracket Num.exact (Machine.tkT Num.exact) x = i at *
  rw [Machine.tkT_exact] at hbLo hbHi
  obtain ⟨hvLo, hvHi⟩ := Machine.t2mvOn_exact_mem hb hbLo hbHi
  have hmono : MonotoneOn (Machine.tkV Num.exact) (Set.Iic 164) :=
    (strictMonoOn_Iic_of_lt_succ Machine.tkV_exact_increasing).monotoneOn
  have hvFirst := (hmono (Set.mem_Iic.mpr (by omega)) (Set.mem_Iic.mpr (by omega)) (Nat.zero_le i)).trans hvLo
  have hvLast := hvHi.trans_le (hmono (Set.mem_Iic.mpr (by omega)) (Set.mem_Iic.mpr le_rfl) (by omega : i + 1 ≤ 164))
  have hbracket := (bracketIsUnique.1 _ _ Machine.tkV_exact_increasing hvFirst hvLast).2 i hb hvLo hvHi
  refine ⟨_, hval, ?_⟩
  rw [Machine.mv2t_of_domain (Machine.exact_domain_iff.mpr ⟨hvFirst, hvLast⟩), ← hbracket,
    Machine.mv2tOn_t2mvOn_exact hb]

end Sys2Proof
end

section
/-! PROOFS. The operations of ColdJunctionCompensator (45_cold_junction.md R222, R225, R226): the response that carries each
function's value in the state's datapath. -/

namespace Sys2Proof

theorem Machine.realOk_and_eq_true {x y : BitVec 64} (hx : (F64.ofBits x).isFinite = true)
    (hy : (F64.ofBits y).isFinite = true) : (realOk x && realOk y) = true := by rw [realOk_eq, realOk_eq, hx, hy]; rfl

/-! ### CJ_MV (R222) -/

theorem Machine.exec_cjMv (x : BitVec 64) (s : State) : exec (.cjMv x) s =
    checked (realOk x) (fun s => s.succeed (.real (s.compute fun N real => cjMillivolts N (real x)))) s := rfl

theorem Machine.cjMillivolts_binary64 (x : F64) : cjMillivolts Num.binary64 x = F64.add (poly Num.binary64 cjC x)
    (F64.mul (Num.binary64.dec cjA0) (F64.exp (F64.mul (Num.binary64.dec cjA1)
      (F64.mul (F64.sub x (Num.binary64.dec cjA2)) (F64.sub x (Num.binary64.dec cjA2)))))) := rfl

/-- The formula of R222 over the reals. -/
theorem Machine.cjMillivolts_exact (t : ℝ) : cjMillivolts Num.exact t =
    (∑ i ∈ Finset.range 10, ((cjC.getD i ⟨0, 0⟩).mant : ℝ) / (10 : ℝ) ^ (cjC.getD i ⟨0, 0⟩).scale * t ^ i) +
      (cjA0.mant : ℝ) / 10 ^ cjA0.scale *
        Real.exp ((cjA1.mant : ℝ) / 10 ^ cjA1.scale * (t - (cjA2.mant : ℝ) / 10 ^ cjA2.scale) ^ 2) := by
  have hlen : cjC.length = 10 := rfl
  rw [cjMillivolts, gaussian, poly_exact, hlen]
  simp only [Num.exact_add, Num.exact_mul, Num.exact_sub, Num.exact_exp, Num.exact_dec, pow_two]

/-- Settles O53: the response carries the function in the state's datapath, where it is the polynomial plus the Gaussian. -/
theorem cjMvIsPolynomialPlusGaussian : Obligations.CjMvIsPolynomialPlusGaussian := by
  refine ⟨fun x s hx => ?malformed, fun x s hx hnum => ?binary64, fun x s hx hnum => ?exact, Machine.cjMillivolts_exact⟩
  case malformed =>
    rw [Machine.exec_cjMv]
    exact Machine.checked_malformed_onlyResponds ((Machine.realOk_eq_false x).mpr hx) _ s
  case binary64 =>
    have hval : s.compute (fun N real => Machine.cjMillivolts N (real x)) =
        .b64 (Machine.cjMillivolts Num.binary64 (F64.ofBits x)) := Machine.State.compute_binary64 hnum _
    rw [Machine.exec_cjMv, ← Machine.cjMillivolts_binary64]
    exact Machine.checked_respond_onlyResponds (Machine.realOk_eq_true hx) (by rw [hval, Machine.State.succeed_eq])
  case exact =>
    have hval : s.compute (fun N real => Machine.cjMillivolts N (real x)) =
        .exact (Machine.cjMillivolts Num.exactData (s.realOf x)) := Machine.State.compute_exact hnum _
    rw [Machine.exec_cjMv]
    obtain ⟨t, ht, hresp⟩ := Machine.checked_respond_onlyResponds (Machine.realOk_eq_true hx)
      (run := fun s => s.succeed (.real (s.compute fun N real => Machine.cjMillivolts N (real x)))) (s := s) rfl
    exact ⟨_, t, ht, hresp, _, hval, Machine.toReal_cjMillivolts _⟩

/-! ### CJ_LINEARIZE (R225) -/

theorem Machine.exec_cjLinearize (x y : BitVec 64) (s : State) : exec (.cjLinearize x y) s =
    checked (realOk x && realOk y)
      (fun s => s.answerReal (s.compute? fun N real => linearize N (real x) (real y))) s := rfl

section
variable {α : Type} {N : Num α} {x y e : α}

theorem Machine.linearize_below (he : combinedMv N x y = e) (h : N.le (N.dec invLimit2) e = false) :
    linearize N x y = some (poly N (invD (selectRange N e)) e) := by
  rw [linearize, he, h]; rfl

theorem Machine.linearize_above (he : combinedMv N x y = e) (h : N.le (N.dec invLimit2) e = true) :
    linearize N x y = none := by
  rw [linearize, he, h]; rfl

end

theorem Machine.invLimit2_binary64 : Num.binary64.dec invLimit2 = F64.ofRat 54886 1000 := Num.binary64_dec _

theorem Machine.invLimit2_exact : Num.exact.dec invLimit2 = 54.886 := by rw [Num.exact_dec]; norm_num [invLimit2]

theorem Machine.combinedMv_binary64 (x y : F64) : combinedMv Num.binary64 x y =
    F64.add (cjMillivolts Num.binary64 x) (F64.mul y (F64.ofRat 1000 1)) := by
  rw [combinedMv, Num.binary64_int, Num.binary64_add, Num.binary64_mul]

theorem Machine.combinedMv_exact (x y : ℝ) : combinedMv Num.exact x y = cjMillivolts Num.exact x + y * 1000 := by
  rw [combinedMv, Num.exact_add, Num.exact_mul, Num.exact_int, Int.cast_ofNat]

/-- Settles O55: in either datapath the one comparison with the upper limit decides between OutOfRange and the polynomial. -/
theorem cjLinearizeSelectsPolynomial : Obligations.CjLinearizeSelectsPolynomial := by
  refine ⟨fun x y s hbad => ?malformed, fun x y s hx hy hnum => ?binary64, fun x y s hx hy hnum => ?exact⟩
  case malformed =>
    rw [Machine.exec_cjLinearize]
    exact Machine.checked_malformed_onlyResponds ((Machine.realOk_and_eq_false x y).mpr hbad) _ s
  case binary64 =>
    rw [Machine.exec_cjLinearize]
    obtain ⟨hsome, hnone⟩ := Machine.checked_answerReal_binary64 (Machine.realOk_and_eq_true hx hy) hnum
      (f := fun N real => Machine.linearize N (real x) (real y))
    have he := Machine.combinedMv_binary64 (F64.ofBits x) (F64.ofBits y)
    rw [← Machine.invLimit2_binary64]
    exact ⟨fun h => hsome _ (Machine.linearize_below he h), fun h => hnone (Machine.linearize_above he h)⟩
  case exact =>
    rw [Machine.exec_cjLinearize]
    obtain ⟨hsome, hnone⟩ := Machine.checked_answerReal_exact (Machine.realOk_and_eq_true hx hy) hnum
      (f := fun N real => Machine.linearize N (real x) (real y))
      (Machine.linearize_exactData _ _ (Machine.plain_realOf s x) (Machine.plain_realOf s y))
    have he := Machine.combinedMv_exact (s.operand x) (s.operand y)
    rw [← Machine.invLimit2_exact]
    refine ⟨fun h => hsome _ (Machine.linearize_below he ?_), fun h => hnone (Machine.linearize_above he ?_)⟩
    · rw [← Bool.not_eq_true, Num.exact_le]; exact h.not_ge
    · rwa [Num.exact_le]

/-! ### TK_GET_TEMP (R226) -/

theorem Machine.exec_tkGetTemp (x y : BitVec 64) (s : State) : exec (.tkGetTemp x y) s =
    checked (realOk x && realOk y)
      (fun s => s.answerReal (s.compute? fun N real => getTemperature N (real x) (real y))) s := rfl

section
variable {α : Type} {N : Num α} {x y m : α}

theorem Machine.getTemperature_of_first (h : t2mv N x = some m) : getTemperature N x y = mv2t N (N.add m y) := by
  rw [getTemperature, h, Option.bind_some]

theorem Machine.getTemperature_of_no_first (h : t2mv N x = none) : getTemperature N x y = none := by
  rw [getTemperature, h, Option.bind_none]

end

/-- Settles O56: the composite of the two table functions in the state's datapath, the first stage checked first. -/
theorem tkGetTempComposesTable : Obligations.TkGetTempComposesTable := by
  refine ⟨fun x y s hbad => ?malformed, fun x y s hx hy hnum => ?binary64, fun x y s hx hy hnum => ?exact⟩
  case malformed =>
    rw [Machine.exec_tkGetTemp]
    exact Machine.checked_malformed_onlyResponds ((Machine.realOk_and_eq_false x y).mpr hbad) _ s
  case binary64 =>
    rw [Machine.exec_tkGetTemp]
    obtain ⟨hsome, hnone⟩ := Machine.checked_answerReal_binary64 (Machine.realOk_and_eq_true hx hy) hnum
      (f := fun N real => Machine.getTemperature N (real x) (real y))
    exact ⟨fun m r hm hr => hsome r ((Machine.getTemperature_of_first hm).trans hr),
      fun hm => hnone (Machine.getTemperature_of_no_first hm),
      fun m hm hr => hnone ((Machine.getTemperature_of_first hm).trans hr)⟩
  case exact =>
    rw [Machine.exec_tkGetTemp]
    obtain ⟨hsome, hnone⟩ := Machine.checked_answerReal_exact (Machine.realOk_and_eq_true hx hy) hnum
      (f := fun N real => Machine.getTemperature N (real x) (real y))
      (Machine.getTemperature_exactData _ _ (Machine.plain_realOf s x) (Machine.plain_realOf s y))
    exact ⟨fun m r hm hr => hsome r ((Machine.getTemperature_of_first hm).trans hr),
      fun hm => hnone (Machine.getTemperature_of_no_first hm),
      fun m hm hr => hnone ((Machine.getTemperature_of_first hm).trans hr)⟩

end Sys2Proof
end

section
/-! PROOFS. CH_INIT, CH_AWAIT and WAIT (43_adc_channel.md R170, R176, R177): the flush before the verify, a wait to its end or
to a sample of 1, and the answers after them. -/

namespace Sys2Proof

/-! ### Answers, and waits seen from an earlier state -/

/-- A response after the events `es`. -/
theorem Machine.State.answers_respond {s u : State} {es : List Event} (h : u.trace = s.trace ++ es) (r : Response) :
    s.Answers (u.respond r) r es := ⟨rfl, rfl, rfl, by rw [respond_trace, h]⟩

theorem Machine.State.waitEnds_congr {s t : State} {a b : Nat} (h : ∀ i, t.upcoming (a + i) = s.upcoming (b + i))
    {m : WaitMode} {w : Nat} : t.WaitEnds m a w ↔ s.WaitEnds m b w := by
  cases m with
  | timed => exact Iff.rfl
  | polled => simp only [WaitEnds, h]

theorem Machine.State.waitEvents_congr {s t : State} (hm : t.waitMode = s.waitMode) (hn : t.num = s.num)
    (hc : t.hasCs = s.hasCs) (hp : t.pollCs = s.pollCs) (dr : BitVec 3) (w : Nat) :
    t.waitEvents dr w = s.waitEvents dr w := by
  unfold waitEvents
  rw [hm, hn, hc, hp]

/-- A POLLED wait whose first sample reads 1 stops there. -/
theorem Machine.State.waitThen_of_high {s : State} (hm : s.waitMode = .polled) (hu : s.upcoming 0 = true) (dr : BitVec 3)
    (p : Polling) (next : State → State) : s.waitThen dr p next = s.pollStart.takeSample.suspend p := by
  have hu' : s.pollStart.upcoming 0 = true := by rw [pollStart_eq]; exact hu
  rw [waitThen, wait_polled s dr hm, poll_waiting _ hu']
  exact if_neg Bool.false_ne_true

theorem Machine.isSome_ite_map (c : Prop) [Decidable c] (o : Option Bool) (f : Bool → Bool) :
    (if c then o.map f else o).isSome = o.isSome := by
  split
  · exact Option.isSome_map ..
  · rfl

/-! ### CH_INIT up to its verify -/

/-- What CH_INIT has done before it verifies the echo: the idle bus, the reset hold and the exchange of the probe word. -/
structure Machine.InitFlushed (m : WaitMode) (p : Pull) (s u : State) : Prop where
  trace : u.trace = s.trace ++ (csEvents s.hasCs true ++ [.pinWrite .sclk false, .sleep (s.num.ratio 30 1000), .sleepDone] ++
    exchangeEvents s.hasCs probeWord s.upcoming)
  chan : u.chan = .uninit
  waitMode : u.waitMode = m
  pull : u.pull = p
  registers : s.AfterExchange u probeWord 0
  samples : s.Sampled u 32
  buffers : s.sameBuffers u
  params : s.sameParams u
  upcoming : ∀ i, u.upcoming i = s.upcoming (32 + i)
  raw : u.rawExchange = s.sampledRaw 0
  hostReq : u.hostReq = s.hostReq
  hostResp : u.hostResp = s.hostResp

theorem Machine.State.initFlushed (m : WaitMode) (p : Pull) (s : State) : InitFlushed m p s (s.initFlush m p) := by
  have hcs : (s.csN.map fun _ => true).isSome = s.hasCs := Option.isSome_map ..
  rw [initFlush_eq]
  generalize hv : ({ s with
      chan := .uninit, waitMode := m, pull := p, csN := s.csN.map fun _ => true, sclk := false,
      trace := s.trace ++ (csEvents s.hasCs true ++
        [.pinWrite .sclk false, .sleep (s.num.ratio 30 1000), .sleepDone]) } : State) = v
  have hvcs : v.hasCs = s.hasCs := by rw [← hv]; exact hcs
  have hup : v.upcoming = s.upcoming := by rw [← hv]; rfl
  obtain ⟨htx, hslot, hsclk, hdout, hcsN, hrx⟩ := v.afterExchange_exchange probeWord
  refine ⟨?trace, ?chan, ?waitMode, ?pull, ⟨htx, hslot, hsclk, hdout, ?csN, ?rx⟩, ?samples, ?buffers, ?params, ?upcoming,
    ?raw, ?hostReq, ?hostResp⟩
  case trace => rw [exchange_trace, hvcs, hup, ← hv, List.append_assoc]
  case chan => rw [exchange_chan, ← hv]
  case waitMode => rw [exchange_waitMode, ← hv]
  case pull => rw [exchange_pull, ← hv]
  case csN => rw [hcsN, ← hv, Option.map_map]; rfl
  case rx => rw [← hup]; exact hrx
  case samples => rw [Sampled, exchange_din, exchange_drawn, ← hv]; exact ⟨rfl, rfl⟩
  case buffers =>
    rw [sameBuffers, exchange_bcmd, exchange_braw, exchange_bres, exchange_bn, ← hv]; exact ⟨rfl, rfl, rfl, rfl⟩
  case params =>
    rw [sameParams, exchange_hasCs, hvcs, exchange_pollCs, exchange_batchAbort, exchange_num, exchange_reals, ← hv]
    exact ⟨rfl, rfl, rfl, rfl, rfl⟩
  case upcoming => intro i; rw [exchange_upcoming, hup]
  case raw => rw [exchange_rawExchange]; exact sampledRaw_congr fun i => by rw [hup]
  case hostReq => rw [exchange_hostReq, ← hv]
  case hostResp => rw [exchange_hostResp, ← hv]

/-- CH_INIT with a legal PULLC is its flush and then the verify of the echo. -/
theorem Machine.exec_chInit_of_legal {p : BitVec 2} (hp : p ≠ 3#2) (m : WaitMode) (s : State) :
    exec (.chInit m p) s = .next (s.initFlush m (pullOf p)).initVerify := by
  rw [exec_chInit, checked_eq_next ((pullOk_eq_true p).mpr hp)]

theorem Machine.State.initVerify_of_verified {s : State} (h : verify probe s.rawExchange.echo = true) :
    s.initVerify = s.waitThen 5 .init (State.finishIdle .nothing) := if_pos h

theorem Machine.State.initVerify_of_mismatch {s : State} (h : verify probe s.rawExchange.echo = false) :
    s.initVerify = s.respond (.fault (.connectionFault (popcount16 s.rawExchange.echo))) :=
  if_neg (by rw [h]; exact Bool.false_ne_true)

/-- Settles O33: after the flush the echo verifies, so CH_INIT is its wait, whose steps lead to the answer. -/
theorem chInitSucceeds : Obligations.ChInitSucceeds := by
  intro m p s w hp hverify hwait
  have hflush := s.initFlushed m (Machine.pullOf p)
  have hexec := Machine.exec_chInit_of_legal hp m s
  generalize s.initFlush m (Machine.pullOf p) = u at *
  have hend : u.WaitEnds u.waitMode 0 w := by
    rw [hflush.waitMode]
    exact (Machine.State.waitEnds_congr fun i => by rw [hflush.upcoming, Nat.zero_add]).mpr hwait
  rw [Machine.State.initVerify_of_verified (by rw [hflush.raw]; exact hverify)] at hexec
  obtain ⟨hdin, hdrawn⟩ := hflush.samples
  obtain ⟨htx, hslot, hsclk, hdout, hcsN, hrx⟩ := hflush.registers
  obtain ⟨hhasCs, hpollCs, -, hnum, -⟩ := hflush.params
  refine ⟨_, (u.waited 5 w).finishIdle .nothing, hexec, u.waitThen_run 5 w .init _ hend fun _ => rfl, ?_⟩
  rw [u.waited_eq 5 w hend]
  refine ⟨Machine.State.answers_respond ?trace _, rfl, hflush.waitMode, ?pull, ⟨htx, hslot, hsclk, hdout, ?csN, hrx⟩,
    ⟨?din, ?drawn⟩, hflush.buffers, ?params⟩
  case trace =>
    have hevents := Machine.State.waitEvents_congr (t := u) (s := { s with waitMode := m }) hflush.waitMode hnum hhasCs
      hpollCs 5 w
    show u.trace ++ u.waitEvents 5 w = _
    rw [hflush.trace, hevents, List.append_assoc]
  case pull => exact (congrArg _ hflush.pull).trans (Machine.pullOf_code p hp)
  case csN =>
    show (if _ then u.csN.map (fun _ => true) else u.csN) = _
    rw [hcsN, Option.map_map]
    exact ite_self _
  case din =>
    show u.din.drop (Machine.waitSamples u.waitMode w) = _
    rw [hdin, hflush.waitMode, List.drop_drop]
  case drawn =>
    show u.drawn + Machine.waitSamples u.waitMode w = _
    rw [hdrawn, hflush.waitMode, Nat.add_assoc]
  case params =>
    obtain ⟨-, -, habort, -, hreals⟩ := hflush.params
    exact ⟨(Machine.isSome_ite_map _ _ _).trans hhasCs, hpollCs, habort, hnum, hreals⟩

/-- Settles O34: after the flush the echo does not verify, so CH_INIT responds at once. -/
theorem chInitConnectionFault : Obligations.ChInitConnectionFault := by
  intro m p s hp hmismatch
  have hflush := s.initFlushed m (Machine.pullOf p)
  have hexec := Machine.exec_chInit_of_legal hp m s
  generalize s.initFlush m (Machine.pullOf p) = u at *
  have hecho : u.rawExchange.echo = s.sampledWord 0 := by rw [hflush.raw]; rfl
  rw [Machine.State.initVerify_of_mismatch (by rw [hecho]; exact hmismatch), hecho] at hexec
  exact ⟨_, hexec, Machine.State.answers_respond hflush.trace _, hflush.chan, hflush.waitMode,
    (congrArg _ hflush.pull).trans (Machine.pullOf_code p hp), hflush.registers, hflush.samples, hflush.buffers, hflush.params⟩

/-! ### CH_AWAIT -/

theorem Machine.exec_chAwait_of_idle {s : State} (h : s.chan = .idle) (d : BitVec 3) :
    exec (.chAwait d) s = .next ((s.setChan .exch).waitThen d .await (State.finishIdle .nothing)) := by
  rw [exec_chAwait, checked_eq_next rfl, State.whenIdle_of_idle h]
  rfl

/-- Settles O35: CH_AWAIT is its wait, whose steps lead to the answer. -/
theorem chAwaitCompletes : Obligations.ChAwaitCompletes := by
  intro d s w hidle hwait
  have hrun := (s.setChan .exch).waitThen_run d w .await (Machine.State.finishIdle .nothing) hwait fun _ => rfl
  refine ⟨_, ((s.setChan .exch).waited d w).finishIdle .nothing, Machine.exec_chAwait_of_idle hidle d, hrun, ?_⟩
  rw [Machine.State.waited_eq (s.setChan .exch) d w hwait]
  exact ⟨Machine.State.answers_respond rfl _, rfl, rfl, rfl, rfl, rfl, rfl, rfl, rfl, ⟨rfl, rfl, rfl, rfl⟩,
    ⟨Machine.isSome_ite_map _ _ _, rfl, rfl, rfl, rfl⟩, ⟨rfl, rfl⟩, rfl⟩

/-! ### Waits at a sample of 1 -/

/-- Settles O36: the wait stops at its first sample. -/
theorem chAwaitWaitsWhileDinHigh : Obligations.ChAwaitWaitsWhileDinHigh := by
  intro d s hidle hm hu
  have hexec := Machine.exec_chAwait_of_idle hidle d
  rw [Machine.State.waitThen_of_high (s := s.setChan .exch) hm hu, Machine.State.pollStart_eq] at hexec
  refine ⟨_, hexec, rfl, rfl, rfl, rfl, ⟨List.drop_one.symm, rfl⟩, ?_⟩
  exact congrArg (fun b => _ ++ [Machine.Event.pinSample b]) hu

/-- Settles O39: the samples of 1 are steps that do nothing else, and the first 0 is the step that ends the wait. -/
theorem polledWaitEndsAtFirstZero : Obligations.PolledWaitEndsAtFirstZero := by
  intro n s p hseq hhigh
  have hlow (h0 : s.upcoming n = false) := Machine.steps_low n s p hseq hhigh h0
  have hend (h0 : s.upcoming n = false) := Machine.State.poll_done (Machine.State.takeSamples n s)
    (by rw [Machine.State.takeSamples_upcoming]; exact h0)
  refine ⟨_, Machine.steps_high n s p hseq hhigh, ?_⟩
  refine ⟨?seq, ?chan, ?hostReq, ?hostResp, ?samples, ?trace, fun h0 => ?last⟩
  case last => rw [hlow h0, hend h0]
  all_goals rw [Machine.State.takeSamples_eq]
  case seq => exact hseq
  case samples => exact ⟨rfl, rfl⟩
  case trace => rw [Machine.map_pinSample_of _ n hhigh]

end Sys2Proof
end

section
/-! PROOFS. What CH_READ_BATCH does at each command and at its flush (43_adc_channel.md R180), and the operations at a POLLED
wait that goes on or ends (R176). -/

namespace Sys2Proof

/-! ### One command of the first loop -/

/-- The state a batch of `n` commands starts its first loop from. -/
def Machine.State.batchStart (n : Nat) (s : State) : State := (s.setBn n).setChan .exch

theorem Machine.exec_chReadBatch_of_idle {s : State} (h : s.chan = .idle) {cs : List AdcConfig} (hpos : 1 ≤ cs.length)
    (hlen : cs.length ≤ 16) :
    exec (.chReadBatch cs) s = .next ((s.batchStart cs.length).batchFrom 0 cs) := by
  rw [exec_chReadBatch, checked_eq_next ((listOk_eq_true cs).mpr hlen), State.whenIdle_of_idle h, State.readBatch_eq cs s hpos,
    State.batchStart]

section
variable {s : Machine.State} {k : Nat} {c : AdcConfig} {rest : List AdcConfig}

/-- A command that does not fault is sent and waited for. -/
theorem Machine.State.batchFrom_of_passed (h : s.batchAbort = .atFault → verify c (s.sampledWord 0) = true) :
    s.batchFrom k (c :: rest) =
      (s.batchSend k c).waitThen c.dataRate (.batch k rest) (State.batchFrom (k + 1) rest) := by
  have hraw := s.batchSend_rawExchange k c
  refine if_neg ?_
  rintro ⟨habort, hmismatch⟩
  rw [hraw] at hmismatch
  exact absurd ((h habort).symm.trans hmismatch) Bool.true_eq_false.mp

/-- Under AT_FAULT a command whose echo does not verify ends the batch. -/
theorem Machine.State.batchFrom_of_mismatch (habort : s.batchAbort = .atFault) (h : verify c (s.sampledWord 0) = false) :
    s.batchFrom k (c :: rest) = (s.batchSend k c).batchFault (s.sampledWord 0) := by
  have hraw := s.batchSend_rawExchange k c
  rw [batchFrom, if_pos ⟨habort, by rw [hraw]; exact h⟩, hraw]
  rfl

end

/-! ### A state reached inside an operation -/

/-- `u` comes after `s` in one operation: the events `es` and `n` samples later, the mode and the parameters kept. -/
structure Machine.Reached (es : List Event) (n : Nat) (s u : State) : Prop where
  trace : u.trace = s.trace ++ es
  samples : s.Sampled u n
  params : s.sameParams u
  waitMode : u.waitMode = s.waitMode
  pull : u.pull = s.pull

section
variable {s u x t : Machine.State} {es : List Machine.Event} {n k : Nat} {c : Word16}

theorem Machine.Reached.upcoming (h : Reached es n s u) (i : Nat) : u.upcoming i = s.upcoming (n + i) := by
  obtain ⟨hdin, hdrawn⟩ := h.samples
  rw [State.upcoming, State.upcoming, hdin, hdrawn, List.getElem?_drop, Nat.add_assoc]

theorem Machine.Reached.sampledRaw (h : Reached es n s u) : u.sampledRaw 0 = s.sampledRaw n :=
  State.sampledRaw_congr fun i => by rw [h.upcoming, Nat.zero_add]

theorem Machine.Reached.sampledWord (h : Reached es n s u) : u.sampledWord 0 = s.sampledWord n :=
  State.sampledWord_congr fun i => by rw [h.upcoming, Nat.zero_add]

/-- The events of an exchange from `u`, seen from `s`. -/
theorem Machine.Reached.exchangeEvents_eq (h : Reached es n s u) (c : Word16) :
    exchangeEvents u.hasCs c u.upcoming = exchangeEvents s.hasCs c fun i => s.upcoming (n + i) := by
  rw [h.params.1, funext h.upcoming]

/-- The registers after an exchange from `u`, seen from `s`. -/
theorem Machine.Reached.afterExchange (h : Reached es n s u) (hx : u.AfterExchange x c 0) : s.AfterExchange x c n := by
  obtain ⟨htx, hslot, hsclk, hdout, hcsN, hrx⟩ := hx
  refine ⟨htx, hslot, hsclk, hdout, hcsN.trans (State.csN_map_congr h.params.1), fun k hk => (hrx k hk).trans ?_⟩
  rw [Nat.zero_add, h.upcoming]

/-- A step that ends a POLLED wait has taken one sample and released CS_N where POLL_CS is asserted. -/
theorem Machine.State.reached_poll (h : s.upcoming 0 = false) :
    Reached (.pinSample false :: csEvents (s.hasCs && decide (s.pollCs = .asserted)) true) 1 s s.poll.1 where
  trace := by rw [poll_eq s h]
  samples := ⟨s.poll_din.trans List.drop_one.symm, s.poll_drawn⟩
  params := ⟨s.poll_hasCs, s.poll_pollCs, s.poll_batchAbort, s.poll_num, s.poll_reals⟩
  waitMode := s.poll_waitMode
  pull := s.poll_pull

/-- `t` answers with `r` in IDLE straight after an exchange of `c`, which comes the events `es` and `n` samples after `s`. -/
structure Machine.AnswersExchange (s t : State) (r : Response) (es : List Event) (c : Word16) (n : Nat) : Prop where
  answers : s.Answers t r (es ++ exchangeEvents s.hasCs c fun i => s.upcoming (n + i))
  chan : t.chan = .idle
  waitMode : t.waitMode = s.waitMode
  pull : t.pull = s.pull
  registers : s.AfterExchange t c n
  samples : s.Sampled t (n + 32)
  params : s.sameParams t

theorem Machine.Reached.answersExchange (h : Reached es n s u) (hx : Reached (exchangeEvents u.hasCs c u.upcoming) 32 u x)
    (hregisters : u.AfterExchange x c 0) (r : Response) :
    AnswersExchange s ((x.setChan .idle).respond r) r es c n where
  answers := State.answers_respond (u := x.setChan .idle)
    (hx.trace.trans (by rw [h.trace, h.exchangeEvents_eq, List.append_assoc])) r
  chan := rfl
  waitMode := hx.waitMode.trans h.waitMode
  pull := hx.pull.trans h.pull
  registers := h.afterExchange hregisters
  samples := ⟨hx.samples.1.trans (by rw [h.samples.1, List.drop_drop]),
    hx.samples.2.trans (by rw [h.samples.2, Nat.add_assoc])⟩
  params := by
    obtain ⟨hcs, hpoll, habort, hnum, hreals⟩ := h.params
    obtain ⟨hcs', hpoll', habort', hnum', hreals'⟩ := hx.params
    exact ⟨hcs'.trans hcs, hpoll'.trans hpoll, habort'.trans habort, hnum'.trans hnum, hreals'.trans hreals⟩

/-- What sending the batch's command `k`, before its wait, does to `s`. -/
structure Machine.CommandSent (k : Nat) (c : AdcConfig) (s u : State) : Prop where
  reached : Reached (exchangeEvents s.hasCs (encodeConfig c) s.upcoming) 32 s u
  registers : s.AfterExchange u (encodeConfig c) 0
  chan : u.chan = s.chan
  hostReq : u.hostReq = s.hostReq
  hostResp : u.hostResp = s.hostResp
  bn : u.bn = s.bn
  bres : u.bres = s.bres
  cmd : u.bcmdAt k = c
  raw : u.brawAt k = s.sampledRaw 0
  kept : ∀ j ≠ k, u.bcmdAt j = s.bcmdAt j ∧ u.brawAt j = s.brawAt j

theorem Machine.State.commandSent (hk : k < 16) (c : AdcConfig) (s : State) : CommandSent k c s (s.batchSend k c) where
  reached := ⟨s.batchSend_trace k c, ⟨s.batchSend_din k c, s.batchSend_drawn k c⟩,
    ⟨s.batchSend_hasCs k c, s.batchSend_pollCs k c, s.batchSend_batchAbort k c, s.batchSend_num k c, s.batchSend_reals k c⟩,
    s.batchSend_waitMode k c, s.batchSend_pull k c⟩
  registers := by
    have h := (s.setBcmd k c).afterExchange_exchange (encodeConfig c)
    rw [batchSend_eq]
    exact h
  chan := s.batchSend_chan k c
  hostReq := s.batchSend_hostReq k c
  hostResp := s.batchSend_hostResp k c
  bn := s.batchSend_bn k c
  bres := s.batchSend_bres k c
  cmd := by rw [batchSend_bcmdAt _ _ _ hk, if_pos rfl]
  raw := by rw [batchSend_brawAt _ _ _ (by omega), if_pos rfl]
  kept := fun j hj => by
    rw [batchSend_bcmdAt _ _ _ hk, batchSend_brawAt _ _ _ (by omega), if_neg hj, if_neg hj]; exact ⟨rfl, rfl⟩

end

/-! ### The flush and the answer -/

/-- The raw exchange `j` once the flush of `u` is stored as BRAW[BN]. -/
def Machine.State.flushRaw (u : State) (j : Nat) : RawExchange := if j = u.bn then u.sampledRaw 0 else u.brawAt j

/-- What the flush makes of command `j`: its interpretation with the data of the next exchange. -/
def Machine.State.flushMeas (u : State) (j : Nat) : Measurement :=
  Machine.interpret u.num (u.bcmdAt j) (seq16 (u.flushRaw (j + 1)).data)

/-- The state before the second loop. -/
def Machine.State.flushed (u : State) : State := (u.exchange probeWord).setBraw u.bn (u.sampledRaw 0)

/-- `t` answers with `r` after the flush of `u`, which comes the events `es` and `n` samples after `s`; the raw exchange is
stored and BRES is `b`. -/
structure Machine.FlushAnswers (s : State) (es : List Event) (n : Nat) (u t : State) (r : Response)
    (b : Vector Measurement 16) : Prop where
  exchange : AnswersExchange s t r es probeWord n
  bn : t.bn = u.bn
  bcmd : t.bcmd = u.bcmd
  braw : ∀ j, t.brawAt j = u.flushRaw j
  bres : t.bres = b

section
variable {s u : Machine.State} {es : List Machine.Event} {n : Nat}

theorem Machine.State.batchFlush_eq (u : State) : u.batchFlush = u.flushed.batchPair 0 u.bn := by
  have hraw := u.exchange_rawExchange probeWord
  unfold batchFlush flushed
  simp only [hraw]

theorem Machine.State.flushed_bcmd (u : State) : u.flushed.bcmd = u.bcmd := u.exchange_bcmd probeWord

theorem Machine.State.flushed_brawAt (h : u.bn ≤ 16) (j : Nat) : u.flushed.brawAt j = u.flushRaw j := by
  rw [flushed, brawAt_setBraw _ (by omega), flushRaw, brawAt_congr (u.exchange_braw probeWord)]

theorem Machine.State.flushRaw_of_lt {j : Nat} (h : j < u.bn) : u.flushRaw j = u.brawAt j := if_neg h.ne

theorem Machine.State.interpret_flushed (h : u.bn ≤ 16) (j : Nat) :
    Machine.interpret u.flushed.num (u.flushed.bcmdAt j) (seq16 (u.flushed.brawAt (j + 1)).data) = u.flushMeas j := by
  rw [flushed_brawAt h, bcmdAt_congr u.flushed_bcmd, flushMeas]
  exact congrArg (fun n => Machine.interpret n _ _) (u.exchange_num probeWord)

/-- Whatever the second loop answers, the flush has left the rest. -/
theorem Machine.Reached.flushAnswers (h : Reached es n s u) (hbn : u.bn ≤ 16) (b : Vector Measurement 16) (r : Response) :
    FlushAnswers s es n u (((u.flushed.withBres b).setChan .idle).respond r) r b := by
  have hraw := State.flushed_brawAt hbn
  have hregisters := u.afterExchange_exchange probeWord
  have hexchange : Reached (exchangeEvents u.hasCs probeWord u.upcoming) 32 u (u.exchange probeWord) :=
    ⟨u.exchange_trace probeWord, u.sampled_exchange probeWord, u.sameParams_exchange probeWord, u.exchange_waitMode probeWord,
      u.exchange_pull probeWord⟩
  have hbn := u.exchange_bn probeWord
  have hbcmd := u.exchange_bcmd probeWord
  unfold State.flushed at *
  generalize u.exchange probeWord = v at *
  obtain ⟨htrace, hsamples, hparams, hwaitMode, hpull⟩ := hexchange
  exact ⟨h.answersExchange (x := (v.setBraw u.bn (u.sampledRaw 0)).withBres b)
    ⟨htrace, hsamples, hparams, hwaitMode, hpull⟩ hregisters r, hbn, hbcmd, hraw, rfl⟩

theorem take_eq_map_range {α : Type} {l : List α} {f : Nat → α} {n : Nat} (h : ∀ j < n, l[j]? = some (f j)) :
    l.take n = (List.range n).map f := by
  apply List.ext_getElem?
  intro j
  by_cases hj : j < n
  · rw [List.getElem?_take_of_lt hj, h j hj, List.getElem?_map, List.getElem?_range hj, Option.map_some]
  · rw [List.getElem?_take_eq_none (by omega), List.getElem?_eq_none (by simpa using hj)]

/-- A flush whose echoes all verify, or need not, answers with every measurement. -/
theorem Machine.Reached.batchFlush_ok (h : Reached es n s u) (hbn : u.bn ≤ 16)
    (hv : u.batchAbort = .afterAll → ∀ j < u.bn, verify (u.bcmdAt j) (u.brawAt j).echo = true) :
    ∃ b, FlushAnswers s es n u u.batchFlush (.ok (.measList ((List.range u.bn).map u.flushMeas))) b ∧
      (∀ j < u.bn, b.toList[j]? = some (u.flushMeas j)) ∧ ∀ j, u.bn ≤ j → b.toList[j]? = u.bres.toList[j]? := by
  have hflushedBn : u.flushed.bn = u.bn := u.exchange_bn probeWord
  obtain ⟨b, hpair, hkept, hmeas⟩ := State.batchPair_ok u.bn 0 u.flushed (by omega) fun habort j _ hj => by
    rw [State.bcmdAt_congr u.flushed_bcmd, State.flushed_brawAt hbn, State.flushRaw_of_lt (by omega)]
    exact hv ((u.exchange_batchAbort probeWord).symm.trans habort) j (by omega)
  have hmeas' : ∀ j < u.bn, b.toList[j]? = some (u.flushMeas j) := fun j hj => by
    rw [hmeas j (Nat.zero_le j) (by omega), State.interpret_flushed hbn]
  have hlist : (u.flushed.withBres b).bresUpTo u.flushed.bn = (List.range u.bn).map u.flushMeas := by
    rw [hflushedBn]; exact take_eq_map_range hmeas'
  refine ⟨b, ?_, hmeas', fun j hj => (hkept j (by omega)).trans ?_⟩
  · rw [State.batchFlush_eq, hpair, hlist]; exact h.flushAnswers hbn b _
  · exact congrArg (fun v => v.toList[j]?) (u.exchange_bres probeWord)

/-- Under AFTER_ALL the first echo that does not verify is the answer, with BRES written up to its command. -/
theorem Machine.Reached.batchFlush_fault (h : Reached es n s u) (hbn : u.bn ≤ 16) (habort : u.batchAbort = .afterAll) {i : Nat}
    (hi : i < u.bn) (hv : ∀ j < i, verify (u.bcmdAt j) (u.brawAt j).echo = true)
    (hf : verify (u.bcmdAt i) (u.brawAt i).echo = false) :
    ∃ b, FlushAnswers s es n u u.batchFlush (.fault (.connectionFault (popcount16 (u.brawAt i).echo))) b ∧
      (∀ j ≤ i, b.toList[j]? = some (u.flushMeas j)) ∧ ∀ j, i < j → b.toList[j]? = u.bres.toList[j]? := by
  have hecho {j : Nat} (hj : j ≤ i) : u.flushed.brawAt j = u.brawAt j := by
    rw [State.flushed_brawAt hbn, State.flushRaw_of_lt (by omega)]
  obtain ⟨b, hpair, hkept, hmeas⟩ := State.batchPair_fault u.bn 0 u.flushed ((u.exchange_batchAbort probeWord).trans habort) i
    (Nat.zero_le i) (by omega) (by omega)
    (fun j _ hj => by rw [State.bcmdAt_congr u.flushed_bcmd, hecho hj.le]; exact hv j hj)
    (by rw [State.bcmdAt_congr u.flushed_bcmd, hecho le_rfl]; exact hf)
  rw [hecho le_rfl] at hpair
  refine ⟨b, ?_, fun j hj => ?_, fun j hj => (hkept j (.inr hj)).trans ?_⟩
  · rw [State.batchFlush_eq, hpair]; exact h.flushAnswers hbn b _
  · rw [hmeas j (Nat.zero_le j) hj, State.interpret_flushed hbn]
  · exact congrArg (fun v => v.toList[j]?) (u.exchange_bres probeWord)

end

/-! ### A wait that goes on (R176) -/

/-- Settles O37: each first wait stops at its sample, CH_INIT's after the flush and a batch's after its first command. -/
theorem initAndBatchWaitWhileDinHigh : Obligations.InitAndBatchWaitWhileDinHigh := by
  refine ⟨fun p s hp hverify hu => ?init, fun c rest s hidle hm hlen hv hu => ?batch⟩
  case init =>
    have hflush := s.initFlushed .polled (Machine.pullOf p)
    have hexec := Machine.exec_chInit_of_legal hp .polled s
    generalize s.initFlush .polled (Machine.pullOf p) = u at *
    rw [Machine.State.initVerify_of_verified (by rw [hflush.raw]; exact hverify),
      Machine.State.waitThen_of_high hflush.waitMode ((hflush.upcoming 0).trans hu), Machine.State.pollStart_eq] at hexec
    obtain ⟨hdin, hdrawn⟩ := hflush.samples
    refine ⟨_, hexec, hflush.chan, rfl, hflush.waitMode, (congrArg _ hflush.pull).trans (Machine.pullOf_code p hp),
      hflush.hostReq, hflush.hostResp, ?din, ?drawn⟩
    case din => exact (congrArg List.tail hdin).trans List.tail_drop
    case drawn => exact congrArg (· + 1) hdrawn
  case batch =>
    have hlen' : (c :: rest).length ≤ 16 := by rw [List.length_cons]; omega
    have hexec := Machine.exec_chReadBatch_of_idle hidle (cs := c :: rest) (by simp) hlen'
    have hfirst : (s.batchStart (c :: rest).length).batchAbort = .atFault →
      Machine.verify c ((s.batchStart (c :: rest).length).sampledWord 0) = true := hv
    have hsent := Machine.State.commandSent (k := 0) (by decide) c (s.batchStart (c :: rest).length)
    rw [Machine.State.batchFrom_of_passed hfirst] at hexec
    generalize (s.batchStart (c :: rest).length).batchSend 0 c = u at *
    rw [Machine.State.waitThen_of_high
      (hsent.reached.waitMode.trans hm) ((hsent.reached.upcoming 0).trans hu), Machine.State.pollStart_eq]
      at hexec
    obtain ⟨hdin, hdrawn⟩ := hsent.reached.samples
    refine ⟨_, hexec, hsent.chan, rfl, hsent.bn, hsent.cmd, hsent.raw, hsent.hostReq, hsent.hostResp, ?din, ?drawn⟩
    case din => exact (congrArg List.tail hdin).trans List.tail_drop
    case drawn => exact congrArg (· + 1) hdrawn

end Sys2Proof
end

section
/-! PROOFS. What an operation does once its POLLED wait ends (43_adc_channel.md R170, R177, R180). -/

namespace Sys2Proof

/-- A wait taken up from just before its first sample is the wait. -/
theorem Machine.State.waitThen_eq_resume {s : State} (hm : s.waitMode = .polled) {p : Polling} {next : State → State}
    (hnext : ∀ t, State.afterWait p (t.suspend p) = next t) (dr : BitVec 3) :
    s.waitThen dr p next = (s.pollStart.suspend p).resume p := by
  rw [waitThen, wait_polled s dr hm, resume, poll_suspend, hnext]

theorem Machine.step_of_ended {s : State} {p : Polling} (hs : s.seq = .polling p) (hlow : s.upcoming 0 = false) :
    step s = .next (State.afterWait p s.poll.1) := step_low s p hs hlow

/-- CH_INIT and CH_AWAIT answer. -/
theorem Machine.ended_init_or_await {s : State} {p : Polling} (hp : p = .init ∨ p = .await) (hs : s.seq = .polling p)
    (hlow : s.upcoming 0 = false) : step s = .next ((s.poll.1.setChan .idle).respond (.ok .nothing)) := by
  rw [step_of_ended hs hlow]
  rcases hp with rfl | rfl <;> rfl

section
variable {s : Machine.State} {k : Nat} {c : AdcConfig} {cs : List AdcConfig}

/-- Under AT_FAULT a batch ends at a command whose echo does not verify. -/
theorem Machine.ended_batch_fault (hs : s.seq = .polling (.batch k (c :: cs))) (hlow : s.upcoming 0 = false)
    (habort : s.batchAbort = .atFault) (hmismatch : verify c (s.sampledWord 1) = false) :
    step s = .next (((s.poll.1.batchSend (k + 1) c).setChan .idle).respond
      (.fault (.connectionFault (popcount16 (s.sampledWord 1))))) := by
  have hecho := (State.reached_poll hlow).sampledWord
  rw [step_of_ended hs hlow, State.afterWait, State.batchFrom_of_mismatch (s.poll_batchAbort.trans habort)
    (by rw [hecho]; exact hmismatch), hecho]
  rfl

/-- A batch sends its next command and is in that command's wait. -/
theorem Machine.ended_batch_next (hs : s.seq = .polling (.batch k (c :: cs))) (hlow : s.upcoming 0 = false)
    (hm : s.waitMode = .polled) (hv : s.batchAbort = .atFault → verify c (s.sampledWord 1) = true) :
    step s = step ((s.poll.1.batchSend (k + 1) c).pollStart.suspend (.batch (k + 1) cs)) := by
  have hecho := (State.reached_poll hlow).sampledWord
  have hmode : (s.poll.1.batchSend (k + 1) c).waitMode = .polled := by rw [State.batchSend_waitMode, State.poll_waitMode, hm]
  have hresume := State.waitThen_eq_resume hmode (p := .batch (k + 1) cs) (next := State.batchFrom (k + 1 + 1) cs)
    (fun t => t.batchFrom_suspend _ cs (k + 1 + 1)) c.dataRate
  have hv' : s.poll.1.batchAbort = .atFault → verify c (s.poll.1.sampledWord 0) = true := by
    rw [State.poll_batchAbort, hecho]; exact hv
  rw [step_of_ended hs hlow, State.afterWait, State.batchFrom_of_passed hv', hresume, step_of_polling rfl]

end

/-- CS_N at the start of a poll, from high. -/
theorem Machine.pollStart_csN_of_high {s x : State} (hcsN : x.csN = s.csN.map fun _ => true) (hpoll : x.pollCs = s.pollCs) :
    x.pollStart.csN = s.csN.map fun _ => decide (s.pollCs = .deasserted) := by
  rw [State.pollStart_eq]
  show (if x.pollCs = .asserted then x.csN.map (fun _ => false) else x.csN) = _
  rw [hcsN, hpoll]
  cases s.pollCs
  · rfl
  · exact (if_pos rfl).trans (Option.map_map ..)

/-- Settles O38: the step goes on from the state one sample later, CS_N released; there CH_INIT and CH_AWAIT answer, and a
batch sends its next command or flushes. -/
theorem endedWaitAnswersInitAndAwait : Obligations.EndedWaitAnswersInitAndAwait := by
  refine ⟨fun s p hs hp hlow => ?answer, fun s k c cs hs hlow hk habort hmismatch => ?fault,
    fun s k c cs hs hlow hk hm hv => ?next, fun s k hs hlow hbn => ?flush⟩
  case answer =>
    refine ⟨_, Machine.ended_init_or_await hp hs hlow, ?_⟩
    rw [Machine.State.poll_eq s hlow]
    exact ⟨rfl, ⟨List.drop_one.symm, rfl⟩, Machine.State.answers_respond rfl _, rfl, rfl, rfl, rfl, rfl, rfl, rfl, rfl,
      ⟨rfl, rfl, rfl, rfl⟩, ⟨Machine.isSome_ite_map _ _ _, rfl, rfl, rfl, rfl⟩⟩
  case fault =>
    have hpoll := Machine.State.reached_poll hlow
    have hsent := s.poll.1.commandSent hk c
    have hstep := Machine.ended_batch_fault hs hlow habort hmismatch
    generalize s.poll.1.batchSend (k + 1) c = x at *
    have h := hpoll.answersExchange hsent.reached hsent.registers
      (.fault (.connectionFault (Machine.popcount16 (s.sampledWord 1))))
    refine ⟨_, hstep, h.answers, h.chan, h.waitMode, h.pull, h.registers, h.samples, h.params, hsent.bn.trans s.poll_bn,
      hsent.bres.trans s.poll_bres, hsent.cmd, hsent.raw.trans hpoll.sampledRaw, fun j hj => ?_⟩
    obtain ⟨hcmd, hraw⟩ := hsent.kept j hj
    exact ⟨hcmd.trans (Machine.State.bcmdAt_congr s.poll_bcmd j), hraw.trans (Machine.State.brawAt_congr s.poll_braw j)⟩
  case next =>
    have hpoll := Machine.State.reached_poll hlow
    have hsent := s.poll.1.commandSent hk c
    have hstep := Machine.ended_batch_next hs hlow hm hv
    generalize s.poll.1.batchSend (k + 1) c = x at *
    have hhasCs := hsent.reached.params.1.trans hpoll.params.1
    have hpollCs := hsent.reached.params.2.1.trans hpoll.params.2.1
    obtain ⟨htx, hslot, hsclk, hdout, hcsN, hrx⟩ := hpoll.afterExchange hsent.registers
    have hlatch := Machine.pollStart_csN_of_high hcsN hpollCs
    rw [Machine.State.pollStart_eq] at hstep hlatch
    refine ⟨_, hstep, rfl, ?trace, hlatch, ⟨htx, hslot, hsclk, hdout, rfl, hrx⟩, ?samples, hsent.chan.trans s.poll_chan,
      hsent.reached.waitMode.trans hpoll.waitMode, hsent.reached.pull.trans hpoll.pull, ?params,
      hsent.hostReq.trans s.poll_hostReq, hsent.hostResp.trans s.poll_hostResp, hsent.bn.trans s.poll_bn,
      hsent.bres.trans s.poll_bres, hsent.cmd, hsent.raw.trans hpoll.sampledRaw, fun j hj => ?kept⟩
    case trace =>
      show x.trace ++ Machine.csEvents (x.hasCs && decide (x.pollCs = .asserted)) false = _
      rw [hsent.reached.trace, hpoll.trace, hpoll.exchangeEvents_eq, hhasCs, hpollCs]
      simp only [List.append_assoc]
    case samples =>
      exact ⟨hsent.reached.samples.1.trans (by rw [hpoll.samples.1, List.drop_drop]),
        hsent.reached.samples.2.trans (by rw [hpoll.samples.2])⟩
    case params =>
      obtain ⟨-, -, habort, hnum, hreals⟩ := hsent.reached.params
      exact ⟨(Machine.isSome_ite_map _ _ _).trans hhasCs, hpollCs, habort.trans s.poll_batchAbort, hnum.trans s.poll_num,
        hreals.trans s.poll_reals⟩
    case kept =>
      obtain ⟨hcmd, hraw⟩ := hsent.kept j hj
      exact ⟨hcmd.trans (Machine.State.bcmdAt_congr s.poll_bcmd j), hraw.trans (Machine.State.brawAt_congr s.poll_braw j)⟩
  case flush =>
    intro es raw meas
    have hpoll := Machine.State.reached_poll hlow
    have hstep : Machine.step s = .next s.poll.1.batchFlush := Machine.step_of_ended hs hlow
    have hbn' : s.poll.1.bn ≤ 16 := by rw [s.poll_bn]; exact hbn
    have hcmd (j : Nat) : s.poll.1.bcmdAt j = s.bcmdAt j := Machine.State.bcmdAt_congr s.poll_bcmd j
    have hraw (j : Nat) : s.poll.1.brawAt j = s.brawAt j := Machine.State.brawAt_congr s.poll_braw j
    have hflushRaw (j : Nat) : s.poll.1.flushRaw j = raw j := by
      rw [Machine.State.flushRaw, s.poll_bn, hpoll.sampledRaw, hraw]
    have hflushMeas (j : Nat) : s.poll.1.flushMeas j = meas j := by
      rw [Machine.State.flushMeas, hflushRaw, hcmd, s.poll_num]
    constructor
    · intro hv
      obtain ⟨b, hflush, hmeas, hkept⟩ := hpoll.batchFlush_ok hbn' fun habort j hj => by
        rw [hcmd, hraw]; exact hv (s.poll_batchAbort.symm.trans habort) j (s.poll_bn ▸ hj)
      rw [s.poll_bn, funext hflushMeas] at hflush
      rw [s.poll_bn, s.poll_bres] at hkept
      rw [s.poll_bn] at hmeas
      have h := hflush.exchange
      refine ⟨_, hstep, h.answers, h.chan, h.waitMode, h.pull, h.registers, h.samples, h.params, hflush.bn.trans s.poll_bn,
        hflush.bcmd.trans s.poll_bcmd, fun j => (hflush.braw j).trans (hflushRaw j), fun j hj => ?_, fun j hj => ?_⟩
      · rw [hflush.bres, hmeas j hj, hflushMeas]
      · rw [hflush.bres, hkept j hj]
    · intro i hi habort hv hf
      obtain ⟨b, hflush, hmeas, hkept⟩ := hpoll.batchFlush_fault hbn' (s.poll_batchAbort.trans habort) (s.poll_bn.symm ▸ hi)
        (fun j hj => by rw [hcmd, hraw]; exact hv j hj) (by rw [hcmd, hraw]; exact hf)
      rw [hraw] at hflush
      rw [s.poll_bres] at hkept
      have h := hflush.exchange
      refine ⟨_, hstep, h.answers, h.chan, h.waitMode, h.pull, h.registers, h.samples, h.params, hflush.bn.trans s.poll_bn,
        hflush.bcmd.trans s.poll_bcmd, fun j => (hflush.braw j).trans (hflushRaw j), fun j hj => ?_, fun j hj => ?_⟩
      · rw [hflush.bres, hmeas j hj, hflushMeas]
      · rw [hflush.bres, hkept j hj]

end Sys2Proof
end

section
/-! PROOFS. CH_READ_BATCH from its start to its answer (43_adc_channel.md R180, R181): the first loop, where every wait runs to its
last sample, and then the flush or the fault. -/

namespace Sys2Proof

/-! ### The first loop -/

/-- What the first loop of a batch of `n` commands has done once it has sent `cs` and waited for each, wait `j` seeing `w j`
samples of 1. -/
structure Machine.LoopSent (cs : List AdcConfig) (w : Nat → Nat) (n : Nat) (s u : State) : Prop where
  reached : Reached (s.batchEvents cs w) (s.batchAt w cs.length) s u
  bn : u.bn = n
  bres : u.bres = s.bres
  cmd : ∀ j < cs.length, u.bcmdAt j = cs.getD j zeroConfig
  raw : ∀ j < cs.length, u.brawAt j = s.sampledRaw (s.batchAt w j)
  kept : ∀ j, cs.length ≤ j → u.bcmdAt j = s.bcmdAt j ∧ u.brawAt j = s.brawAt j

section
variable {s u : Machine.State} {cs : List AdcConfig} {w : Nat → Nat} {n : Nat}

theorem Machine.State.batchAt_batchStart (s : State) (w : Nat → Nat) (n : Nat) : (s.batchStart n).batchAt w = s.batchAt w :=
  funext (batchAt_congr (s := s.batchStart n) (t := s) rfl w)

theorem Machine.State.BatchWaits.batchStart {m : Nat} (h : s.BatchWaits w m) (n : Nat) : (s.batchStart n).BatchWaits w m := by
  intro j hj
  rw [batchAt_batchStart]
  exact (waitEnds_congr fun _ => rfl).mpr (h j hj)

theorem Machine.State.batchEvents_batchStart (s : State) (cs : List AdcConfig) (w : Nat → Nat) (n : Nat) :
    (s.batchStart n).batchEvents cs w = s.batchEvents cs w := by
  unfold batchEvents
  rw [batchAt_batchStart]
  rfl

theorem Machine.State.loopSent (hw : s.BatchWaits w cs.length) (hlen : cs.length ≤ 16) (n : Nat) :
    LoopSent cs w n s (State.batchSent 0 cs w (s.batchStart n)) := by
  obtain ⟨-, hbuffers, hkept, hdrawn, hhasCs, -, hwaitMode, hpull, hbres, hbn, -, -, -, hpollCs, habort, hnum, hreals, hdin,
    htrace⟩ := State.batchSent_spec cs 0 w (s.batchStart n) (hw.batchStart n) (by omega)
  simp only [Nat.zero_add, batchAt_batchStart, batchEvents_batchStart] at hbuffers hkept hdrawn hdin htrace
  refine ⟨⟨htrace, ⟨hdin, hdrawn⟩, ⟨hhasCs, hpollCs, habort, hnum, hreals⟩, hwaitMode, hpull⟩, hbn, hbres, ?cmd, ?raw, ?kept⟩
  case cmd => exact fun j hj => (hbuffers j hj).1.trans (List.getD_eq_getElem _ _ hj).symm
  case raw => exact fun j hj => (hbuffers j hj).2
  case kept => exact fun j hj => hkept j (.inr hj)

/-- The flush after the first loop stores the exchange after the last command. -/
theorem Machine.LoopSent.flushRaw (h : LoopSent cs w cs.length s u) {j : Nat} (hj : j ≤ cs.length) :
    u.flushRaw j = s.sampledRaw (s.batchAt w j) := by
  rw [State.flushRaw, h.bn]
  split
  next hlast => rw [hlast, h.reached.sampledRaw]
  next hne => exact h.raw j (by omega)

theorem Machine.LoopSent.flushMeas (h : LoopSent cs w cs.length s u) {j : Nat} (hj : j < cs.length) :
    u.flushMeas j = Machine.interpret s.num (cs.getD j zeroConfig) (seq16 (s.sampledRaw (s.batchAt w (j + 1))).data) := by
  obtain ⟨-, -, -, hnum, -⟩ := h.reached.params
  rw [State.flushMeas, h.cmd j hj, h.flushRaw hj, hnum]

theorem Machine.State.getElem?_batchMeasurements {j : Nat} (hj : j < cs.length) : (s.batchMeasurements cs w)[j]? =
    some (Machine.interpret s.num (cs.getD j zeroConfig) (seq16 (s.sampledRaw (s.batchAt w (j + 1))).data)) := by
  rw [batchMeasurements, List.getElem?_map, List.getElem?_range hj, Option.map_some]

theorem Machine.LoopSent.map_flushMeas (h : LoopSent cs w cs.length s u) :
    (List.range u.bn).map u.flushMeas = s.batchMeasurements cs w := by
  rw [h.bn, State.batchMeasurements]
  exact List.map_congr_left fun j hj => h.flushMeas (List.mem_range.mp hj)

/-- An echo of the first loop, as the second loop verifies it. -/
theorem Machine.LoopSent.verify_eq (h : LoopSent cs w n s u) {j : Nat} (hj : j < cs.length) :
    verify (u.bcmdAt j) (u.brawAt j).echo = verify (cs.getD j zeroConfig) (s.sampledWord (s.batchAt w j)) := by
  rw [h.cmd j hj, h.raw j hj]; rfl

/-- The echo of exchange `j`, seen from the start of the first loop. -/
theorem Machine.State.echo_batchStart (s : State) (w : Nat → Nat) (n j : Nat) :
    ((s.batchStart n).sampledRaw ((s.batchStart n).batchAt w j)).echo = s.sampledWord (s.batchAt w j) := by
  rw [batchAt_batchStart]; rfl

/-- The buffers after a flush that wrote BRES up to `m`. -/
theorem Machine.FlushAnswers.batchKept {t : State} {r : Response} {b : Vector Measurement 16} {es : List Event} {m : Nat}
    (hflush : FlushAnswers s es n u t r b) (h : LoopSent cs w cs.length s u)
    (hb : ∀ j, m ≤ j → b.toList[j]? = u.bres.toList[j]?) : s.batchKeptFrom t cs.length (cs.length + 1) m := by
  refine ⟨fun j hj => ?cmd, fun j hj => ?raw, fun j hj => ?meas⟩
  case cmd => rw [State.bcmdAt_congr hflush.bcmd, (h.kept j hj).1]
  case raw => rw [hflush.braw, State.flushRaw, if_neg (by rw [h.bn]; omega), (h.kept j (by omega)).2]
  case meas => rw [hflush.bres, hb j hj, h.bres]

/-- The buffers that the first loop and the flush wrote. -/
theorem Machine.FlushAnswers.written {t : State} {r : Response} {b : Vector Measurement 16} {es : List Event}
    (hflush : FlushAnswers s es n u t r b) (h : LoopSent cs w cs.length s u) :
    (∀ j < cs.length, t.bcmdAt j = cs.getD j zeroConfig ∧ t.brawAt j = s.sampledRaw (s.batchAt w j)) ∧
    t.brawAt cs.length = s.sampledRaw (s.batchAt w cs.length) := by
  refine ⟨fun j hj => ⟨?_, ?_⟩, ?_⟩
  · rw [State.bcmdAt_congr hflush.bcmd, h.cmd j hj]
  · rw [hflush.braw, h.flushRaw hj.le]
  · rw [hflush.braw, h.flushRaw le_rfl]

end

/-! ### The three ends -/

/-- Settles O40: no echo stops the first loop, so its steps lead to the flush, which answers with every measurement. -/
theorem readBatchReturnsMeasurements : Obligations.ReadBatchReturnsMeasurements := by
  intro cs s w hidle hpos hlen hw hv
  have hsent := Machine.State.loopSent hw hlen cs.length
  have hrun := Machine.State.batchFrom_run cs 0 w (s.batchStart cs.length) (hw.batchStart _) fun _ j hj => by
    rw [Machine.State.echo_batchStart]; exact hv j hj
  generalize Machine.State.batchSent 0 cs w (s.batchStart cs.length) = u at *
  obtain ⟨b, hflush, hmeas, hkept⟩ := hsent.reached.batchFlush_ok (by rw [hsent.bn]; exact hlen) fun _ j hj => by
    rw [hsent.bn] at hj; rw [hsent.verify_eq hj]; exact hv j hj
  rw [hsent.map_flushMeas] at hflush
  rw [hsent.bn] at hmeas hkept
  have h := hflush.exchange
  obtain ⟨hwritten, hlast⟩ := hflush.written hsent
  refine ⟨_, _, Machine.exec_chReadBatch_of_idle hidle hpos hlen, hrun, h.answers, h.chan, h.waitMode, h.pull,
    hflush.bn.trans hsent.bn, h.registers, h.samples, h.params, hwritten, hlast, ?meas, hflush.batchKept hsent hkept⟩
  case meas =>
    rw [← hsent.map_flushMeas, hsent.bn, Machine.State.bresUpTo, hflush.bres]
    exact take_eq_map_range hmeas

/-- Settles O41: under AFTER_ALL no echo stops the first loop either, and the second loop stops at the first mismatch. -/
theorem readBatchFaultsAfterAll : Obligations.ReadBatchFaultsAfterAll := by
  intro cs s w i hidle habort hlen hi hw hv hf
  have hsent := Machine.State.loopSent hw hlen cs.length
  have hrun := Machine.State.batchFrom_run cs 0 w (s.batchStart cs.length) (hw.batchStart _) fun hat =>
    absurd (hat.symm.trans habort) nofun
  generalize Machine.State.batchSent 0 cs w (s.batchStart cs.length) = u at *
  obtain ⟨-, -, habort', -, -⟩ := hsent.reached.params
  obtain ⟨b, hflush, hmeas, hkept⟩ := hsent.reached.batchFlush_fault (i := i) (by rw [hsent.bn]; exact hlen)
    (habort'.trans habort) (by rw [hsent.bn]; exact hi) (fun j hj => by rw [hsent.verify_eq (hj.trans hi)]; exact hv j hj)
    (by rw [hsent.verify_eq hi]; exact hf)
  rw [hsent.raw i hi] at hflush
  have h := hflush.exchange
  obtain ⟨hwritten, hlast⟩ := hflush.written hsent
  refine ⟨_, _, Machine.exec_chReadBatch_of_idle hidle (by omega) hlen, hrun, h.answers, h.chan, h.waitMode, h.pull,
    hflush.bn.trans hsent.bn, h.registers, h.samples, h.params, hwritten, hlast, fun j hj => ?meas,
    hflush.batchKept hsent hkept⟩
  case meas =>
    rw [hflush.bres, hmeas j hj, hsent.flushMeas (by omega), Machine.State.getElem?_batchMeasurements (by omega)]

/-- Settles O42: under AT_FAULT the first loop has sent the commands before the mismatch, and stops at its exchange. -/
theorem readBatchFaultsAtFault : Obligations.ReadBatchFaultsAtFault := by
  intro cs s w i hidle habort hlen hi hw hv hf
  have htake : (cs.take i).length = i := List.length_take_of_le hi.le
  have hloop := Machine.State.loopSent (s := s) (cs := cs.take i) (w := w) (by rw [htake]; exact hw) (by omega) cs.length
  have hrun := Machine.State.batchFrom_run_fault cs 0 w (s.batchStart cs.length) i hi habort (hw.batchStart _)
    (fun j hj => by rw [Machine.State.echo_batchStart]; exact hv j hj) (by rw [Machine.State.echo_batchStart]; exact hf)
  rw [Machine.State.echo_batchStart, Nat.zero_add] at hrun
  generalize Machine.State.batchSent 0 (cs.take i) w (s.batchStart cs.length) = u at *
  have hsent := u.commandSent (k := i) (by omega) (cs.getD i Machine.zeroConfig)
  generalize u.batchSend i (cs.getD i Machine.zeroConfig) = x at *
  obtain ⟨hreached, hbn, hbres, hcmd, hraw, hkept⟩ := hloop
  rw [htake] at hreached hcmd hraw hkept
  have h := hreached.answersExchange hsent.reached hsent.registers
    (.fault (.connectionFault (Machine.popcount16 (s.sampledWord (s.batchAt w i)))))
  refine ⟨_, _, Machine.exec_chReadBatch_of_idle hidle (by omega) hlen, hrun, h.answers, h.chan, h.waitMode, h.pull,
    hsent.bn.trans hbn, h.registers, h.samples, h.params, fun j hj => ?written, fun j hj => ?keptCmd, fun j hj => ?keptRaw,
    fun j _ => ?keptMeas⟩
  case written =>
    rcases hj.eq_or_lt with rfl | hlt
    · exact ⟨hsent.cmd, hsent.raw.trans hreached.sampledRaw⟩
    · obtain ⟨hcmd', hraw'⟩ := hsent.kept j hlt.ne
      refine ⟨hcmd'.trans ((hcmd j hlt).trans ?_), hraw'.trans (hraw j hlt)⟩
      rw [List.getD_eq_getElem?_getD, List.getD_eq_getElem?_getD, List.getElem?_take_of_lt hlt]
  case keptCmd => exact (hsent.kept j (by omega)).1.trans (hkept j (by omega)).1
  case keptRaw => exact (hsent.kept j (by omega)).2.trans (hkept j (by omega)).2
  case keptMeas => exact congrArg (fun v => v.toList[j]?) (hsent.bres.trans hbres)

end Sys2Proof
end
